-- ==== Sys2Proof/Word.lean ====
section
/-! DEFINITION. The widths of the block's values (R9, R15): every one an unsigned integer. -/

namespace Sys2Proof

/-- One byte of a word shown as bytes (R68). -/
abbrev Byte := BitVec 8

/-- A register, an aperture word or a command word: 32 bits (R60, R90). -/
abbrev Word := BitVec 32

/-- A symbol: `SYM_BITS` = 8 bits (R6, R12). -/
abbrev Symbol := BitVec 8

/-- A FREQ entry: an unsigned count of 32 bits (R31). -/
abbrev Count := BitVec 32

/-- A node weight: an unsigned integer of 40 bits (R33, R137). -/
abbrev Weight := BitVec 40

/-- A node index: 9 bits (R6, R33). -/
abbrev NodeIdx := BitVec 9

end Sys2Proof
end

