-- ==== Sys2Proof/Config.lean ====
section
/-! DEFINITION. The implementation parameters of R6, and the values the spec leaves open, as constants with no body. -/

namespace Sys2Proof.Config

/-- `SYM_BITS` (R6). -/
abbrev symBits : Nat := 8

/-- `NSYM`, the number of symbol values (R6). -/
abbrev nsym : Nat := 256

/-- `NODE_IDX_BITS` (R6). -/
abbrev nodeIdxBits : Nat := 9

/-- `NODE_CAP`, the number of NODE entries (R6, R33). -/
abbrev nodeCap : Nat := 512

/-- `NIL`, the child index that means no child (R6, R33). -/
abbrev nil : NodeIdx := 0x1FF#9

/-- `MAX_NODES`: a command allocates nodes at indices below this (R6, R202). -/
abbrev maxNodes : Nat := 511

/-- `MAX_VISITS`: the descents GEN may make (R6, R156). -/
abbrev maxVisits : Nat := 510

/-- `MAX_CODE_LEN`: the longest codeword in bits (R6, R155). -/
abbrev maxCodeLen : Nat := 255

/-- `SYMBUF_CAP`, in symbols: the spec's own value (R6; log 11). -/
abbrev symbufCap : Nat := 4096

/-- `BITBUF_CAP`, in bits: the spec's own value (R6; log 11). -/
abbrev bitbufCap : Nat := 32768

/-- The number of BITBUF words (R39). -/
abbrev bitbufWords : Nat := 1024

/-- The size of the block's window in bytes (R60). -/
abbrev windowSize : Nat := 0x20000

/-- Which 128 KiB slot of the platform's space holds the window: OPEN (R6, S12; log 10). -/
opaque hceBaseIndex : Nat

/-- `HCE_BASE`, a 128 KiB-aligned address, OPEN (R6). -/
def hceBase : Nat := hceBaseIndex * windowSize

/-- The platform's address of the block's byte offset `off` (R60). -/
def platformAddress (off : Nat) : Nat := hceBase + off

/-- `HCE_IRQ_LINE`, the platform line `irq` drives, OPEN (R6, R240, S13; log 10). -/
opaque hceIrqLine : Nat

/-- By how much `RESET_HOLD_CYCLES` exceeds its least value 1, OPEN (R6, S14; log 4). -/
opaque resetHoldExtra : Nat

/-- `RESET_HOLD_CYCLES`, at least 1 (R6, R261). -/
def resetHoldCycles : Nat := resetHoldExtra + 1

/-- FREE VALUE. What SYMBUF entry `i` holds before anything writes it, after the reset numbered `epoch` (R37, S1; log 3). -/
opaque symbufUnwritten (epoch i : Nat) : Symbol

/-- FREE VALUE. What BITBUF word `w` holds before anything writes it, after the reset numbered `epoch` (R39, S2; log 3). -/
opaque bitbufUnwritten (epoch w : Nat) : Word

/-- FREE VALUE. What the host read while BUSY numbered `draw` returns (R69 b, S3; log 2). -/
opaque busyReadValue (draw : Nat) : Word

end Sys2Proof.Config
end

