-- ==== Sys2Proof/Syntax.lean ====
section
/-! DEFINITION. The nine commands of the opcode table (R92). A command has no operand field (R91). -/

namespace Sys2Proof

/-- One constructor per row of the opcode table (R92). -/
inductive Instr where
  /-- NOP (R114). -/
  | nop
  /-- CLRFREQ (R116). -/
  | clrfreq
  /-- CLRTREE (R117). -/
  | clrtree
  /-- CLRTBL (R118). -/
  | clrtbl
  /-- BUILD, the code tree builder (R130). -/
  | build
  /-- GEN, the code table generator (R150). -/
  | gen
  /-- ENC, the encoder (R170). -/
  | enc
  /-- DEC, the decoder (R191). -/
  | dec
  /-- TBLTREE, the tree from a code table (R200). -/
  | tbltree
  deriving DecidableEq, Repr

end Sys2Proof
end

