-- ==== Sys2Proof/WellFormed.lean ====
section
/-! DEFINITION. The checks on what is offered to the block: command words (R90, R92, R94) and host accesses (R60, R62, R63). -/

namespace Sys2Proof.WellFormed

/-- The OPCODE values the opcode map lists (R92). -/
def listedOpcodes : List Byte :=
  [0x00#8, 0x01#8, 0x02#8, 0x03#8, 0x10#8, 0x20#8, 0x30#8, 0x40#8, 0x50#8]

/-- RSVD, bits `[31:8]` of a command word, is zero (R90). -/
def rsvdZero (w : Word) : Bool := w.extractLsb' 8 24 == 0#24

/-- OPCODE, bits `[7:0]` of a command word, is one of the listed values (R92). -/
def opcodeListed (w : Word) : Bool := listedOpcodes.contains (w.extractLsb' 0 8)

/-- A legal command word (R92, R94). -/
def commandWord (w : Word) : Bool := rsvdZero w && opcodeListed w

/-- A term of `Instr` has no operand (R91), so there is nothing to check in it: every term is well-formed. -/
def instr (_ : Instr) : Bool := true

/-- A host access is 32 bits wide: four bytes (R62). -/
def accessSize (size : Nat) : Bool := size == 4

/-- A host access is at a word-aligned byte offset (R62). -/
def accessAligned (addr : Nat) : Bool := addr % 4 == 0

/-- A host access lies in the block's window (R60, R63). -/
def accessInWindow (addr : Nat) : Bool := decide (addr < 0x20000)

/-- A host access that has a meaning (R60, R62, R63). -/
def access (addr size : Nat) : Bool := accessSize size && accessAligned addr && accessInWindow addr

end Sys2Proof.WellFormed
end

