-- ==== Sys2Proof/Decode.lean ====
section
/-! DEFINITION. The command word decoded and encoded (R90 to R94). -/

namespace Sys2Proof

/-- Why a command word is illegal (R94). -/
inductive DecodeError where
  /-- Some RSVD bit is set. -/
  | reservedBitsSet (word : Word)
  /-- The OPCODE is not one of the nine. -/
  | unknownOpcode (opcode : Byte)
  /-- Fewer than the four bytes of a command word were given. -/
  | tooFewBytes (given : Nat)
  deriving DecidableEq, Repr

/-- OPCODE, bits `[7:0]` (R90). -/
def opcodeField (w : Word) : Byte := w.extractLsb' 0 8

/-- RSVD, bits `[31:8]` (R90). -/
def rsvdField (w : Word) : BitVec 24 := w.extractLsb' 8 24

/-- The opcode map (R92). -/
def opcodeMap : List (Byte × Instr) :=
  [(0x00#8, .nop), (0x01#8, .clrfreq), (0x02#8, .clrtree), (0x03#8, .clrtbl), (0x10#8, .build),
   (0x20#8, .gen), (0x30#8, .enc), (0x40#8, .dec), (0x50#8, .tbltree)]

/-- The command a word stands for; any word but the nine is illegal (R92, R94). -/
def decode (w : Word) : Except DecodeError Instr :=
  if rsvdField w = 0#24 then
    match opcodeMap.lookup (opcodeField w) with
    | some i => .ok i
    | none => .error (.unknownOpcode (opcodeField w))
  else .error (.reservedBitsSet w)

/-- The four bytes that show a word at ascending addresses, least significant first (R68). -/
def wordBytes (w : Word) : List Byte :=
  [w.extractLsb' 0 8, w.extractLsb' 8 8, w.extractLsb' 16 8, w.extractLsb' 24 8]

/-- The word that four bytes show, the first the least significant (R68). -/
def bytesWord (b0 b1 b2 b3 : Byte) : Word := b3 ++ b2 ++ b1 ++ b0

/-- Decode from bytes: exactly one word is read per command (R90), and the rest is left. -/
def decodeBytes : List Byte → Except DecodeError (Instr × List Byte)
  | b0 :: b1 :: b2 :: b3 :: rest =>
    match decode (bytesWord b0 b1 b2 b3) with
    | .ok i => .ok (i, rest)
    | .error e => .error e
  | bs => .error (.tooFewBytes bs.length)

/-- The OPCODE of each command (R92). -/
def opcodeOf : Instr → Byte
  | .nop => 0x00#8
  | .clrfreq => 0x01#8
  | .clrtree => 0x02#8
  | .clrtbl => 0x03#8
  | .build => 0x10#8
  | .gen => 0x20#8
  | .enc => 0x30#8
  | .dec => 0x40#8
  | .tbltree => 0x50#8

/-- The word of each command: its OPCODE with RSVD zero (R90, R92). -/
def encode (i : Instr) : Word := 0#24 ++ opcodeOf i

/-- The command word whose bits are `w`, numbered as the opcode table numbers them, the bits from `nbits` up being 0. -/
def tableWord (nbits w : Nat) : Word := BitVec.ofNat 32 (w % 2 ^ nbits)

/-- What the decoder reads from a word given with the opcode table's numbering of its bits. -/
def decodeTableWord (nbits w : Nat) : Option Instr :=
  match decodeBytes (wordBytes (tableWord nbits w)) with
  | .ok (i, _) => some i
  | .error _ => none

end Sys2Proof
end

