-- ==== Sys2Proof/Machine/State.lean ====
section
/-! DEFINITION. The state the spec gives the block (R20 to R42), the machine's outcomes, and the state after reset (R260). -/

namespace Sys2Proof.Machine

/-- `NODE[i].KIND`, a value of 2 bits with a meaning for each (R11, R33). -/
inductive Kind where
  /-- 0, no node. -/
  | empty
  /-- 1, a leaf that carries a symbol. -/
  | leaf
  /-- 2, an internal node with two child indices. -/
  | internal
  /-- 3, the leaf that carries no symbol. -/
  | sentinel
  deriving DecidableEq, Repr

/-- A NODE entry (R33). -/
structure Node where
  kind : Kind
  sym : Symbol
  left : NodeIdx
  right : NodeIdx
  weight : Weight
  deriving DecidableEq, Repr

/-- The NODE entry with every field 0: EMPTY (R33). -/
def Node.blank : Node := { kind := .empty, sym := 0#8, left := 0#9, right := 0#9, weight := 0#40 }

/-- A CODE entry; bit `i` of `cw` is `c_i`, so `c_0`, the root-side bit, is bit 0 (R35). -/
structure CodeEntry where
  valid : Bool
  len : BitVec 8
  cw : BitVec 256
  deriving DecidableEq, Repr

/-- The CODE entry with every field 0 (R35). -/
def CodeEntry.blank : CodeEntry := { valid := false, len := 0#8, cw := 0#256 }

/-- The TREE register; its other bits are reserved (R30). -/
structure TreeReg where
  valid : Bool
  root : NodeIdx
  deriving DecidableEq, Repr

/-- TREE = 0 (R30). -/
def TreeReg.zero : TreeReg := { valid := false, root := 0#9 }

/-- The values STATUS.ERRCODE takes, one constructor per row of R220. -/
inductive ErrCode where
  | ok
  | illegalCmd
  | emptyInput
  | unknownSymbol
  | invalidStream
  | treeInvalid
  | tableInvalid
  | noTree
  | bufferOverflow
  | lengthInvalid
  deriving DecidableEq, Repr

/-- The reasons of TREE_INVALID (R222). -/
inductive TreeReason where
  /-- 1: the root is NIL or not INTERNAL. -/
  | badRoot
  /-- 2: a child index names an EMPTY node. -/
  | emptyChild
  /-- 3: an INTERNAL node at depth 255. -/
  | tooDeep
  /-- 4: a symbol on two leaves (GEN only). -/
  | duplicateSymbol
  /-- 5: a second SENTINEL (GEN only). -/
  | secondSentinel
  /-- 6: more than 510 descents (GEN only). -/
  | tooManyVisits
  deriving DecidableEq, Repr

/-- The reasons of TABLE_INVALID (R222). -/
inductive TableReason where
  /-- 1: an entry with VALID = 1 and LEN = 0. -/
  | zeroLength
  /-- 2: a codeword that is a prefix of, or equal to, an earlier one (TBLTREE only). -/
  | prefixConflict
  /-- 3: the tree needs more than 511 nodes (TBLTREE only). -/
  | tooManyNodes
  deriving DecidableEq, Repr

/-- What `raise E(pos, aux)` records (R10, R221). -/
structure CmdError where
  code : ErrCode
  pos : Word
  aux : Word
  deriving DecidableEq, Repr

/-- The engine state (R40). -/
inductive Engine where
  | idle
  /-- Performing the accepted command word `cmd`. -/
  | busy (cmd : Word)
  deriving DecidableEq, Repr

/-- What happens next to the block. The list of these in State says which agent moves and when (R7, R8; log 1). -/
inductive Input where
  /-- The host performs `MemRead(addr, size)` at the block's byte offset `addr` (R61). -/
  | read (addr size : Nat)
  /-- The host performs `MemWrite(addr, size, v)` (R61). -/
  | write (addr size : Nat) (v : Word)
  /-- The engine has the turn (R112). -/
  | engine
  /-- One clock cycle with the reset input held (R261). -/
  | resetCycle
  /-- The reset input is released (R261). -/
  | resetEnd
  deriving DecidableEq, Repr

/-- What a host read returned to the host (R61; log 5). -/
structure Reply where
  addr : Nat
  value : Word
  deriving DecidableEq, Repr

/-- An internal memory, by entry index: a list in one canonical form (`Memory.wf`), with the indices strictly rising.
An index that is not listed reads as the memory's reset contents (log 9). -/
abbrev Memory (α : Type) := List (Nat × α)

/-- The whole state. STATUS.BUSY is `engine`, STATUS.ERR is `errcode`, `irq` is `irqEn` and `done`: each is stored once
(R26, R40, R42; log 17). -/
structure State where
  /-- The engine state (R40). -/
  engine : Engine
  /-- CTRL.IRQ_EN (R24). -/
  irqEn : Bool
  /-- STATUS.DONE (R27). -/
  done : Bool
  /-- STATUS.OVERRUN (R28). -/
  overrun : Bool
  /-- STATUS.ERRCODE (R26). -/
  errcode : ErrCode
  /-- STATUS.LASTOP (R26). -/
  lastop : Byte
  /-- ERR_POS (R29). -/
  errPos : Word
  /-- ERR_AUX (R29). -/
  errAux : Word
  /-- TREE (R30). -/
  tree : TreeReg
  /-- SYM_LEN (R32). -/
  symLen : Word
  /-- BIT_LEN (R32). -/
  bitLen : Word
  /-- FREQ (R31). -/
  freq : Memory Count
  /-- NODE (R33). -/
  node : Memory Node
  /-- CODE (R35). -/
  code : Memory CodeEntry
  /-- SYMBUF (R37). -/
  symbuf : Memory Symbol
  /-- BITBUF (R39). -/
  bitbuf : Memory Word
  /-- How many cycles the reset input has been held; 0 when it is not held (R261; log 4). -/
  resetHeld : Nat
  /-- The model's own: what happens next, oldest first (log 1). -/
  inputs : List Input
  /-- The model's own: what host reads have returned, newest first (log 5). -/
  replies : List Reply
  /-- The model's own: how many free values reads while BUSY have drawn (log 2). -/
  draws : Nat
  /-- The model's own: selects the free contents of SYMBUF and BITBUF after each reset (log 3). -/
  resets : Nat
  deriving DecidableEq, Repr

/-- The block has no fault: an error is the outcome of a command, reported in STATUS, and the machine goes on (R62, R231,
R242; log 20). -/
inductive Fault where
  deriving DecidableEq, Repr

/-- Why the model does not admit a step. -/
inductive Refusal where
  /-- Raised by an arm of `exec` for a command that has no meaning yet; none is left. Safe. -/
  | notModelled (mnemonic : String)
  /-- Raised by a host access whose width is not 32 bits (R62, S5). Safe. -/
  | accessWidth (addr size : Nat)
  /-- Raised by a host access at an offset that is not a multiple of 4 (R62, S5). Safe. -/
  | accessMisaligned (addr : Nat)
  /-- Raised by a host access at or above 0x20000, outside the block (R63, S7). Safe. -/
  | accessOutsideWindow (addr : Nat)
  /-- Raised by a host access while reset is held (R261, S6). Safe. -/
  | accessDuringReset (addr : Nat)
  /-- Raised by the release of a reset held for fewer than RESET_HOLD_CYCLES cycles (R261; log 4). Safe. -/
  | resetTooShort (cycles : Nat)
  deriving DecidableEq, Repr

/-- The state right after reset (R260). SYMBUF and BITBUF are unspecified: nothing is listed in them, and an unlisted entry
is a free value (log 3). The model's own fields start empty or 0 (log 21). -/
def State.reset : State :=
  { engine := .idle
    irqEn := false
    done := false
    overrun := false
    errcode := .ok
    lastop := 0#8
    errPos := 0#32
    errAux := 0#32
    tree := .zero
    symLen := 0#32
    bitLen := 0#32
    freq := []
    node := []
    code := []
    symbuf := []
    bitbuf := []
    resetHeld := 0
    inputs := []
    replies := []
    draws := 0
    resets := 0 }

end Sys2Proof.Machine
end

