-- ==== Sys2Proof/Machine/Flags.lean ====
section
/-! DEFINITION. The STATUS register, the codes of errors and reasons, and the interrupt output. -/

namespace Sys2Proof.Machine

/-- The number of an error code (R220). -/
def ErrCode.number : ErrCode → Byte
  | .ok => 0#8
  | .illegalCmd => 1#8
  | .emptyInput => 2#8
  | .unknownSymbol => 3#8
  | .invalidStream => 4#8
  | .treeInvalid => 5#8
  | .tableInvalid => 6#8
  | .noTree => 7#8
  | .bufferOverflow => 8#8
  | .lengthInvalid => 9#8

/-- The reason number of a TREE_INVALID (R222). -/
def TreeReason.number : TreeReason → Word
  | .badRoot => 1#32
  | .emptyChild => 2#32
  | .tooDeep => 3#32
  | .duplicateSymbol => 4#32
  | .secondSentinel => 5#32
  | .tooManyVisits => 6#32

/-- The reason number of a TABLE_INVALID (R222). -/
def TableReason.number : TableReason → Word
  | .zeroLength => 1#32
  | .prefixConflict => 2#32
  | .tooManyNodes => 3#32

/-- `ILLEGAL_CMD(v, 0)` (R115). -/
def CmdError.illegalCmd (v : Word) : CmdError := { code := .illegalCmd, pos := v, aux := 0#32 }

/-- `EMPTY_INPUT(0, 0)` (R136, R203). -/
def CmdError.emptyInput : CmdError := { code := .emptyInput, pos := 0#32, aux := 0#32 }

/-- `UNKNOWN_SYMBOL(i, s)` (R170). -/
def CmdError.unknownSymbol (i : Nat) (x : Symbol) : CmdError :=
  { code := .unknownSymbol, pos := BitVec.ofNat 32 i, aux := x.setWidth 32 }

/-- `INVALID_STREAM(k, n)` (R193, R194). -/
def CmdError.invalidStream (k n : Nat) : CmdError :=
  { code := .invalidStream, pos := BitVec.ofNat 32 k, aux := BitVec.ofNat 32 n }

/-- `TREE_INVALID(c, reason)` (R222). -/
def CmdError.treeInvalid (c : NodeIdx) (r : TreeReason) : CmdError :=
  { code := .treeInvalid, pos := c.setWidth 32, aux := r.number }

/-- `TABLE_INVALID(s, reason)` (R222). -/
def CmdError.tableInvalid (x : Symbol) (r : TableReason) : CmdError :=
  { code := .tableInvalid, pos := x.setWidth 32, aux := r.number }

/-- `NO_TREE(0, 0)` (R150). -/
def CmdError.noTree : CmdError := { code := .noTree, pos := 0#32, aux := 0#32 }

/-- `BUFFER_OVERFLOW(i, 0)` (R170, R191). -/
def CmdError.bufferOverflow (i : Nat) : CmdError :=
  { code := .bufferOverflow, pos := BitVec.ofNat 32 i, aux := 0#32 }

/-- `LENGTH_INVALID(n, 0)` (R170, R191). -/
def CmdError.lengthInvalid (n : Word) : CmdError := { code := .lengthInvalid, pos := n, aux := 0#32 }

/-- STATUS.BUSY is 1 exactly when the engine is BUSY (R40). -/
def Engine.isBusy : Engine → Bool
  | .idle => false
  | .busy _ => true

/-- STATUS.BUSY (R26, R40). -/
def State.busy (s : State) : Bool := s.engine.isBusy

/-- STATUS.ERR, always `ERRCODE != 0` (R26). -/
def State.err (s : State) : Bool := s.errcode.number != 0#8

/-- The STATUS word (R26). -/
def State.statusWord (s : State) : Word :=
  0#8 ++ s.lastop ++ s.errcode.number ++ 0#4 ++ BitVec.ofBool s.overrun ++ BitVec.ofBool s.err
    ++ BitVec.ofBool s.done ++ BitVec.ofBool s.busy

/-- A write of `v` to STATUS: bit 1 set clears DONE, bit 3 set clears OVERRUN, all else is ignored (R26). -/
def State.writeStatus (v : Word) (s : State) : State :=
  { s with done := s.done && !v.getLsbD 1, overrun := s.overrun && !v.getLsbD 3 }

/-- `irq = CTRL.IRQ_EN AND STATUS.DONE` (R42, R240). -/
def State.irq (s : State) : Bool := s.irqEn && s.done

end Sys2Proof.Machine
end

