-- ==== Sys2Proof/Machine/Memory.lean ====
section
/-! DEFINITION. The operations of one internal memory: a list of (index, entry) pairs in one canonical form (log 9). -/

namespace Sys2Proof.Machine

/-- The listed entry at index `i`, if any. -/
def Memory.find? {α : Type} : Memory α → Nat → Option α
  | [], _ => none
  | (k, v) :: m, i => if k = i then some v else Memory.find? m i

/-- The entry at index `i`: the listed one, else the memory's reset contents `dflt` there. -/
def Memory.read {α : Type} (dflt : α) (m : Memory α) (i : Nat) : α := (Memory.find? m i).getD dflt

/-- List entry `v` at index `i`, in its place. -/
def Memory.insert {α : Type} : Memory α → Nat → α → Memory α
  | [], i, v => [(i, v)]
  | (k, w) :: m, i, v =>
    if i < k then (i, v) :: (k, w) :: m
    else if i = k then (i, v) :: m
    else (k, w) :: Memory.insert m i v

/-- List nothing at index `i`. -/
def Memory.erase {α : Type} (m : Memory α) (i : Nat) : Memory α := m.filter (fun c => c.1 != i)

/-- Write `v` at index `i`. Where the reset contents are known (`dflt = some d`), writing `d` lists nothing, so that equal
memories are equal lists; where they are unspecified (`none`), every written entry is listed (log 3, log 9). -/
def Memory.write {α : Type} [DecidableEq α] (dflt : Option α) (m : Memory α) (i : Nat) (v : α) : Memory α :=
  if dflt = some v then Memory.erase m i else Memory.insert m i v

/-- Write the entries of `vs` at the indices from `i` upward (R191, R195). -/
def Memory.writeFrom {α : Type} [DecidableEq α] (dflt : Option α) : Memory α → Nat → List α → Memory α
  | m, _, [] => m
  | m, i, v :: vs => Memory.writeFrom dflt (Memory.write dflt m i v) (i + 1) vs

/-- The listed indices are strictly rising and all at least `lo`. -/
def Memory.rising {α : Type} : Nat → Memory α → Bool
  | _, [] => true
  | lo, (k, _) :: m => decide (lo ≤ k) && Memory.rising (k + 1) m

/-- The canonical form: indices strictly rising and below the capacity, no entry equal to the known reset contents. -/
def Memory.wf {α : Type} [DecidableEq α] (cap : Nat) (dflt : Option α) (m : Memory α) : Bool :=
  Memory.rising 0 m && m.all (fun c => decide (c.1 < cap) && !decide (dflt = some c.2))

end Sys2Proof.Machine
end

