-- ==== Sys2Proof/Machine/Operands.lean ====
section
/-! DEFINITION. The implicit operands of the commands (R93): the entries of the internal memories, a codeword's bits, and
the bits of the stream. -/

namespace Sys2Proof.Machine

/-- `FREQ[s]` (R31). -/
def State.freqAt (s : State) (x : Symbol) : Count := Memory.read 0#32 s.freq x.toNat

/-- An entry of a NODE memory (R33). -/
def nodeIn (m : Memory Node) (i : NodeIdx) : Node := Memory.read Node.blank m i.toNat

/-- An entry written into a NODE memory (R33). -/
def nodePut (m : Memory Node) (i : NodeIdx) (n : Node) : Memory Node :=
  Memory.write (some Node.blank) m i.toNat n

/-- `NODE[i]` (R33). -/
def State.nodeAt (s : State) (i : NodeIdx) : Node := nodeIn s.node i

/-- An entry of a CODE memory (R35). -/
def codeIn (m : Memory CodeEntry) (x : Symbol) : CodeEntry := Memory.read CodeEntry.blank m x.toNat

/-- An entry written into a CODE memory (R35). -/
def codePut (m : Memory CodeEntry) (x : Symbol) (e : CodeEntry) : Memory CodeEntry :=
  Memory.write (some CodeEntry.blank) m x.toNat e

/-- `CODE[s]` (R35). -/
def State.codeAt (s : State) (x : Symbol) : CodeEntry := codeIn s.code x

/-- `SYMBUF[i]` (R37); an entry nothing has written since reset is a free value (S1; log 3). -/
def State.symbufAt (s : State) (i : Nat) : Symbol := Memory.read (Config.symbufUnwritten s.resets i) s.symbuf i

/-- `BITBUF[w]` (R39); a word nothing has written since reset is a free value (S2; log 3). -/
def State.bitbufAt (s : State) (w : Nat) : Word := Memory.read (Config.bitbufUnwritten s.resets w) s.bitbuf w

/-- `StreamBit(k) = BITBUF[k >> 5][k & 31]` (R66). -/
def State.streamBit (s : State) (k : Nat) : Bool := (s.bitbufAt (k / 32)).getLsbD (k % 32)

/-- The symbols `0 .. 255`, ascending. -/
def allSymbols : List Symbol := (List.range Config.nsym).map (BitVec.ofNat 8)

/-- `SYMBUF[0 .. n-1]`. -/
def State.symbols (s : State) (n : Nat) : List Symbol := (List.range n).map s.symbufAt

/-- The codeword of an entry: `c_i = CW[i]` for `0 <= i < LEN` (R35). -/
def CodeEntry.codeword (e : CodeEntry) : List Bool := (List.range e.len.toNat).map e.cw.getLsbD

/-- A usable entry: VALID = 1 and LEN >= 1 (R11). -/
def CodeEntry.usable (e : CodeEntry) : Bool := e.valid && e.len != 0#8

/-- The number whose bit `i` is element `i` of the list. -/
def bitsNat : List Bool → Nat
  | [] => 0
  | b :: bs => b.toNat + 2 * bitsNat bs

/-- `Pack(q)`: bit `i` is `q_i` for `i < len(q)`, the other bits are 0 (R150). -/
def packBits (width : Nat) (q : List Bool) : BitVec width := BitVec.ofNat width (bitsNat q)

/-- The CODE entry GEN writes for a leaf reached by path `q` (R153). -/
def CodeEntry.ofPath (q : List Bool) : CodeEntry :=
  { valid := true, len := BitVec.ofNat 8 q.length, cw := packBits 256 q }

/-- BITBUF word `w` of a stream: stream bit `k` is bit `k & 31` of word `k >> 5`, and the bits past the end are 0
(R66, R67). -/
def streamWord (stream : List Bool) (w : Nat) : Word := packBits 32 ((stream.drop (32 * w)).take 32)

/-- The words a stream fills: `ceil(T/32)` of them (R67). -/
def streamWords (stream : List Bool) : List Word := (List.range ((stream.length + 31) / 32)).map (streamWord stream)

end Sys2Proof.Machine
end

