-- ==== Sys2Proof/Machine/Ops.lean ====
section
/-! DEFINITION. The named operations over the state: a command accepted, completed and failed, and reset. -/

namespace Sys2Proof.Machine

/-- The next-to-happen list replaced: an entry of it is spent (log 1). -/
def State.withInputs (rest : List Input) (s : State) : State := { s with inputs := rest }

/-- Acceptance of the command word `v` (R110). Also the host's way back from an error: the next acceptance clears
ERRCODE, ERR_POS, ERR_AUX and DONE (R243). -/
def State.accept (v : Word) (s : State) : State :=
  { s with
    engine := .busy v
    done := false
    errcode := .ok
    lastop := v.extractLsb' 0 8
    errPos := 0#32
    errAux := 0#32 }

/-- `complete()` and what follows it (R112). -/
def State.complete (s : State) : State := { s with engine := .idle, done := true, errcode := .ok }

/-- FREQ replaced. -/
def State.withFreq (m : Memory Count) (s : State) : State := { s with freq := m }

/-- NODE and TREE replaced. -/
def State.withTree (m : Memory Node) (t : TreeReg) (s : State) : State := { s with node := m, tree := t }

/-- CODE replaced. -/
def State.withCode (m : Memory CodeEntry) (s : State) : State := { s with code := m }

/-- BITBUF and BIT_LEN replaced. -/
def State.withStream (m : Memory Word) (n : Word) (s : State) : State := { s with bitbuf := m, bitLen := n }

/-- SYMBUF and SYM_LEN replaced. -/
def State.withSymbols (m : Memory Symbol) (n : Word) (s : State) : State := { s with symbuf := m, symLen := n }

/-- Every FREQ entry 0 (R116). -/
def State.clearFreq (s : State) : State := s.withFreq []

/-- Every NODE entry EMPTY with all fields 0, and TREE 0 (R117). -/
def State.clearTree (s : State) : State := s.withTree [] .zero

/-- Every CODE entry all zero (R118). -/
def State.clearCode (s : State) : State := s.withCode []

/-- The output effects of an error, by command; an illegal word (`none`) has none (R230). -/
def errorEffects : Option Instr → State → State
  | some .build, s => s.clearTree
  | some .gen, s => s.clearCode
  | some .enc, s => s.withStream s.bitbuf 0#32
  | some .dec, s => s.withSymbols s.symbuf 0#32
  | some .tbltree, s => s.clearTree
  | some .nop, s => s
  | some .clrfreq, s => s
  | some .clrtree, s => s
  | some .clrtbl, s => s
  | none, s => s

/-- ERRCODE, ERR_POS and ERR_AUX recorded, the engine back to IDLE and DONE set (R112, R221, R242). -/
def State.recordError (e : CmdError) (s : State) : State :=
  { s with engine := .idle, done := true, errcode := e.code, errPos := e.pos, errAux := e.aux }

/-- `raise E(pos, aux)`: the one exception entry of the block. `s` is the state at acceptance, so the command's partial
writes are undone and only the output effects of R230 are left (R112, R221, R230, R242). -/
def State.raise (cmd : Option Instr) (e : CmdError) (s : State) : State := (errorEffects cmd s).recordError e

/-- The state of R260, put there by the reset input whatever the block was doing (R262). The host's own entries in the
model (`inputs`, `replies`, `draws`) and the count of held cycles are kept; `resets` moves on, so that SYMBUF and BITBUF
hold new free contents (R260; log 3, log 4). -/
def State.toReset (s : State) : State :=
  { State.reset with
    resetHeld := s.resetHeld
    inputs := s.inputs
    replies := s.replies
    draws := s.draws
    resets := s.resets + 1 }

/-- One clock cycle with the reset input held (R261). -/
def State.holdReset (s : State) : State := { s.toReset with resetHeld := s.resetHeld + 1 }

/-- The reset input released after at least RESET_HOLD_CYCLES cycles (R261); releasing a reset that is not held changes
nothing. -/
def releaseReset (s : State) : Host.Outcome State Fault Refusal :=
  if s.resetHeld = 0 then .next s
  else if s.resetHeld < Config.resetHoldCycles then .refused (.resetTooShort s.resetHeld)
  else .next { s with resetHeld := 0 }

end Sys2Proof.Machine
end

