-- ==== Sys2Proof/Machine/Build.lean ====
section
/-! DEFINITION. BUILD, the code tree builder (R130 to R139). -/

namespace Sys2Proof.Machine

/-- The seed order's comparison: the pair (count, symbol value), ascending (R131). -/
def seedBefore (freq : Symbol → Count) (a b : Symbol) : Bool :=
  decide ((freq a).toNat < (freq b).toNat) || (freq a == freq b && decide (a.toNat < b.toNat))

/-- A symbol put in its place in a list in seed order. -/
def seedInsert (freq : Symbol → Count) (a : Symbol) : List Symbol → List Symbol
  | [] => [a]
  | b :: l => if seedBefore freq a b then a :: b :: l else b :: seedInsert freq a l

/-- The symbols with a non-zero count, ascending by (count, symbol value) (R130, R131). -/
def seedOrder (freq : Symbol → Count) : List Symbol :=
  (allSymbols.filter (fun x => freq x != 0#32)).foldr (seedInsert freq) []

/-- The LEAF of a symbol, its weight the count widened to 40 bits (R130). -/
def leafNode (x : Symbol) (c : Count) : Node :=
  { kind := .leaf, sym := x, left := 0#9, right := 0#9, weight := c.setWidth 40 }

/-- An INTERNAL node over two children (R133). -/
def internalNode (l r : NodeIdx) (w : Weight) : Node :=
  { kind := .internal, sym := 0#8, left := l, right := r, weight := w }

/-- The SENTINEL, of weight 0 (R135). -/
def sentinelNode : Node := { kind := .sentinel, sym := 0#8, left := 0#9, right := 0#9, weight := 0#40 }

/-- The leaves stored from index `i` upward, in the order given (R130). -/
def placeLeaves (freq : Symbol → Count) : Memory Node → Nat → List Symbol → Memory Node
  | m, _, [] => m
  | m, i, x :: xs => placeLeaves freq (nodePut m (BitVec.ofNat 9 i) (leafNode x (freq x))) (i + 1) xs

/-- The queue's order: the pair (WEIGHT, index), compared as unsigned integers (R130, R132). -/
def queueBefore (m : Memory Node) (a b : NodeIdx) : Bool :=
  decide ((nodeIn m a).weight.toNat < (nodeIn m b).weight.toNat)
    || ((nodeIn m a).weight == (nodeIn m b).weight && decide (a.toNat < b.toNat))

/-- The first in the queue's order among `best` and the list. -/
def queueLeast (m : Memory Node) : NodeIdx → List NodeIdx → NodeIdx
  | best, [] => best
  | best, a :: q => queueLeast m (if queueBefore m a best then a else best) q

/-- `PopMin(Q)`: the element with the least (WEIGHT, index), and the queue without it (R130). -/
def popMin (m : Memory Node) : List NodeIdx → Option (NodeIdx × List NodeIdx)
  | [] => none
  | a :: q => some (queueLeast m a q, (a :: q).erase (queueLeast m a q))

/-- What BUILD's loop holds: NODE so far, the priority queue, and the next free index (R41, R130). -/
structure Builder where
  nodes : Memory Node
  queue : List NodeIdx
  free : Nat
  deriving DecidableEq, Repr

/-- One merge: the two least are removed, the first is the left child and the second the right child of a new INTERNAL
node at the next free index, which is put in the queue (R133). With fewer than two in the queue there is no merge. -/
def mergeLeast (b : Builder) : Builder :=
  match popMin b.nodes b.queue with
  | none => b
  | some (l, q1) =>
    match popMin b.nodes q1 with
    | none => b
    | some (r, q2) =>
      { nodes := nodePut b.nodes (BitVec.ofNat 9 b.free)
          (internalNode l r ((nodeIn b.nodes l).weight + (nodeIn b.nodes r).weight))
        queue := q2 ++ [BitVec.ofNat 9 b.free]
        free := b.free + 1 }

/-- `k` merges. `n` leaves take exactly `n - 1` (R134; log 14). -/
def mergeTimes : Nat → Builder → Builder
  | 0, b => b
  | k + 1, b => mergeTimes k (mergeLeast b)

/-- NODE and TREE as BUILD computes them from the counts (R130). -/
def buildTree (freq : Symbol → Count) : Except CmdError (Memory Node × TreeReg) :=
  match seedOrder freq with
  | [] => .error .emptyInput
  | [x] =>
    let leaf := leafNode x (freq x)
    let m := nodePut (nodePut [] 0#9 leaf) 1#9 sentinelNode
    .ok (nodePut m 2#9 (internalNode 0#9 1#9 leaf.weight), { valid := true, root := 2#9 })
  | seeds =>
    let n := seeds.length
    let start : Builder :=
      { nodes := placeLeaves freq [] 0 seeds, queue := (List.range n).map (BitVec.ofNat 9), free := n }
    let b := mergeTimes (n - 1) start
    .ok (b.nodes, { valid := true, root := BitVec.ofNat 9 (b.free - 1) })

/-- BUILD (R130). -/
def execBuild (s : State) : Host.Outcome State Fault Refusal :=
  match buildTree s.freqAt with
  | .ok (m, t) => .next (s.withTree m t).complete
  | .error e => .next (s.raise (some .build) e)

end Sys2Proof.Machine
end

