-- ==== Sys2Proof/Machine/Control.lean ====
section
/-! DEFINITION. NOP, CLRFREQ, CLRTREE, CLRTBL, and the illegal command word (R114 to R118). -/

namespace Sys2Proof.Machine

/-- NOP (R114). -/
def execNop (s : State) : Host.Outcome State Fault Refusal := .next s.complete

/-- CLRFREQ (R116). -/
def execClrfreq (s : State) : Host.Outcome State Fault Refusal := .next s.clearFreq.complete

/-- CLRTREE (R117). -/
def execClrtree (s : State) : Host.Outcome State Fault Refusal := .next s.clearTree.complete

/-- CLRTBL (R118). -/
def execClrtbl (s : State) : Host.Outcome State Fault Refusal := .next s.clearCode.complete

/-- An illegal command word completes with ILLEGAL_CMD and no other effect (R94, R115). -/
def execIllegal (v : Word) (s : State) : Host.Outcome State Fault Refusal := .next (s.raise none (.illegalCmd v))

end Sys2Proof.Machine
end

