-- ==== Sys2Proof/Machine/Gen.lean ====
section
/-! DEFINITION. GEN, the tree-walk code table generator (R150 to R160). -/

namespace Sys2Proof.Machine

/-- What the walk holds, fresh for every GEN: the descents made, whether a sentinel was met, and the table so far
(R41, R152). -/
structure Walk where
  visits : Nat
  sentinelSeen : Bool
  table : Memory CodeEntry
  deriving DecidableEq, Repr

/-- The walk before its first descent: an empty table, no visit, no sentinel (R150, R152). -/
def Walk.fresh : Walk := { visits := 0, sentinelSeen := false, table := [] }

/-- One pass of the loop body of `Walk(x, p)`: the child `c` reached by path `q` (R150). `deeper` walks an INTERNAL child. -/
def walkChild (nodeAt : NodeIdx → Node) (deeper : NodeIdx → List Bool → Walk → Except CmdError Walk)
    (c : NodeIdx) (q : List Bool) (g : Walk) : Except CmdError Walk :=
  if c = Config.nil then .ok g
  else if Config.maxVisits < g.visits + 1 then .error (.treeInvalid c .tooManyVisits)
  else
    match (nodeAt c).kind with
    | .empty => .error (.treeInvalid c .emptyChild)
    | .sentinel =>
      if g.sentinelSeen then .error (.treeInvalid c .secondSentinel)
      else .ok { g with visits := g.visits + 1, sentinelSeen := true }
    | .leaf =>
      if (codeIn g.table (nodeAt c).sym).valid then .error (.treeInvalid c .duplicateSymbol)
      else .ok { g with visits := g.visits + 1, table := codePut g.table (nodeAt c).sym (.ofPath q) }
    | .internal => deeper c q { g with visits := g.visits + 1 }

/-- `Walk(x, p)`, left before right (R150, R152). The first argument is how much deeper a codeword may still grow, 255 less
the depth of `x`: an INTERNAL node reached with nothing left is one at depth 255 (R155; log 13). -/
def walkNode (nodeAt : NodeIdx → Node) : Nat → NodeIdx → List Bool → Walk → Except CmdError Walk
  | 0, x, _, _ => .error (.treeInvalid x .tooDeep)
  | d + 1, x, p, g =>
    match walkChild nodeAt (walkNode nodeAt d) (nodeAt x).left (p ++ [false]) g with
    | .error e => .error e
    | .ok g' => walkChild nodeAt (walkNode nodeAt d) (nodeAt x).right (p ++ [true]) g'

/-- The root a walk or a decoding may start from: a non-NIL index of an INTERNAL node (R151, R191). -/
def rootUsable (nodeAt : NodeIdx → Node) (r : NodeIdx) : Bool := r != Config.nil && (nodeAt r).kind == .internal

/-- CODE as GEN computes it from TREE and NODE (R150). -/
def generateTable (t : TreeReg) (nodeAt : NodeIdx → Node) : Except CmdError (Memory CodeEntry) :=
  if !t.valid then .error .noTree
  else if !rootUsable nodeAt t.root then .error (.treeInvalid t.root .badRoot)
  else
    match walkNode nodeAt Config.maxCodeLen t.root [] .fresh with
    | .ok g => .ok g.table
    | .error e => .error e

/-- GEN (R150). -/
def execGen (s : State) : Host.Outcome State Fault Refusal :=
  match generateTable s.tree s.nodeAt with
  | .ok m => .next (s.withCode m).complete
  | .error e => .next (s.raise (some .gen) e)

end Sys2Proof.Machine
end

