-- ==== Sys2Proof/Machine/Dec.lean ====
section
/-! DEFINITION. DEC, the prefix-tree walker (R190 to R198). -/

namespace Sys2Proof.Machine

/-- The decoder's state: AT_ROOT is `depth = 0`, MID_CODE is `depth >= 1`; `out` holds the symbols completed (R190, R191). -/
structure Cursor where
  cur : NodeIdx
  depth : Nat
  out : List Symbol
  deriving DecidableEq, Repr

/-- Stream bit `k`, of value `b`, consumed (R191, R193). -/
def decodeBit (nodeAt : NodeIdx → Node) (root : NodeIdx) (k : Nat) (b : Bool) (d : Cursor) : Except CmdError Cursor :=
  let c := if b then (nodeAt d.cur).right else (nodeAt d.cur).left
  if c = Config.nil then .error (.invalidStream k d.out.length)
  else
    match (nodeAt c).kind with
    | .empty => .error (.treeInvalid c .emptyChild)
    | .sentinel => .error (.invalidStream k d.out.length)
    | .leaf =>
      if d.out.length = Config.symbufCap then .error (.bufferOverflow k)
      else .ok { cur := root, depth := 0, out := d.out ++ [(nodeAt c).sym] }
    | .internal =>
      if d.depth + 1 = Config.maxCodeLen then .error (.treeInvalid c .tooDeep)
      else .ok { cur := c, depth := d.depth + 1, out := d.out }

/-- The bits from index `k` on, in order (R191). -/
def decodeBits (nodeAt : NodeIdx → Node) (root : NodeIdx) : List Bool → Nat → Cursor → Except CmdError Cursor
  | [], _, d => .ok d
  | b :: bs, k, d =>
    match decodeBit nodeAt root k b d with
    | .ok d' => decodeBits nodeAt root bs (k + 1) d'
    | .error e => .error e

/-- The stream bits `0 .. n-1` (R66). -/
def State.streamBits (s : State) (n : Nat) : List Bool := (List.range n).map s.streamBit

/-- The symbols DEC computes from BIT_LEN, the stream, TREE and NODE (R191, R194, R196). -/
def decodeStream (bitLen : Word) (bits : Nat → List Bool) (t : TreeReg) (nodeAt : NodeIdx → Node) :
    Except CmdError (List Symbol) :=
  if Config.bitbufCap < bitLen.toNat then .error (.lengthInvalid bitLen)
  else if !t.valid then
    if bitLen = 0#32 then .ok [] else .error (.invalidStream 0 0)
  else if !rootUsable nodeAt t.root then .error (.treeInvalid t.root .badRoot)
  else
    match decodeBits nodeAt t.root (bits bitLen.toNat) 0 { cur := t.root, depth := 0, out := [] } with
    | .error e => .error e
    | .ok d => if d.depth = 0 then .ok d.out else .error (.invalidStream bitLen.toNat d.out.length)

/-- DEC (R191). SYMBUF and SYM_LEN are written only when the whole stream decodes (R195). -/
def execDec (s : State) : Host.Outcome State Fault Refusal :=
  match decodeStream s.bitLen s.streamBits s.tree s.nodeAt with
  | .ok out => .next (s.withSymbols (Memory.writeFrom none s.symbuf 0 out) (BitVec.ofNat 32 out.length)).complete
  | .error e => .next (s.raise (some .dec) e)

end Sys2Proof.Machine
end

