-- ==== Sys2Proof/Machine/Enc.lean ====
section
/-! DEFINITION. ENC, the symbol-to-code mapper (R170 to R175). -/

namespace Sys2Proof.Machine

/-- The check pass over the symbols from index `i` on, with `t` bits so far: UNKNOWN_SYMBOL, then TABLE_INVALID, then
BUFFER_OVERFLOW for each symbol; the answer is the total length `T` (R170, R173). -/
def encodeCheck (codeAt : Symbol → CodeEntry) : List Symbol → Nat → Nat → Except CmdError Nat
  | [], _, t => .ok t
  | x :: xs, i, t =>
    if !(codeAt x).valid then .error (.unknownSymbol i x)
    else if (codeAt x).len = 0#8 then .error (.tableInvalid x .zeroLength)
    else if Config.bitbufCap < t + (codeAt x).len.toNat then .error (.bufferOverflow i)
    else encodeCheck codeAt xs (i + 1) (t + (codeAt x).len.toNat)

/-- The codewords of the symbols, concatenated in order (R171). -/
def encodeEmit (codeAt : Symbol → CodeEntry) (xs : List Symbol) : List Bool := xs.flatMap (fun x => (codeAt x).codeword)

/-- The stream ENC computes from SYM_LEN, SYMBUF and CODE (R170). -/
def encodeStream (symLen : Word) (symbols : Nat → List Symbol) (codeAt : Symbol → CodeEntry) :
    Except CmdError (List Bool) :=
  if Config.symbufCap < symLen.toNat then .error (.lengthInvalid symLen)
  else
    match encodeCheck codeAt (symbols symLen.toNat) 0 0 with
    | .ok _ => .ok (encodeEmit codeAt (symbols symLen.toNat))
    | .error e => .error e

/-- ENC (R170). BITBUF is written a word at a time, the last one padded with 0; later words are unchanged (R67, R172;
log 12). -/
def execEnc (s : State) : Host.Outcome State Fault Refusal :=
  match encodeStream s.symLen s.symbols s.codeAt with
  | .ok stream =>
    .next (s.withStream (Memory.writeFrom none s.bitbuf 0 (streamWords stream)) (BitVec.ofNat 32 stream.length)).complete
  | .error e => .next (s.raise (some .enc) e)

end Sys2Proof.Machine
end

