-- ==== Sys2Proof/Machine/TblTree.lean ====
section
/-! DEFINITION. TBLTREE, the tree from a code table (R199 to R204). -/

namespace Sys2Proof.Machine

/-- What TBLTREE holds: NODE so far and the next free index (R200). -/
structure Rebuild where
  nodes : Memory Node
  free : Nat
  deriving DecidableEq, Repr

/-- The INTERNAL node with no child (R200). -/
def hollowNode : Node := internalNode Config.nil Config.nil 0#40

/-- `SetChild(x, b, y)` (R200). -/
def setChild (m : Memory Node) (x : NodeIdx) (b : Bool) (y : NodeIdx) : Memory Node :=
  nodePut m x (if b then { nodeIn m x with right := y } else { nodeIn m x with left := y })

/-- The child of `x` on side `b` (R200). -/
def childOf (m : Memory Node) (x : NodeIdx) (b : Bool) : NodeIdx := if b then (nodeIn m x).right else (nodeIn m x).left

/-- A new node at the next free index, made the child of `cur` on side `b`; no index above 510 is allocated (R200, R202). -/
def growChild (x : Symbol) (cur : NodeIdx) (b : Bool) (n : Node) (t : Rebuild) : Except CmdError Rebuild :=
  if Config.maxNodes ≤ t.free then .error (.tableInvalid x .tooManyNodes)
  else
    .ok { nodes := setChild (nodePut t.nodes (BitVec.ofNat 9 t.free) n) cur b (BitVec.ofNat 9 t.free), free := t.free + 1 }

/-- The codeword bits of symbol `x` inserted from node `cur` on (R200, R201). -/
def insertBits (x : Symbol) : List Bool → NodeIdx → Rebuild → Except CmdError Rebuild
  | [], _, t => .ok t
  | [b], cur, t =>
    if childOf t.nodes cur b ≠ Config.nil then .error (.tableInvalid x .prefixConflict)
    else growChild x cur b (leafNode x 0#32) t
  | b :: bs, cur, t =>
    if childOf t.nodes cur b = Config.nil then
      match growChild x cur b hollowNode t with
      | .ok t' => insertBits x bs (BitVec.ofNat 9 t.free) t'
      | .error e => .error e
    else if (nodeIn t.nodes (childOf t.nodes cur b)).kind = .leaf then .error (.tableInvalid x .prefixConflict)
    else insertBits x bs (childOf t.nodes cur b) t

/-- The entry of symbol `x` inserted from the root; an entry with VALID = 0 is passed over (R200). -/
def insertEntry (x : Symbol) (e : CodeEntry) (t : Rebuild) : Except CmdError Rebuild :=
  if !e.valid then .ok t
  else if e.len = 0#8 then .error (.tableInvalid x .zeroLength)
  else insertBits x e.codeword 0#9 t

/-- The entries of the symbols listed, in order (R200). -/
def insertEntries (codeAt : Symbol → CodeEntry) : List Symbol → Rebuild → Except CmdError Rebuild
  | [], t => .ok t
  | x :: xs, t =>
    match insertEntry x (codeAt x) t with
    | .ok t' => insertEntries codeAt xs t'
    | .error e => .error e

/-- NODE and TREE as TBLTREE computes them from CODE (R200). -/
def rebuildTree (codeAt : Symbol → CodeEntry) : Except CmdError (Memory Node × TreeReg) :=
  if allSymbols.all (fun x => !(codeAt x).valid) then .error .emptyInput
  else
    match insertEntries codeAt allSymbols { nodes := nodePut [] 0#9 hollowNode, free := 1 } with
    | .ok t => .ok (t.nodes, { valid := true, root := 0#9 })
    | .error e => .error e

/-- TBLTREE (R200). -/
def execTbltree (s : State) : Host.Outcome State Fault Refusal :=
  match rebuildTree s.codeAt with
  | .ok (m, t) => .next (s.withTree m t).complete
  | .error e => .next (s.raise (some .tbltree) e)

end Sys2Proof.Machine
end

