-- ==== Sys2Proof/Machine/Map.lean ====
section
/-! DEFINITION. The register map: which register or aperture word a byte offset names, and the value and the storing of
each (R20 to R39, R61, R64). -/

namespace Sys2Proof.Machine

/-- What a word-aligned byte offset of the window names (R20; the register map of 10_state.md). -/
inductive Loc where
  | id
  | param0
  | param1
  | param2
  | ctrl
  | cmd
  | status
  | errPos
  | errAux
  | tree
  | symLen
  | bitLen
  /-- `FREQ[s]` (R31). -/
  | freq (x : Symbol)
  /-- Word `k` of `NODE[i]` (R34). -/
  | node (i : NodeIdx) (k : Fin 4)
  /-- Word `k` of `CODE[s]`; words 9 to 15 are reserved (R36). -/
  | code (x : Symbol) (k : Fin 16)
  /-- `SYMBUF[i]` (R37). -/
  | symbuf (i : Fin 4096)
  /-- `BITBUF[w]` (R39). -/
  | bitbuf (w : Fin 1024)
  /-- A reserved offset outside the apertures (R64). -/
  | reserved (addr : Nat)
  deriving DecidableEq, Repr

/-- The register at word `n` of the window, below offset 0x030 (register map of 10_state.md). -/
def registerAt : Nat → Loc
  | 0 => .id
  | 1 => .param0
  | 2 => .param1
  | 3 => .param2
  | 4 => .ctrl
  | 5 => .cmd
  | 6 => .status
  | 7 => .errPos
  | 8 => .errAux
  | 9 => .tree
  | 10 => .symLen
  | 11 => .bitLen
  | n => .reserved (4 * n)

/-- What the word-aligned byte offset `addr` names (register map of 10_state.md; R31, R34, R36, R37, R39). -/
def locOf (addr : Nat) : Loc :=
  if addr < 0x00030 then registerAt (addr / 4)
  else if addr < 0x01000 then .reserved addr
  else if addr < 0x01400 then .freq (BitVec.ofNat 8 ((addr - 0x01000) / 4))
  else if addr < 0x04000 then .reserved addr
  else if addr < 0x06000 then .node (BitVec.ofNat 9 ((addr - 0x04000) / 16)) (Fin.ofNat 4 (addr / 4))
  else if addr < 0x08000 then .reserved addr
  else if addr < 0x0C000 then .code (BitVec.ofNat 8 ((addr - 0x08000) / 64)) (Fin.ofNat 16 (addr / 4))
  else if addr < 0x10000 then .reserved addr
  else if addr < 0x14000 then .symbuf (Fin.ofNat 4096 ((addr - 0x10000) / 4))
  else if addr < 0x18000 then .reserved addr
  else if addr < 0x19000 then .bitbuf (Fin.ofNat 1024 ((addr - 0x18000) / 4))
  else .reserved addr

/-- The byte offset of each register and aperture word (register map of 10_state.md; R95). -/
def Loc.offset : Loc → Nat
  | .id => 0x000
  | .param0 => 0x004
  | .param1 => 0x008
  | .param2 => 0x00C
  | .ctrl => 0x010
  | .cmd => 0x014
  | .status => 0x018
  | .errPos => 0x01C
  | .errAux => 0x020
  | .tree => 0x024
  | .symLen => 0x028
  | .bitLen => 0x02C
  | .freq x => 0x01000 + 4 * x.toNat
  | .node i k => 0x04000 + 16 * i.toNat + 4 * k.val
  | .code x k => 0x08000 + 64 * x.toNat + 4 * k.val
  | .symbuf i => 0x10000 + 4 * i.val
  | .bitbuf w => 0x18000 + 4 * w.val
  | .reserved addr => addr

/-- ID (R21). -/
def idWord : Word := 0x48554601#32

/-- PARAM0 = `{0, NODE_IDX_BITS, MAX_CODE_LEN, SYM_BITS}` (R22). -/
def param0Word : Word :=
  0#8 ++ BitVec.ofNat 8 Config.nodeIdxBits ++ BitVec.ofNat 8 Config.maxCodeLen ++ BitVec.ofNat 8 Config.symBits

/-- PARAM1 = SYMBUF_CAP (R23). -/
def param1Word : Word := BitVec.ofNat 32 Config.symbufCap

/-- PARAM2 = BITBUF_CAP (R23). -/
def param2Word : Word := BitVec.ofNat 32 Config.bitbufCap

/-- The 2-bit value of a kind (R33). -/
def Kind.bits : Kind → BitVec 2
  | .empty => 0#2
  | .leaf => 1#2
  | .internal => 2#2
  | .sentinel => 3#2

/-- The kind of a 2-bit value (R33). -/
def Kind.ofBits (b : BitVec 2) : Kind :=
  if b = 0#2 then .empty else if b = 1#2 then .leaf else if b = 2#2 then .internal else .sentinel

/-- TREE read: ROOT in `[8:0]`, VALID in `[31]` (R30). -/
def TreeReg.word (t : TreeReg) : Word := BitVec.ofBool t.valid ++ 0#22 ++ t.root

/-- TREE written (R30). -/
def TreeReg.ofWord (v : Word) : TreeReg := { valid := v.getLsbD 31, root := v.extractLsb' 0 9 }

/-- Word `k` of a NODE entry read (R34). -/
def Node.word (n : Node) (k : Fin 4) : Word :=
  match k with
  | 0 => 0#16 ++ n.sym ++ 0#6 ++ n.kind.bits
  | 1 => 0#7 ++ n.right ++ 0#7 ++ n.left
  | 2 => n.weight.extractLsb' 0 32
  | 3 => 0#24 ++ n.weight.extractLsb' 32 8

/-- Word `k` of a NODE entry written: only the named bits change (R34). -/
def Node.withWord (n : Node) (k : Fin 4) (v : Word) : Node :=
  match k with
  | 0 => { n with kind := Kind.ofBits (v.extractLsb' 0 2), sym := v.extractLsb' 8 8 }
  | 1 => { n with left := v.extractLsb' 0 9, right := v.extractLsb' 16 9 }
  | 2 => { n with weight := n.weight.extractLsb' 32 8 ++ v }
  | 3 => { n with weight := v.extractLsb' 0 8 ++ n.weight.extractLsb' 0 32 }

/-- Bits `[32*j+31 : 32*j]` of a 256-bit value replaced by `v`. -/
def putCwWord (cw : BitVec 256) (j : Nat) (v : Word) : BitVec 256 :=
  (cw &&& ~~~((0xFFFFFFFF#32).setWidth 256 <<< (32 * j))) ||| (v.setWidth 256 <<< (32 * j))

/-- Word `k` of a CODE entry read: `{VALID in [0], LEN in [15:8]}`, then CW, then reserved words (R36). -/
def CodeEntry.word (e : CodeEntry) (k : Fin 16) : Word :=
  if k.val = 0 then 0#16 ++ e.len ++ 0#7 ++ BitVec.ofBool e.valid
  else if k.val ≤ 8 then e.cw.extractLsb' (32 * (k.val - 1)) 32
  else 0#32

/-- Word `k` of a CODE entry written; the reserved words ignore it (R36). -/
def CodeEntry.withWord (e : CodeEntry) (k : Fin 16) (v : Word) : CodeEntry :=
  if k.val = 0 then { e with valid := v.getLsbD 0, len := v.extractLsb' 8 8 }
  else if k.val ≤ 8 then { e with cw := putCwWord e.cw (k.val - 1) v }
  else e

/-- The 32-bit value of each register and aperture word (R61, R64). -/
def State.wordAt (s : State) : Loc → Word
  | .id => idWord
  | .param0 => param0Word
  | .param1 => param1Word
  | .param2 => param2Word
  | .ctrl => 0#31 ++ BitVec.ofBool s.irqEn
  | .cmd => 0#32
  | .status => s.statusWord
  | .errPos => s.errPos
  | .errAux => s.errAux
  | .tree => s.tree.word
  | .symLen => s.symLen
  | .bitLen => s.bitLen
  | .freq x => s.freqAt x
  | .node i k => (s.nodeAt i).word k
  | .code x k => (s.codeAt x).word k
  | .symbuf i => 0#24 ++ s.symbufAt i.val
  | .bitbuf w => s.bitbufAt w.val
  | .reserved _ => 0#32

/-- What storing `v` in each register and aperture word does while the engine is IDLE (R61, R64): CMD accepts a command
(R110), STATUS clears (R26), RO and reserved words ignore the write. -/
def State.storeWord (s : State) (v : Word) : Loc → State
  | .id => s
  | .param0 => s
  | .param1 => s
  | .param2 => s
  | .ctrl => { s with irqEn := v.getLsbD 0 }
  | .cmd => s.accept v
  | .status => s.writeStatus v
  | .errPos => s
  | .errAux => s
  | .tree => { s with tree := .ofWord v }
  | .symLen => { s with symLen := v }
  | .bitLen => { s with bitLen := v }
  | .freq x => { s with freq := Memory.write (some 0#32) s.freq x.toNat v }
  | .node i k => { s with node := nodePut s.node i ((s.nodeAt i).withWord k v) }
  | .code x k => { s with code := codePut s.code x ((s.codeAt x).withWord k v) }
  | .symbuf i => { s with symbuf := Memory.write none s.symbuf i.val (v.extractLsb' 0 8) }
  | .bitbuf w => { s with bitbuf := Memory.write none s.bitbuf w.val v }
  | .reserved _ => s

/-- The words a host write stores into: RW registers and aperture words (register map of 10_state.md). CMD and STATUS are
written for their side effects (R65); the others ignore a write (R64). -/
def Loc.stores : Loc → Bool
  | .id => false
  | .param0 => false
  | .param1 => false
  | .param2 => false
  | .ctrl => true
  | .cmd => false
  | .status => false
  | .errPos => false
  | .errAux => false
  | .tree => true
  | .symLen => true
  | .bitLen => true
  | .freq _ => true
  | .node _ _ => true
  | .code _ _ => true
  | .symbuf _ => true
  | .bitbuf _ => true
  | .reserved _ => false

/-- The bits of a stored word that are not reserved (R24, R30, R32, R31, R34, R36, R37, R39). -/
def Loc.namedBits : Loc → Word
  | .ctrl => 0x00000001#32
  | .tree => 0x800001FF#32
  | .symLen => 0xFFFFFFFF#32
  | .bitLen => 0xFFFFFFFF#32
  | .freq _ => 0xFFFFFFFF#32
  | .node _ k =>
    match k with
    | 0 => 0x0000FF03#32
    | 1 => 0x01FF01FF#32
    | 2 => 0xFFFFFFFF#32
    | 3 => 0x000000FF#32
  | .code _ k => if k.val = 0 then 0x0000FF01#32 else if k.val ≤ 8 then 0xFFFFFFFF#32 else 0#32
  | .symbuf _ => 0x000000FF#32
  | .bitbuf _ => 0xFFFFFFFF#32
  | _ => 0#32

/-- Byte `a` of the window, where a platform shows a word as four bytes, least significant first (R68). The model's read of
one byte, for saying what an instruction leaves unchanged. -/
def State.windowByte (s : State) (a : Nat) : Byte := (s.wordAt (locOf (4 * (a / 4)))).extractLsb' (8 * (a % 4)) 8

end Sys2Proof.Machine
end

