-- ==== Sys2Proof/Machine/HostAccess.lean ====
section
/-! DEFINITION. The host's two operations, MemRead and MemWrite (R60 to R65), while IDLE and while BUSY (R69). -/

namespace Sys2Proof.Machine

/-- Why a host access is not admitted: during reset (R261), of another width or misaligned (R62), outside the window (R63);
`none` when it is admitted (log 19). -/
def accessRefusal (s : State) (addr size : Nat) : Option Refusal :=
  if s.resetHeld ≠ 0 then some (.accessDuringReset addr)
  else if !WellFormed.accessSize size then some (.accessWidth addr size)
  else if !WellFormed.accessAligned addr then some (.accessMisaligned addr)
  else if !WellFormed.accessInWindow addr then some (.accessOutsideWindow addr)
  else none

/-- The words whose reads return their current value while BUSY (R69 a). -/
def readableBusy : Loc → Bool
  | .id => true
  | .param0 => true
  | .param1 => true
  | .param2 => true
  | .ctrl => true
  | .status => true
  | _ => false

/-- A reserved offset outside the apertures reads 0 whatever the engine does (R64; log 6). -/
def isReserved : Loc → Bool
  | .reserved _ => true
  | _ => false

/-- The words whose writes act while BUSY as while IDLE (R69 c). -/
def writableBusy : Loc → Bool
  | .ctrl => true
  | .status => true
  | _ => false

/-- A value returned to the host, recorded (log 5). -/
def State.reply (addr : Nat) (v : Word) (s : State) : State := { s with replies := { addr := addr, value := v } :: s.replies }

/-- A free value drawn and returned to the host (R69 b; log 2). -/
def State.replyAny (addr : Nat) (s : State) : State :=
  { s.reply addr (Config.busyReadValue s.draws) with draws := s.draws + 1 }

/-- An admitted read of the word `l` at offset `addr` (R61, R65, R69 a, b). -/
def readLoc (addr : Nat) (l : Loc) (s : State) : State :=
  if s.busy && !readableBusy l && !isReserved l then s.replyAny addr else s.reply addr (s.wordAt l)

/-- An admitted write of `v` to the word `l`: while BUSY it is dropped and sets OVERRUN, but for CTRL and STATUS
(R61, R69 c, d, e, R111). -/
def writeLoc (l : Loc) (v : Word) (s : State) : State :=
  if s.busy && !writableBusy l then { s with overrun := true } else s.storeWord v l

/-- `MemRead(addr, size)` (R61). -/
def hostRead (addr size : Nat) (s : State) : Host.Outcome State Fault Refusal :=
  match accessRefusal s addr size with
  | some r => .refused r
  | none => .next (readLoc addr (locOf addr) s)

/-- `MemWrite(addr, size, v)` (R61). -/
def hostWrite (addr size : Nat) (v : Word) (s : State) : Host.Outcome State Fault Refusal :=
  match accessRefusal s addr size with
  | some r => .refused r
  | none => .next (writeLoc (locOf addr) v s)

end Sys2Proof.Machine
end

