-- ==== Sys2Proof/Machine/Engine.lean ====
section
/-! DEFINITION. Whose turn it is, and what a turn does (R7, R8, R112). -/

namespace Sys2Proof.Machine

/-- The engine's turn: while BUSY the whole accepted command is performed (R112); while IDLE the block holds its state and
does nothing (R256). -/
def engineTurn (s : State) : Host.Outcome State Fault Refusal :=
  match s.engine with
  | .idle => .next s
  | .busy v =>
    match decode v with
    | .ok i => exec i s
    | .error _ => execIllegal v s

/-- What one entry of the schedule does (log 1). -/
def perform (i : Input) (s : State) : Host.Outcome State Fault Refusal :=
  match i with
  | .read addr size => hostRead addr size s
  | .write addr size v => hostWrite addr size v s
  | .engine => engineTurn s
  | .resetCycle => .next s.holdReset
  | .resetEnd => releaseReset s

/-- The next step: the oldest entry of the schedule is spent and performed; with none left the engine has the turn, so that
an accepted command completes (R8; log 1). -/
def nextTurn (s : State) : Host.Outcome State Fault Refusal :=
  match s.inputs with
  | [] => engineTurn s
  | i :: rest => perform i (s.withInputs rest)

/-- The command word `v` accepted and the engine given the next turn (log 8). -/
def State.withCommand (v : Word) (s : State) : State := (s.accept v).withInputs (.engine :: s.inputs)

end Sys2Proof.Machine
end

