-- ==== Sys2Proof/Machine/Step.lean ====
section
/-! DEFINITION. One step of the machine, and where it finds the next command. -/

namespace Sys2Proof.Machine

/-- One step (R7, R8; log 1). -/
def step (s : State) : Host.Outcome State Fault Refusal := nextTurn s

/-- The state whose next step performs the command word `w`, numbered as the opcode table numbers it. The block fetches no
instruction (R75): a command comes to the engine because the host's write of it to CMD is accepted (R110), which is what
this does, and the engine is given the next turn (log 8). -/
def State.withFetchWord (s : State) (nbits w : Nat) : State := s.withCommand (tableWord nbits w)

end Sys2Proof.Machine
end

