-- ==== Sys2Proof/Safety.lean ====
section
/-! DEFINITION. What a well-kept state is, and the notions of trees, code tables and output bytes that claims speak of. -/

namespace Sys2Proof.Machine

/-! The invariant. -/

/-- Every internal memory is in its canonical form, below its capacity (log 9). -/
def State.memoriesWf (s : State) : Bool :=
  Memory.wf Config.nsym (some 0#32) s.freq && Memory.wf Config.nodeCap (some Node.blank) s.node
    && Memory.wf Config.nsym (some CodeEntry.blank) s.code && Memory.wf Config.symbufCap none s.symbuf
    && Memory.wf Config.bitbufWords none s.bitbuf

/-- While a command is BUSY the registers are as its acceptance left them: DONE 0, ERRCODE 0, ERR_POS and ERR_AUX 0,
LASTOP the low byte of the word (R27, R29). -/
def State.busyKept (s : State) : Prop :=
  ∀ v, s.engine = .busy v →
    s.done = false ∧ s.errcode = .ok ∧ s.errPos = 0#32 ∧ s.errAux = 0#32 ∧ s.lastop = v.extractLsb' 0 8

/-- ERR_POS and ERR_AUX are 0 unless the last command failed (R29). -/
def State.errorKept (s : State) : Prop := s.errcode = .ok → s.errPos = 0#32 ∧ s.errAux = 0#32

/-- While reset is held the engine is IDLE (R260, R261). -/
def State.resetKept (s : State) : Prop := s.resetHeld ≠ 0 → s.engine = .idle

/-- What every step keeps. -/
def State.Inv (s : State) : Prop := s.memoriesWf = true ∧ s.busyKept ∧ s.errorKept ∧ s.resetKept

/-! Trees in NODE. -/

/-- The child on side `b`: left on 0, right on 1 (R13). -/
def childAt (nodeAt : NodeIdx → Node) (x : NodeIdx) (b : Bool) : NodeIdx :=
  if b then (nodeAt x).right else (nodeAt x).left

/-- The bits `q` lead from node `x`, through INTERNAL nodes, to the node `c` (R13, R192). -/
def IsPath (nodeAt : NodeIdx → Node) : NodeIdx → List Bool → NodeIdx → Prop
  | x, [], c => c = x
  | x, b :: q, c =>
    (nodeAt x).kind = .internal ∧ childAt nodeAt x b ≠ Config.nil ∧ IsPath nodeAt (childAt nodeAt x b) q c

/-- The bits `q`, not empty, lead from node `r` to a LEAF of symbol `x` (R153). -/
def IsCodePath (nodeAt : NodeIdx → Node) (r : NodeIdx) (q : List Bool) (x : Symbol) : Prop :=
  q ≠ [] ∧ ∃ c, IsPath nodeAt r q c ∧ (nodeAt c).kind = .leaf ∧ (nodeAt c).sym = x

/-- A code tree on its own, apart from the memory that holds one (R12). -/
inductive CodeTree where
  /-- No child. -/
  | absent
  | sentinel
  | leaf (x : Symbol)
  | node (l r : CodeTree)
  deriving DecidableEq, Repr

/-- The nodes of NODE from index `c` on hold the tree (R33). -/
def Holds (nodeAt : NodeIdx → Node) : NodeIdx → CodeTree → Prop
  | c, .absent => c = Config.nil
  | c, .sentinel => c ≠ Config.nil ∧ (nodeAt c).kind = .sentinel
  | c, .leaf x => c ≠ Config.nil ∧ (nodeAt c).kind = .leaf ∧ (nodeAt c).sym = x
  | c, .node l r =>
    c ≠ Config.nil ∧ (nodeAt c).kind = .internal ∧ Holds nodeAt (nodeAt c).left l ∧ Holds nodeAt (nodeAt c).right r

/-- The symbols of the leaves with their paths, left before right (R150, R152). -/
def CodeTree.codes : CodeTree → List (Symbol × List Bool)
  | .absent => []
  | .sentinel => []
  | .leaf x => [(x, [])]
  | .node l r => l.codes.map (fun c => (c.1, false :: c.2)) ++ r.codes.map (fun c => (c.1, true :: c.2))

/-- The number of nodes. -/
def CodeTree.size : CodeTree → Nat
  | .absent => 0
  | .sentinel => 1
  | .leaf _ => 1
  | .node l r => 1 + l.size + r.size

/-- The depth of the deepest leaf. -/
def CodeTree.height : CodeTree → Nat
  | .absent => 0
  | .sentinel => 0
  | .leaf _ => 0
  | .node l r => 1 + max l.height r.height

/-- The number of sentinels. -/
def CodeTree.sentinels : CodeTree → Nat
  | .absent => 0
  | .sentinel => 1
  | .leaf _ => 0
  | .node l r => l.sentinels + r.sentinels

/-- An INTERNAL root with two children everywhere below it, as the source's strict binary tree (R43): no child is absent. -/
def CodeTree.strict : CodeTree → Prop
  | .absent => False
  | .sentinel => True
  | .leaf _ => True
  | .node l r => l.strict ∧ r.strict

/-- A tree the generator accepts: an INTERNAL root, at most 510 descents, no INTERNAL node at depth 255, no symbol on two
leaves, at most one sentinel (R150 to R157). -/
def CodeTree.acceptable : CodeTree → Prop
  | .node l r =>
    (CodeTree.node l r).size ≤ Config.maxNodes ∧ (CodeTree.node l r).height ≤ Config.maxCodeLen
      ∧ ((CodeTree.node l r).codes.map Prod.fst).Nodup ∧ (CodeTree.node l r).sentinels ≤ 1
  | .absent => False
  | .sentinel => False
  | .leaf _ => False

/-- TREE names a root from which NODE holds the tree (R30). -/
def State.holdsTree (s : State) (t : CodeTree) : Prop := s.tree.valid = true ∧ Holds s.nodeAt s.tree.root t

/-! GEN's walk. -/

/-- A descent of the walk into a child that is not NIL: the child, and the path to it (R150, R156). -/
structure Descent where
  child : NodeIdx
  path : List Bool
  deriving DecidableEq, Repr

/-- The descents from the child `c`, reached by path `q`, on: none for NIL; else `c` itself, then, for an INTERNAL node, those
below it, which `deeper` lists (R150, R158). -/
def descentsAt (nodeAt : NodeIdx → Node) (deeper : NodeIdx → List Bool → List Descent) (c : NodeIdx) (q : List Bool) :
    List Descent :=
  if c = Config.nil then []
  else { child := c, path := q } :: (if (nodeAt c).kind = .internal then deeper c q else [])

/-- The descents of a walk of at most `d` levels below `x`, left before right, as if none were at fault (R152). -/
def descents (nodeAt : NodeIdx → Node) : Nat → NodeIdx → List Bool → List Descent
  | 0, _, _ => []
  | d + 1, x, p =>
    descentsAt nodeAt (descents nodeAt d) (nodeAt x).left (p ++ [false])
      ++ descentsAt nodeAt (descents nodeAt d) (nodeAt x).right (p ++ [true])

/-- The descent `e`, with `before` made before it, is not at fault (R150, R154 to R157). -/
def quietDescent (nodeAt : NodeIdx → Node) (before : List Descent) (e : Descent) : Bool :=
  decide (before.length < Config.maxVisits) &&
    match (nodeAt e.child).kind with
    | .empty => false
    | .sentinel => before.all (fun a => (nodeAt a.child).kind != .sentinel)
    | .leaf => before.all (fun a => (nodeAt a.child).kind != .leaf || (nodeAt a.child).sym != (nodeAt e.child).sym)
    | .internal => decide (e.path.length < Config.maxCodeLen)

/-- None of the descents listed, made in order after `before`, is at fault. -/
def quietDescents (nodeAt : NodeIdx → Node) : List Descent → List Descent → Bool
  | _, [] => true
  | before, e :: es => quietDescent nodeAt before e && quietDescents nodeAt (before ++ [e]) es

/-! Errors. -/

/-- The same ERRCODE and, where there is an error, the same ERR_POS and ERR_AUX (R112, R221). -/
def SameError (t t' : State) : Prop :=
  t.errcode = t'.errcode ∧ (t.errcode ≠ .ok → t.errPos = t'.errPos ∧ t.errAux = t'.errAux)

/-! Counts. -/

/-- The symbols with a non-zero count, ascending by value (R31). -/
def liveSymbols (freq : Symbol → Count) : List Symbol := allSymbols.filter (fun x => freq x != 0#32)

/-- The sum of all counts (R139). -/
def countSum (freq : Symbol → Count) : Nat := (allSymbols.map (fun x => (freq x).toNat)).sum

/-- In BUILD's tree of `n` leaves, node `i` is in the queue when node `k` is made: it is made before `k` and is no child of
a node made before `k` (R130). -/
def Queued (nodeAt : NodeIdx → Node) (n k i : Nat) : Prop :=
  i < k ∧ ∀ j, n ≤ j → j < k →
    (nodeAt (BitVec.ofNat 9 j)).left.toNat ≠ i ∧ (nodeAt (BitVec.ofNat 9 j)).right.toNat ≠ i

/-- Node `a` comes out of the queue before node `b`: the pair (WEIGHT, index) is less (R132). -/
def ComesBefore (nodeAt : NodeIdx → Node) (a b : Nat) : Prop :=
  (nodeAt (BitVec.ofNat 9 a)).weight.toNat < (nodeAt (BitVec.ofNat 9 b)).weight.toNat
    ∨ ((nodeAt (BitVec.ofNat 9 a)).weight = (nodeAt (BitVec.ofNat 9 b)).weight ∧ a < b)

/-! Code tables. -/

/-- No codeword of a usable entry is a prefix of another's (R14). -/
def PrefixFree (codeAt : Symbol → CodeEntry) : Prop :=
  ∀ x y, (codeAt x).usable = true → (codeAt y).usable = true → x ≠ y →
    ¬ (codeAt x).codeword <+: (codeAt y).codeword

/-- The distinct prefixes of the codewords of the valid entries, the empty one among them: the nodes of the tree TBLTREE
rebuilds (R200, R202). -/
def tablePrefixes (codeAt : Symbol → CodeEntry) : List (List Bool) :=
  ((allSymbols.filter (fun x => (codeAt x).valid)).flatMap (fun x => (codeAt x).codeword.inits)).dedup

/-- A table TBLTREE has no fault to find in: no valid entry of length 0, no codeword a prefix of another's, and at most 511
nodes to its tree (R200 to R202). -/
def FitsTree (codeAt : Symbol → CodeEntry) : Prop :=
  (∀ x, (codeAt x).valid = true → (codeAt x).len ≠ 0#8) ∧ PrefixFree codeAt ∧ (tablePrefixes codeAt).length ≤ 511

/-- The entries of the symbols below `n`, the others all zero: what TBLTREE has inserted when it comes to symbol `n` (R200). -/
def entriesBelow (codeAt : Symbol → CodeEntry) (n : Nat) (x : Symbol) : CodeEntry :=
  if x.toNat < n then codeAt x else .blank

/-- The symbol whose codeword is exactly these bits, if any. -/
def matchCode (codeAt : Symbol → CodeEntry) (q : List Bool) : Option Symbol :=
  allSymbols.find? (fun x => (codeAt x).usable && (codeAt x).codeword == q)

/-- The source's other formulation of decoding: the buffer `q` grows bit by bit, and is emptied when it equals a codeword; it
must be empty at the end (R197). -/
def greedyDecode (codeAt : Symbol → CodeEntry) : List Bool → List Bool → Option (List Symbol)
  | q, [] => if q = [] then some [] else none
  | q, b :: bs =>
    match matchCode codeAt (q ++ [b]) with
    | some x => (greedyDecode codeAt [] bs).map (x :: ·)
    | none => greedyDecode codeAt (q ++ [b]) bs

/-! The schedule. -/

/-- An entry of the schedule that is the engine's turn or a host access that has a meaning (R60, R62): no reset. -/
def Input.ordinary : Input → Bool
  | .read addr size => WellFormed.access addr size
  | .write addr size _ => WellFormed.access addr size
  | .engine => true
  | .resetCycle => false
  | .resetEnd => false

/-! Bytes a command stores to. -/

/-- The bytes of the window, below `hi` and not below `lo`, that a command's stores to the memories lie in; none for
`(0, 0)`. Addresses of what ENC and DEC store are computed with the functions their meanings use (R93, R230). -/
def storedBytes (i : Instr) (s : State) : Nat × Nat :=
  match i with
  | .nop => (0, 0)
  | .clrfreq => (0x01000, 0x01400)
  | .clrtree => (0x04000, 0x06000)
  | .clrtbl => (0x08000, 0x0C000)
  | .build => (0x04000, 0x06000)
  | .gen => (0x08000, 0x0C000)
  | .enc =>
    match encodeStream s.symLen s.symbols s.codeAt with
    | .ok stream => (0x18000, 0x18000 + 4 * (streamWords stream).length)
    | .error _ => (0, 0)
  | .dec =>
    match decodeStream s.bitLen s.streamBits s.tree s.nodeAt with
    | .ok out => (0x10000, 0x10000 + 4 * out.length)
    | .error _ => (0, 0)
  | .tbltree => (0x04000, 0x06000)

end Sys2Proof.Machine
end

