-- ==== Sys2Proof/Certificates/Slice0/Obligations.lean ====
section
/-! DEFINITION. The statements for the provers. -/

open Sys2Proof Sys2Proof.Machine

/-! ## Encoding -/

/-- R92: the nine words of the opcode map, each written out, decode to the nine commands. -/
def Obligations.NineWordsDecode : Prop :=
  decode 0x00000000#32 = .ok .nop ∧ decode 0x00000001#32 = .ok .clrfreq ∧ decode 0x00000002#32 = .ok .clrtree ∧
  decode 0x00000003#32 = .ok .clrtbl ∧ decode 0x00000010#32 = .ok .build ∧ decode 0x00000020#32 = .ok .gen ∧
  decode 0x00000030#32 = .ok .enc ∧ decode 0x00000040#32 = .ok .dec ∧ decode 0x00000050#32 = .ok .tbltree

/-- R90, R92, R94: a word decodes to a command exactly when it is that command's encoding, so no other word is legal; and
from bytes, exactly one word is read and the rest is left. -/
def Obligations.DecodeInvertsEncode : Prop :=
  (∀ (w : Word) (i : Instr), decode w = .ok i ↔ w = encode i) ∧
  (∀ (i : Instr) (rest : List Byte), decodeBytes (wordBytes (encode i) ++ rest) = .ok (i, rest))

/-- The register map of 10_state.md: every word-aligned offset of the window names one register, aperture word or reserved
word, whose offset it is; every register and aperture word is named by its own offset; and which offset names which is
written out (R21 to R32 for the registers, R31, R34, R36, R37, R39 for the apertures). -/
def Obligations.RegisterMapRoundTrip : Prop :=
  (∀ addr, addr % 4 = 0 → addr < 0x20000 → (locOf addr).offset = addr) ∧
  (∀ l : Loc, (∀ a, l ≠ .reserved a) → locOf l.offset = l ∧ WellFormed.access l.offset 4 = true) ∧
  (locOf 0x000 = .id ∧ locOf 0x004 = .param0 ∧ locOf 0x008 = .param1 ∧ locOf 0x00C = .param2 ∧ locOf 0x010 = .ctrl ∧
    locOf 0x014 = .cmd ∧ locOf 0x018 = .status ∧ locOf 0x01C = .errPos ∧ locOf 0x020 = .errAux ∧ locOf 0x024 = .tree ∧
    locOf 0x028 = .symLen ∧ locOf 0x02C = .bitLen) ∧
  (∀ x : Symbol, locOf (0x01000 + 4 * x.toNat) = .freq x) ∧
  (∀ (i : NodeIdx) (k : Fin 4), locOf (0x04000 + 16 * i.toNat + 4 * k.val) = .node i k) ∧
  (∀ (x : Symbol) (k : Fin 16), locOf (0x08000 + 64 * x.toNat + 4 * k.val) = .code x k) ∧
  (∀ i : Fin 4096, locOf (0x10000 + 4 * i.val) = .symbuf i) ∧
  (∀ w : Fin 1024, locOf (0x18000 + 4 * w.val) = .bitbuf w)

/-! ## The life of a command -/

/-- R112: when the engine has the turn, by the schedule or because the schedule is empty, the step is `exec` of the command
the accepted word decodes to. The fetch word set by `withFetchWord` is performed by the very next step (log 1, log 8). -/
def Obligations.StepPerformsAcceptedCommand : Prop :=
  (∀ (s : State) (v : Word) (i : Instr) (rest : List Input), s.engine = .busy v → decode v = .ok i →
    s.inputs = .engine :: rest → step s = exec i (s.withInputs rest)) ∧
  (∀ (s : State) (v : Word) (i : Instr), s.engine = .busy v → decode v = .ok i → s.inputs = [] → step s = exec i s) ∧
  (∀ (s : State) (v : Word) (i : Instr), decode v = .ok i → step (s.withFetchWord 32 v.toNat) = exec i (s.accept v))

/-- R94, R115: an illegal word completes with ILLEGAL_CMD, ERR_POS the word, ERR_AUX 0, and changes nothing else, whether
the engine has the turn by the schedule or because the schedule is empty (the schedule is the model's choice, log 1). -/
def Obligations.StepFailsIllegalWord : Prop :=
  ∀ (s : State) (v : Word), s.engine = .busy v → (∀ i, v ≠ encode i) →
    (s.inputs = [] →
      step s = .next { s with engine := .idle, done := true, errcode := .illegalCmd, errPos := v, errAux := 0#32 }) ∧
    (∀ rest, s.inputs = .engine :: rest →
      step s = .next { s with engine := .idle, done := true, errcode := .illegalCmd, errPos := v, errAux := 0#32,
                              inputs := rest })

/-- R110: a write to CMD while IDLE accepts the word, and nothing else changes (the entry of the schedule is spent, log 1). -/
def Obligations.CmdWriteAcceptsWhileIdle : Prop :=
  ∀ (s : State) (v : Word) (rest : List Input), s.engine = .idle → s.resetHeld = 0 → s.inputs = .write 0x014 4 v :: rest →
    step s = .next { s with engine := .busy v, done := false, errcode := .ok, lastop := v.extractLsb' 0 8, errPos := 0#32,
                            errAux := 0#32, inputs := rest }

/-- R112: every command, from every state, ends in a next state with the engine IDLE and DONE set. -/
def Obligations.EveryCommandCompletes : Prop :=
  ∀ (i : Instr) (s : State), ∃ t, exec i s = .next t ∧ t.engine = .idle ∧ t.done = true

/-- R8: an accepted command completes once the schedule, of ordinary entries only, has been gone through (log 1). -/
def Obligations.BusyCommandCompletesInTime : Prop :=
  ∀ (s : State) (v : Word), s.engine = .busy v → s.resetHeld = 0 → (∀ i ∈ s.inputs, i.ordinary = true) →
    ∃ k t, k ≤ s.inputs.length + 1 ∧ Host.Core.run Sys2Proof.core k s = .next t ∧ t.engine = .idle ∧ t.done = true

/-- R256: while IDLE, with nothing scheduled, the block holds its state and does nothing. -/
def Obligations.IdleHoldsState : Prop :=
  ∀ s : State, s.engine = .idle → s.inputs = [] → step s = .next s

/-- R27: ERRCODE changes only when a command is accepted, when one completes, or by reset. -/
def Obligations.ErrcodeChangesOnlyByCommands : Prop :=
  ∀ s t : State, step s = .next t → t.errcode ≠ s.errcode →
    (s.engine = .idle ∧ ∃ v rest, s.inputs = .write 0x014 4 v :: rest ∧ t.engine = .busy v ∧ t.errcode = .ok) ∨
    ((∃ v, s.engine = .busy v) ∧ t.engine = .idle ∧ t.done = true) ∨
    (∃ rest, s.inputs = .resetCycle :: rest ∧ t.errcode = .ok)

/-- R62, R63, R261: a step is refused exactly for a host access of another width, misaligned, outside the window or during
reset, or a reset released before RESET_HOLD_CYCLES (log 4, log 19). -/
def Obligations.RefusedStepsAreOutsideTheSpec : Prop :=
  ∀ s : State, (∃ r, step s = .refused r) ↔
    (∃ addr size rest, s.inputs = .read addr size :: rest ∧
      (s.resetHeld ≠ 0 ∨ size ≠ 4 ∨ addr % 4 ≠ 0 ∨ 0x20000 ≤ addr)) ∨
    (∃ addr size v rest, s.inputs = .write addr size v :: rest ∧
      (s.resetHeld ≠ 0 ∨ size ≠ 4 ∨ addr % 4 ≠ 0 ∨ 0x20000 ≤ addr)) ∨
    (∃ rest, s.inputs = .resetEnd :: rest ∧ s.resetHeld ≠ 0 ∧ s.resetHeld < Config.resetHoldCycles)

/-! ## Host accesses -/

/-- R65: an admitted read changes nothing but the model's own record of it (the schedule, the replies, the free values
drawn: log 1, log 2, log 5). -/
def Obligations.HostReadHasNoSideEffect : Prop :=
  ∀ (s : State) (addr : Nat) (rest : List Input), s.inputs = .read addr 4 :: rest → s.resetHeld = 0 → addr % 4 = 0 →
    addr < 0x20000 →
    ∃ v d, step s = .next { s with inputs := rest, replies := { addr := addr, value := v } :: s.replies, draws := d }

/-- R61, R69 (a): a read while IDLE returns the word's value; so does one of ID, PARAM0 to PARAM2, CTRL and STATUS while
BUSY. R64: a read of a reserved offset returns 0 (that it does so while BUSY too is the model's reading, log 6). -/
def Obligations.HostReadReturnsWord : Prop :=
  (∀ (s : State) (l : Loc) (rest : List Input), s.inputs = .read l.offset 4 :: rest → s.resetHeld = 0 →
    (∀ a, l ≠ .reserved a) → (s.engine = .idle ∨ readableBusy l = true) →
    step s = .next { s with inputs := rest, replies := { addr := l.offset, value := s.wordAt l } :: s.replies }) ∧
  (∀ (s : State) (addr : Nat) (rest : List Input), s.inputs = .read addr 4 :: rest → s.resetHeld = 0 → addr % 4 = 0 →
    addr < 0x20000 → (∃ a, locOf addr = .reserved a) →
    step s = .next { s with inputs := rest, replies := { addr := addr, value := 0#32 } :: s.replies })

/-- R69 (b): a read while BUSY of any other register or aperture word returns a free value, whatever it is, and changes
nothing of the block (the form of the free value is log 2). That this covers CMD and the reserved words 9 to 15 of a CODE
entry, which read 0 while IDLE, is the model's reading (DEDUCED, log 7). -/
def Obligations.BusyReadReturnsFreeValue : Prop :=
  ∀ (s : State) (c : Word) (l : Loc) (rest : List Input), s.inputs = .read l.offset 4 :: rest → s.resetHeld = 0 →
    (∀ a, l ≠ .reserved a) → s.engine = .busy c → readableBusy l = false →
    step s = .next { s with
      inputs := rest
      replies := { addr := l.offset, value := Config.busyReadValue s.draws } :: s.replies
      draws := s.draws + 1 }

/-- R21, R22, R23: what ID, PARAM0, PARAM1 and PARAM2 read, in every state. -/
def Obligations.ConstantRegistersRead : Prop :=
  ∀ s : State, s.wordAt (locOf 0x000) = 0x48554601#32 ∧ s.wordAt (locOf 0x004) = 0x0009FF08#32 ∧
    s.wordAt (locOf 0x008) = 0x00001000#32 ∧ s.wordAt (locOf 0x00C) = 0x00008000#32

/-- R61: a write while IDLE to an RW register or aperture word is an admitted step, after which the word reads the written
bits at the named positions and 0 at the reserved ones, and every other word of the window reads as before. R24, R29 to
R39: which bits of each word are which field, in every state, so that a write sets the fields at the same places; the other
bits read 0. -/
def Obligations.HostWriteStoresOneWord : Prop :=
  (∀ (s : State) (l : Loc) (v : Word) (rest : List Input), s.inputs = .write l.offset 4 v :: rest → s.resetHeld = 0 →
    s.engine = .idle → l.stores = true →
    ∃ t, step s = .next t ∧ t.inputs = rest ∧ t.wordAt l = v &&& l.namedBits ∧
      (∀ l', l' ≠ l → t.wordAt l' = s.wordAt l')) ∧
  (∀ s : State, (s.wordAt .ctrl).getLsbD 0 = s.irqEn ∧ s.wordAt .errPos = s.errPos ∧ s.wordAt .errAux = s.errAux ∧
    (s.wordAt .tree).getLsbD 31 = s.tree.valid ∧ (s.wordAt .tree).extractLsb' 0 9 = s.tree.root ∧
    s.wordAt .symLen = s.symLen ∧ s.wordAt .bitLen = s.bitLen) ∧
  (∀ (s : State) (x : Symbol), s.wordAt (.freq x) = s.freqAt x) ∧
  (∀ (s : State) (i : NodeIdx), let kind := (s.wordAt (.node i 0)).extractLsb' 0 2
    ((s.nodeAt i).kind = .empty ↔ kind = 0#2) ∧ ((s.nodeAt i).kind = .leaf ↔ kind = 1#2) ∧
    ((s.nodeAt i).kind = .internal ↔ kind = 2#2) ∧ ((s.nodeAt i).kind = .sentinel ↔ kind = 3#2) ∧
    (s.wordAt (.node i 0)).extractLsb' 8 8 = (s.nodeAt i).sym ∧
    (s.wordAt (.node i 1)).extractLsb' 0 9 = (s.nodeAt i).left ∧
    (s.wordAt (.node i 1)).extractLsb' 16 9 = (s.nodeAt i).right ∧
    (s.wordAt (.node i 3)).extractLsb' 0 8 ++ s.wordAt (.node i 2) = (s.nodeAt i).weight) ∧
  (∀ (s : State) (x : Symbol), (s.wordAt (.code x 0)).getLsbD 0 = (s.codeAt x).valid ∧
    (s.wordAt (.code x 0)).extractLsb' 8 8 = (s.codeAt x).len ∧
    (∀ j < 256, (s.wordAt (.code x (Fin.ofNat 16 (1 + j / 32)))).getLsbD (j % 32) = (s.codeAt x).cw.getLsbD j)) ∧
  (∀ (s : State) (i : Fin 4096), (s.wordAt (.symbuf i)).extractLsb' 0 8 = s.symbufAt i.val) ∧
  (∀ (s : State) (w : Fin 1024), s.wordAt (.bitbuf w) = s.bitbufAt w.val) ∧
  (∀ (s : State) (l : Loc), l.stores = true → s.wordAt l &&& ~~~l.namedBits = 0#32)

/-- R64: a write while IDLE to an RO register or to a reserved offset is ignored, and a read of a reserved offset or of the
WO register CMD returns 0. -/
def Obligations.ReadOnlyAndReservedIgnoreWrites : Prop :=
  (∀ (s : State) (addr : Nat) (v : Word) (rest : List Input), s.inputs = .write addr 4 v :: rest → s.resetHeld = 0 →
    s.engine = .idle → addr % 4 = 0 → addr < 0x20000 → (locOf addr).stores = false → addr ≠ 0x014 → addr ≠ 0x018 →
    step s = .next { s with inputs := rest }) ∧
  (∀ s : State, s.wordAt .cmd = 0#32 ∧ ∀ a, s.wordAt (.reserved a) = 0#32) ∧
  (∀ addr, addr < 0x20000 → addr % 4 = 0 → 0x030 ≤ addr →
    ((∃ a, locOf addr = .reserved a) ↔
      ¬ ((0x01000 ≤ addr ∧ addr < 0x01400) ∨ (0x04000 ≤ addr ∧ addr < 0x06000) ∨ (0x08000 ≤ addr ∧ addr < 0x0C000) ∨
         (0x10000 ≤ addr ∧ addr < 0x14000) ∨ (0x18000 ≤ addr ∧ addr < 0x19000))))

/-- R111, R69 (d), (e): a write while BUSY to any offset but CTRL and STATUS, CMD included, is dropped: it changes nothing but
OVERRUN, which it sets; the command in progress goes on. -/
def Obligations.BusyWriteDroppedWithOverrun : Prop :=
  ∀ (s : State) (c : Word) (addr : Nat) (v : Word) (rest : List Input), s.inputs = .write addr 4 v :: rest →
    s.resetHeld = 0 → s.engine = .busy c → addr % 4 = 0 → addr < 0x20000 → addr ≠ 0x010 → addr ≠ 0x018 →
    step s = .next { s with overrun := true, inputs := rest }

/-- R24, R26, R69 (c): writes to CTRL and STATUS act alike while IDLE and while BUSY: CTRL takes IRQ_EN; STATUS bit 1 set
clears DONE, bit 3 set clears OVERRUN, and all else is ignored. -/
def Obligations.CtrlAndStatusWritesAct : Prop :=
  ∀ (s : State) (v : Word) (rest : List Input), s.resetHeld = 0 →
    (s.inputs = .write 0x010 4 v :: rest → step s = .next { s with irqEn := v.getLsbD 0, inputs := rest }) ∧
    (s.inputs = .write 0x018 4 v :: rest →
      step s = .next { s with done := s.done && !v.getLsbD 1, overrun := s.overrun && !v.getLsbD 3, inputs := rest })

/-- R26: the fields of the STATUS word, and no others. -/
def Obligations.StatusWordFields : Prop :=
  ∀ s : State, let w := s.wordAt (locOf 0x018)
    w.getLsbD 0 = s.busy ∧ w.getLsbD 1 = s.done ∧ (w.getLsbD 2 = true ↔ s.errcode ≠ .ok) ∧ w.getLsbD 3 = s.overrun ∧
    w.extractLsb' 4 4 = 0#4 ∧ w.extractLsb' 8 8 = s.errcode.number ∧ w.extractLsb' 16 8 = s.lastop ∧
    w.extractLsb' 24 8 = 0#8

/-- R240, R241: `irq` is the level IRQ_EN and DONE; completion of a command, or of an illegal word, raises it when enabled, and a
write of 1 to STATUS bit 1, a write of 0 to CTRL.IRQ_EN and acceptance of a command remove it. -/
def Obligations.IrqFollowsDoneAndEnable : Prop :=
  (∀ s : State, s.irq = (s.irqEn && s.done)) ∧
  (∀ (i : Instr) (s t : State), exec i s = .next t → t.irq = s.irqEn) ∧
  (∀ (v : Word) (s t : State), execIllegal v s = .next t → t.irq = s.irqEn) ∧
  (∀ (s : State) (v : Word), v.getLsbD 1 = true → (s.storeWord v .status).irq = false) ∧
  (∀ (s : State) (v : Word), v.getLsbD 0 = false → (s.storeWord v .ctrl).irq = false) ∧
  (∀ (s : State) (v : Word), v.getLsbD 0 = true → (s.storeWord v .ctrl).irq = s.done) ∧
  (∀ (s : State) (v : Word), (s.storeWord v .cmd).irq = false)

/-! ## Reset -/

/-- R260: the state right after reset, register by register and entry by entry, but for SYMBUF and BITBUF, which are
unspecified. -/
def Obligations.ResetStateIsStated : Prop :=
  State.reset.engine = .idle ∧ State.reset.wordAt .id = 0x48554601#32 ∧ State.reset.wordAt .param0 = 0x0009FF08#32 ∧
  State.reset.wordAt .param1 = 0x00001000#32 ∧ State.reset.wordAt .param2 = 0x00008000#32 ∧ State.reset.wordAt .ctrl = 0#32 ∧ State.reset.wordAt .status = 0#32 ∧
  State.reset.wordAt .errPos = 0#32 ∧ State.reset.wordAt .errAux = 0#32 ∧ State.reset.wordAt .tree = 0#32 ∧
  State.reset.wordAt .symLen = 0#32 ∧ State.reset.wordAt .bitLen = 0#32 ∧ (∀ x, State.reset.freqAt x = 0#32) ∧
  (∀ i, State.reset.nodeAt i = Node.blank) ∧ (∀ x, State.reset.codeAt x = CodeEntry.blank) ∧ State.reset.irq = false

/-- R262: a cycle of reset, whatever the block was doing, abandons the command: every register and entry with a reset value
has it, DONE is 0 and nothing of the command remains. R261: the end of a reset held for RESET_HOLD_CYCLES or more changes
nothing but that it is no longer held. That one cycle already leaves this state, that the cycles are counted, and that the
end of a reset that is not held changes nothing are the model's choices (DESIGN CHOICE, log 4). -/
def Obligations.ResetAbandonsCommand : Prop :=
  (∀ (s : State) (rest : List Input), s.inputs = .resetCycle :: rest →
    ∃ t, step s = .next t ∧ t.inputs = rest ∧ t.resetHeld = s.resetHeld + 1 ∧ t.engine = .idle ∧ t.done = false ∧ t.overrun = false ∧ t.irqEn = false ∧ t.errcode = .ok ∧
      t.lastop = 0#8 ∧ t.errPos = 0#32 ∧ t.errAux = 0#32 ∧ t.tree = TreeReg.zero ∧ t.symLen = 0#32 ∧ t.bitLen = 0#32 ∧
      (∀ x, t.freqAt x = 0#32) ∧ (∀ i, t.nodeAt i = Node.blank) ∧ (∀ x, t.codeAt x = CodeEntry.blank) ∧ t.irq = false) ∧
  (∀ (s : State) (rest : List Input), s.inputs = .resetEnd :: rest →
    (s.resetHeld = 0 ∨ Config.resetHoldCycles ≤ s.resetHeld) → step s = .next { s with inputs := rest, resetHeld := 0 })

/-! ## Control commands -/

/-- R114: NOP completes and does nothing else; so, accepted and performed, it clears ERRCODE, ERR_POS and ERR_AUX. -/
def Obligations.NopOnlyCompletes : Prop :=
  (∀ s : State, exec .nop s = .next { s with engine := .idle, done := true, errcode := .ok }) ∧
  (∀ s : State, exec .nop (s.accept 0x00000000#32) =
    .next { s with engine := .idle, done := true, errcode := .ok, lastop := 0#8, errPos := 0#32, errAux := 0#32 })

/-- R116: CLRFREQ completes with every FREQ entry 0; afterwards BUILD raises EMPTY_INPUT. -/
def Obligations.ClrfreqZeroesCounts : Prop :=
  ∀ s : State, ∃ t, exec .clrfreq s = .next t ∧ (∀ x, t.freqAt x = 0#32) ∧
    t = { s with engine := .idle, done := true, errcode := .ok, freq := t.freq } ∧
    ∃ u, exec .build t = .next u ∧ u.errcode = .emptyInput

/-- R117: CLRTREE completes with every NODE entry EMPTY, all fields 0, and TREE 0; afterwards GEN raises NO_TREE and DEC
behaves as with an empty table. -/
def Obligations.ClrtreeEmptiesTree : Prop :=
  ∀ s : State, ∃ t, exec .clrtree s = .next t ∧ (∀ i, t.nodeAt i = Node.blank) ∧ t.tree = { valid := false, root := 0#9 } ∧
    t = { s with engine := .idle, done := true, errcode := .ok, node := t.node, tree := t.tree } ∧
    (∃ u, exec .gen t = .next u ∧ u.errcode = .noTree) ∧
    (∃ u, exec .dec t = .next u ∧
      (s.bitLen = 0#32 → u.errcode = .ok ∧ u.symLen = 0#32) ∧
      (s.bitLen ≠ 0#32 → s.bitLen.toNat ≤ 32768 → u.errcode = .invalidStream ∧ u.errPos = 0#32 ∧ u.errAux = 0#32))

/-- R118: CLRTBL completes with every CODE entry all zero; afterwards ENC of a non-empty sequence raises UNKNOWN_SYMBOL at
index 0, ENC of an empty one succeeds, and TBLTREE raises EMPTY_INPUT. -/
def Obligations.ClrtblEmptiesTable : Prop :=
  ∀ s : State, ∃ t, exec .clrtbl s = .next t ∧ (∀ x, t.codeAt x = CodeEntry.blank) ∧
    t = { s with engine := .idle, done := true, errcode := .ok, code := t.code } ∧
    (∃ u, exec .enc t = .next u ∧
      (s.symLen = 0#32 → u.errcode = .ok) ∧
      (s.symLen ≠ 0#32 → s.symLen.toNat ≤ 4096 → u.errcode = .unknownSymbol ∧ u.errPos = 0#32)) ∧
    (∃ u, exec .tbltree t = .next u ∧ u.errcode = .emptyInput)

/-! ## BUILD -/

/-- R136: BUILD with every count 0 raises EMPTY_INPUT(0, 0) and leaves NODE all EMPTY and TREE 0. -/
def Obligations.BuildFailsOnNoCounts : Prop :=
  ∀ s : State, (∀ x, s.freqAt x = 0#32) →
    ∃ t, exec .build s = .next t ∧ t.errcode = .emptyInput ∧ t.errPos = 0#32 ∧ t.errAux = 0#32 ∧
      (∀ i, t.nodeAt i = Node.blank) ∧ t.tree = { valid := false, root := 0#9 }

/-- R135: one symbol: its leaf at index 0 is the left child, the sentinel at index 1 the right child, the root at index 2
has the leaf's weight, all other nodes are EMPTY, and the symbol's codeword is `0`. -/
def Obligations.BuildWrapsSingleSymbol : Prop :=
  ∀ (s : State) (x : Symbol), s.freqAt x ≠ 0#32 → (∀ y, y ≠ x → s.freqAt y = 0#32) →
    ∃ t, exec .build s = .next t ∧ t.errcode = .ok ∧ t.tree = { valid := true, root := 2#9 } ∧
      t.nodeAt 0#9 = { kind := .leaf, sym := x, left := 0#9, right := 0#9, weight := (s.freqAt x).setWidth 40 } ∧
      t.nodeAt 1#9 = { kind := .sentinel, sym := 0#8, left := 0#9, right := 0#9, weight := 0#40 } ∧
      t.nodeAt 2#9 =
        { kind := .internal, sym := 0#8, left := 0#9, right := 1#9, weight := (s.freqAt x).setWidth 40 } ∧
      (∀ i : NodeIdx, 3 ≤ i.toNat → t.nodeAt i = Node.blank) ∧
      ∃ u, exec .gen t = .next u ∧ u.errcode = .ok ∧ u.codeAt x = { valid := true, len := 1#8, cw := 0#256 } ∧
        (∀ y, y ≠ x → u.codeAt y = CodeEntry.blank)

/-- R130, R131, R134: with `n >= 2` symbols BUILD completes; the leaves are at `0 .. n-1` in ascending order of the pair
(count, symbol value), each with its count as weight, and every symbol with a non-zero count is on one; the nodes
`n .. 2n-2` are INTERNAL with no NIL child, the root is at `2n-2`, and every node above is EMPTY with all fields 0. -/
def Obligations.BuildLaysOutTree : Prop :=
  ∀ (s : State) (n : Nat), n = (liveSymbols s.freqAt).length → 2 ≤ n →
    ∃ t, exec .build s = .next t ∧ t.errcode = .ok ∧ t.tree = { valid := true, root := BitVec.ofNat 9 (2 * n - 2) } ∧
      (∀ i < n, ∃ x, s.freqAt x ≠ 0#32 ∧
        t.nodeAt (BitVec.ofNat 9 i) =
          { kind := .leaf, sym := x, left := 0#9, right := 0#9, weight := (s.freqAt x).setWidth 40 }) ∧
      (∀ i j, i < j → j < n →
        let x := (t.nodeAt (BitVec.ofNat 9 i)).sym
        let y := (t.nodeAt (BitVec.ofNat 9 j)).sym
        (s.freqAt x).toNat < (s.freqAt y).toNat ∨ (s.freqAt x = s.freqAt y ∧ x.toNat < y.toNat)) ∧
      (∀ x, s.freqAt x ≠ 0#32 → ∃ i < n, (t.nodeAt (BitVec.ofNat 9 i)).sym = x) ∧
      (∀ k, n ≤ k → k ≤ 2 * n - 2 →
        (t.nodeAt (BitVec.ofNat 9 k)).kind = .internal ∧ (t.nodeAt (BitVec.ofNat 9 k)).left ≠ Config.nil ∧
        (t.nodeAt (BitVec.ofNat 9 k)).right ≠ Config.nil) ∧
      (∀ k, 2 * n - 2 < k → k < 512 → t.nodeAt (BitVec.ofNat 9 k) = Node.blank)

/-- R132, R133, R137: the node made at each index has the two nodes that come first out of the queue as its children, the
first as the left one, and its weight is the exact sum of theirs. -/
def Obligations.BuildMergesTwoLeast : Prop :=
  ∀ (s t : State) (n : Nat), n = (liveSymbols s.freqAt).length → 2 ≤ n → exec .build s = .next t →
    ∀ k, n ≤ k → k ≤ 2 * n - 2 →
      let l := (t.nodeAt (BitVec.ofNat 9 k)).left.toNat
      let r := (t.nodeAt (BitVec.ofNat 9 k)).right.toNat
      Queued t.nodeAt n k l ∧ Queued t.nodeAt n k r ∧ l ≠ r ∧
      (∀ i, Queued t.nodeAt n k i → i ≠ l → ComesBefore t.nodeAt l i) ∧
      (∀ i, Queued t.nodeAt n k i → i ≠ l → i ≠ r → ComesBefore t.nodeAt r i) ∧
      (t.nodeAt (BitVec.ofNat 9 k)).weight.toNat =
        (t.nodeAt (BitVec.ofNat 9 l)).weight.toNat + (t.nodeAt (BitVec.ofNat 9 r)).weight.toNat

/-- R43, R139: after BUILD of a table that is not empty, NODE and TREE hold a strict binary tree that the generator accepts;
each symbol with a non-zero count is on exactly one leaf, no other symbol is on any, and the root's weight is the sum of all
counts. -/
def Obligations.BuildWritesStrictTree : Prop :=
  ∀ s : State, (∃ x, s.freqAt x ≠ 0#32) →
    ∃ t T, exec .build s = .next t ∧ t.errcode = .ok ∧ t.holdsTree T ∧ T.strict ∧ T.acceptable ∧
      (T.codes.map Prod.fst).Perm (liveSymbols s.freqAt) ∧ (t.nodeAt t.tree.root).weight.toNat = countSum s.freqAt

/-- R139 (weight correctness): of two symbols, the one with the greater count has a leaf at most as deep. -/
def Obligations.BuildWeightCorrectness : Prop :=
  ∀ (s t : State) (T : CodeTree), exec .build s = .next t → t.errcode = .ok → t.holdsTree T →
    ∀ x p y q, (x, p) ∈ T.codes → (y, q) ∈ T.codes → (s.freqAt y).toNat < (s.freqAt x).toNat → p.length ≤ q.length

/-! ## GEN -/

/-- R150, R151: without a tree GEN raises NO_TREE; with a root that is NIL or not INTERNAL it raises TREE_INVALID(root, 1);
in both cases CODE is left all zero. -/
def Obligations.GenFailsWithoutRoot : Prop :=
  (∀ s : State, s.tree.valid = false →
    ∃ t, exec .gen s = .next t ∧ t.errcode = .noTree ∧ t.errPos = 0#32 ∧ t.errAux = 0#32 ∧
      (∀ x, t.codeAt x = CodeEntry.blank)) ∧
  (∀ s : State, s.tree.valid = true → (s.tree.root = 0x1FF#9 ∨ (s.nodeAt s.tree.root).kind ≠ .internal) →
    ∃ t, exec .gen s = .next t ∧ t.errcode = .treeInvalid ∧ t.errPos = s.tree.root.setWidth 32 ∧ t.errAux = 1#32 ∧
      (∀ x, t.codeAt x = CodeEntry.blank))

/-- R150, R153: on a tree the generator accepts, GEN completes, gives each leaf's symbol the leaf's path as its codeword, and
leaves every other entry all zero. -/
def Obligations.GenWritesLeafPaths : Prop :=
  ∀ (s : State) (T : CodeTree), s.holdsTree T → T.acceptable →
    ∃ t, exec .gen s = .next t ∧ t.errcode = .ok ∧
      (∀ x q, (x, q) ∈ T.codes → t.codeAt x = { valid := true, len := BitVec.ofNat 8 q.length, cw := packBits 256 q } ∧
        (t.codeAt x).codeword = q ∧ q ≠ []) ∧
      (∀ x, (∀ q, (x, q) ∉ T.codes) → t.codeAt x = CodeEntry.blank)

/-- R151, R154 to R157: GEN succeeds on nothing but a tree with an INTERNAL root, at most 510 descents, no INTERNAL node at
depth 255, no symbol on two leaves, at most one sentinel and no EMPTY child. R150, R152, R222: of the descents of its walk,
left before right, the first one at fault ends it with TREE_INVALID of the node descended to: reason 6 for the 511th descent,
whatever is there, else 2 for an EMPTY node, 5 for a second sentinel, 4 for a symbol met before, 3 for an INTERNAL node at
depth 255; CODE is then all zero and nothing else has changed. -/
def Obligations.GenSucceedsOnlyOnTrees : Prop :=
  (∀ s t : State, exec .gen s = .next t → t.errcode = .ok → ∃ T, s.holdsTree T ∧ T.acceptable) ∧
  (∀ (s : State) (before after : List Descent) (e : Descent), s.tree.valid = true → s.tree.root ≠ 0x1FF#9 →
    (s.nodeAt s.tree.root).kind = .internal →
    descents s.nodeAt 255 s.tree.root [] = before ++ e :: after → quietDescents s.nodeAt [] before = true →
    let failed := fun reason => Host.Outcome.next (φ := Fault) (ρ := Refusal)
      { s with engine := .idle, done := true, errcode := .treeInvalid, errPos := e.child.setWidth 32, errAux := reason,
               code := [] }
    (before.length = 510 → exec .gen s = failed 6#32) ∧
    (before.length < 510 → (s.nodeAt e.child).kind = .empty → exec .gen s = failed 2#32) ∧
    (before.length < 510 → (s.nodeAt e.child).kind = .sentinel → (∃ a ∈ before, (s.nodeAt a.child).kind = .sentinel) →
      exec .gen s = failed 5#32) ∧
    (before.length < 510 → (s.nodeAt e.child).kind = .leaf →
      (∃ a ∈ before, (s.nodeAt a.child).kind = .leaf ∧ (s.nodeAt a.child).sym = (s.nodeAt e.child).sym) →
      exec .gen s = failed 4#32) ∧
    (before.length < 510 → (s.nodeAt e.child).kind = .internal → e.path.length = 255 → exec .gen s = failed 3#32))

/-- R44, R159: after a successful GEN the usable entries form a prefix code, each one's codeword is the path to a leaf of its
symbol, and every other entry is all zero. -/
def Obligations.GenTableIsPrefixCode : Prop :=
  ∀ s t : State, exec .gen s = .next t → t.errcode = .ok →
    PrefixFree t.codeAt ∧
    (∀ x, (t.codeAt x).usable = true → IsCodePath s.nodeAt s.tree.root (t.codeAt x).codeword x) ∧
    (∀ x, (t.codeAt x).usable = false → t.codeAt x = CodeEntry.blank)

/-- R155, R157: GEN after a successful BUILD succeeds, and exactly the symbols with a non-zero count have a codeword. -/
def Obligations.GenAcceptsBuiltTree : Prop :=
  ∀ s : State, (∃ x, s.freqAt x ≠ 0#32) →
    ∃ t u, exec .build s = .next t ∧ exec .gen t = .next u ∧ u.errcode = .ok ∧
      (∀ x, (u.codeAt x).usable = true ↔ s.freqAt x ≠ 0#32)

/-- R93, R139, R160, R175: BUILD depends only on FREQ, GEN only on TREE and NODE, ENC only on SYM_LEN, SYMBUF and CODE, DEC
only on BIT_LEN, the stream, TREE and NODE, TBLTREE only on CODE: two states that agree on those, whatever else they hold, end
with the same output and the same error, ERR_POS and ERR_AUX included. -/
def Obligations.CommandsDependOnlyOnOperands : Prop :=
  (∀ s s' t t' : State, (∀ x, s.freqAt x = s'.freqAt x) → exec .build s = .next t → exec .build s' = .next t' →
    SameError t t' ∧ t.tree = t'.tree ∧ (∀ i, t.nodeAt i = t'.nodeAt i)) ∧
  (∀ s s' t t' : State, s.tree = s'.tree → (∀ i, s.nodeAt i = s'.nodeAt i) → exec .gen s = .next t →
    exec .gen s' = .next t' → SameError t t' ∧ (∀ x, t.codeAt x = t'.codeAt x)) ∧
  (∀ s s' t t' : State, s.symLen = s'.symLen → (∀ k < s.symLen.toNat, s.symbufAt k = s'.symbufAt k) →
    (∀ x, s.codeAt x = s'.codeAt x) → exec .enc s = .next t → exec .enc s' = .next t' →
    SameError t t' ∧ t.bitLen = t'.bitLen ∧
      (t.errcode = .ok → ∀ k < t.bitLen.toNat, t.streamBit k = t'.streamBit k)) ∧
  (∀ s s' t t' : State, s.bitLen = s'.bitLen → (∀ k < s.bitLen.toNat, s.streamBit k = s'.streamBit k) → s.tree = s'.tree →
    (∀ i, s.nodeAt i = s'.nodeAt i) → exec .dec s = .next t → exec .dec s' = .next t' →
    SameError t t' ∧ t.symLen = t'.symLen ∧
      (t.errcode = .ok → ∀ k < t.symLen.toNat, t.symbufAt k = t'.symbufAt k)) ∧
  (∀ s s' t t' : State, (∀ x, s.codeAt x = s'.codeAt x) → exec .tbltree s = .next t → exec .tbltree s' = .next t' →
    SameError t t' ∧ t.tree = t'.tree ∧ (∀ i, t.nodeAt i = t'.nodeAt i))

/-! ## ENC -/

/-- R170 to R172, R67: with at most 4096 symbols, a usable entry for each and at most 32768 bits in all, ENC completes:
BIT_LEN is the total length, the stream is the codewords in order, the rest of its last word is 0, and every later word of
BITBUF is unchanged. -/
def Obligations.EncConcatenatesCodewords : Prop :=
  ∀ (s : State) (stream : List Bool), s.symLen.toNat ≤ 4096 →
    (∀ k < s.symLen.toNat, (s.codeAt (s.symbufAt k)).usable = true) →
    stream = (s.symbols s.symLen.toNat).flatMap (fun x => (s.codeAt x).codeword) → stream.length ≤ 32768 →
    ∃ t, exec .enc s = .next t ∧ t.errcode = .ok ∧ t.bitLen.toNat = stream.length ∧ t.streamBits stream.length = stream ∧
      (∀ k, stream.length ≤ k → k < 32 * ((stream.length + 31) / 32) → t.streamBit k = false) ∧
      (∀ w, (stream.length + 31) / 32 ≤ w → t.bitbufAt w = s.bitbufAt w)

/-- R174: with SYM_LEN 0 ENC succeeds, writes no BITBUF word and sets BIT_LEN to 0, whatever CODE holds. -/
def Obligations.EncOfNothingIsEmpty : Prop :=
  ∀ s : State, s.symLen = 0#32 →
    exec .enc s = .next { s with engine := .idle, done := true, errcode := .ok, bitLen := 0#32 }

/-- R170, R173: the first symbol ENC cannot encode ends it, with UNKNOWN_SYMBOL before TABLE_INVALID before BUFFER_OVERFLOW;
BIT_LEN is then 0 and nothing else has changed. -/
def Obligations.EncFailsAtFirstBadSymbol : Prop :=
  ∀ (s : State) (k : Nat), s.symLen.toNat ≤ 4096 → k < s.symLen.toNat →
    (∀ j < k, (s.codeAt (s.symbufAt j)).usable = true) →
    let before := ((s.symbols k).map (fun x => (s.codeAt x).len.toNat)).sum
    let x := s.symbufAt k
    before ≤ 32768 →
    ((s.codeAt x).valid = false →
      exec .enc s = .next { s with engine := .idle, done := true, errcode := .unknownSymbol, errPos := BitVec.ofNat 32 k,
                                   errAux := x.setWidth 32, bitLen := 0#32 }) ∧
    ((s.codeAt x).valid = true → (s.codeAt x).len = 0#8 →
      exec .enc s = .next { s with engine := .idle, done := true, errcode := .tableInvalid, errPos := x.setWidth 32,
                                   errAux := 1#32, bitLen := 0#32 }) ∧
    ((s.codeAt x).usable = true → 32768 < before + (s.codeAt x).len.toNat →
      exec .enc s = .next { s with engine := .idle, done := true, errcode := .bufferOverflow,
                                   errPos := BitVec.ofNat 32 k, errAux := 0#32, bitLen := 0#32 })

/-- R170, R191: a length above the capacity ends ENC and DEC with LENGTH_INVALID(length, 0); the output length is then 0 and
nothing else has changed. -/
def Obligations.LengthAboveCapacityFails : Prop :=
  (∀ s : State, 4096 < s.symLen.toNat →
    exec .enc s = .next { s with engine := .idle, done := true, errcode := .lengthInvalid, errPos := s.symLen,
                                 errAux := 0#32, bitLen := 0#32 }) ∧
  (∀ s : State, 32768 < s.bitLen.toNat →
    exec .dec s = .next { s with engine := .idle, done := true, errcode := .lengthInvalid, errPos := s.bitLen,
                                 errAux := 0#32, symLen := 0#32 })

/-! ## DEC -/

/-- R191, R192, R195: on a stream that is the paths to leaves, one after another, DEC completes: it emits the leaves' symbols
in order into SYMBUF, sets SYM_LEN to their number, and leaves the entries above unchanged. -/
def Obligations.DecEmitsLeafSymbols : Prop :=
  ∀ (s : State) (cs : List (List Bool × Symbol)), s.tree.valid = true → s.tree.root ≠ Config.nil →
    (s.nodeAt s.tree.root).kind = .internal → s.bitLen.toNat ≤ 32768 → cs.length ≤ 4096 →
    (∀ c ∈ cs, IsCodePath s.nodeAt s.tree.root c.1 c.2 ∧ c.1.length ≤ 255) →
    s.streamBits s.bitLen.toNat = (cs.map Prod.fst).flatten →
    ∃ t, exec .dec s = .next t ∧ t.errcode = .ok ∧ t.symLen.toNat = cs.length ∧ t.symbols cs.length = cs.map Prod.snd ∧
      (∀ j, cs.length ≤ j → t.symbufAt j = s.symbufAt j)

/-- R194: a stream that ends inside a codeword ends DEC with INVALID_STREAM(BIT_LEN, symbols completed); SYM_LEN is then 0
and nothing else has changed. -/
def Obligations.DecFailsMidCode : Prop :=
  ∀ (s : State) (cs : List (List Bool × Symbol)) (q : List Bool) (c : NodeIdx), s.tree.valid = true →
    s.tree.root ≠ Config.nil → s.bitLen.toNat ≤ 32768 → cs.length ≤ 4096 →
    (∀ c ∈ cs, IsCodePath s.nodeAt s.tree.root c.1 c.2 ∧ c.1.length ≤ 255) →
    q ≠ [] → q.length ≤ 254 → IsPath s.nodeAt s.tree.root q c → (s.nodeAt c).kind = .internal →
    s.streamBits s.bitLen.toNat = (cs.map Prod.fst).flatten ++ q →
    exec .dec s = .next { s with engine := .idle, done := true, errcode := .invalidStream, errPos := s.bitLen,
                                 errAux := BitVec.ofNat 32 cs.length, symLen := 0#32 }

/-- R191, R193: the bit that leads to no child, to the sentinel, to an EMPTY node, to an INTERNAL node at depth 255 or to
the 4097th symbol ends DEC at once with the error of each case; SYM_LEN is then 0 and nothing else has changed. -/
def Obligations.DecFailsOnDeadPath : Prop :=
  ∀ (s : State) (cs : List (List Bool × Symbol)) (q : List Bool) (c : NodeIdx) (b : Bool) (more : List Bool),
    s.tree.valid = true → s.tree.root ≠ Config.nil → s.bitLen.toNat ≤ 32768 → cs.length ≤ 4096 →
    (∀ c ∈ cs, IsCodePath s.nodeAt s.tree.root c.1 c.2 ∧ c.1.length ≤ 255) →
    q.length ≤ 254 → IsPath s.nodeAt s.tree.root q c → (s.nodeAt c).kind = .internal →
    s.streamBits s.bitLen.toNat = (cs.map Prod.fst).flatten ++ q ++ b :: more →
    let d := childAt s.nodeAt c b
    let k := BitVec.ofNat 32 ((cs.map Prod.fst).flatten.length + q.length)
    let failed := fun e pos aux => Host.Outcome.next (φ := Fault) (ρ := Refusal)
      { s with engine := .idle, done := true, errcode := e, errPos := pos, errAux := aux, symLen := 0#32 }
    (d = Config.nil → exec .dec s = failed .invalidStream k (BitVec.ofNat 32 cs.length)) ∧
    (d ≠ Config.nil → (s.nodeAt d).kind = .sentinel →
      exec .dec s = failed .invalidStream k (BitVec.ofNat 32 cs.length)) ∧
    (d ≠ Config.nil → (s.nodeAt d).kind = .empty → exec .dec s = failed .treeInvalid (d.setWidth 32) 2#32) ∧
    (d ≠ Config.nil → (s.nodeAt d).kind = .internal → q.length = 254 →
      exec .dec s = failed .treeInvalid (d.setWidth 32) 3#32) ∧
    (d ≠ Config.nil → (s.nodeAt d).kind = .leaf → cs.length = 4096 → exec .dec s = failed .bufferOverflow k 0#32)

/-- R196: with no tree, DEC of an empty stream succeeds with SYM_LEN 0, and any other stream is INVALID_STREAM(0, 0). And with
a tree whose root is NIL or not INTERNAL, DEC of any stream, an empty one too, ends with TREE_INVALID(root, 1) (the pseudocode
of R191); SYM_LEN is then 0 and nothing else has changed. -/
def Obligations.DecWithoutTree : Prop :=
  (∀ s : State, s.tree.valid = false → s.bitLen = 0#32 →
    exec .dec s = .next { s with engine := .idle, done := true, errcode := .ok, symLen := 0#32 }) ∧
  (∀ s : State, s.tree.valid = false → s.bitLen ≠ 0#32 → s.bitLen.toNat ≤ 32768 →
    exec .dec s = .next { s with engine := .idle, done := true, errcode := .invalidStream, errPos := 0#32,
                                 errAux := 0#32, symLen := 0#32 }) ∧
  (∀ s : State, s.tree.valid = true → (s.tree.root = 0x1FF#9 ∨ (s.nodeAt s.tree.root).kind ≠ .internal) →
    s.bitLen.toNat ≤ 32768 →
    exec .dec s = .next { s with engine := .idle, done := true, errcode := .treeInvalid,
                                 errPos := s.tree.root.setWidth 32, errAux := 1#32, symLen := 0#32 })

/-! ## TBLTREE -/

/-- R203: TBLTREE of a table with no valid entry raises EMPTY_INPUT(0, 0), and leaves NODE all EMPTY and TREE 0. -/
def Obligations.TbltreeFailsOnEmptyTable : Prop :=
  ∀ s : State, (∀ x, (s.codeAt x).valid = false) →
    ∃ t, exec .tbltree s = .next t ∧ t.errcode = .emptyInput ∧ t.errPos = 0#32 ∧ t.errAux = 0#32 ∧
      (∀ i, t.nodeAt i = Node.blank) ∧ t.tree = { valid := false, root := 0#9 }

/-- R200 to R202: TBLTREE completes without error exactly on a table with some valid entry, no valid entry of length 0, no
codeword a prefix of another, and no more than 511 nodes to its tree. R222: the first symbol in ascending order that breaks
this ends it with TABLE_INVALID of the symbol: reason 1 for length 0, else 2 for a codeword that is a prefix of an earlier one
or has one as a prefix, else 3 for one that makes more than 511 nodes; NODE is then all EMPTY, TREE 0 and nothing else has
changed. -/
def Obligations.TbltreeSucceedsExactlyOnPrefixCodes : Prop :=
  (∀ s : State, (∃ t, exec .tbltree s = .next t ∧ t.errcode = .ok) ↔
    ((∃ x, (s.codeAt x).valid = true) ∧ FitsTree s.codeAt)) ∧
  (∀ (s : State) (x : Symbol), FitsTree (entriesBelow s.codeAt x.toNat) → (s.codeAt x).valid = true →
    let failed := fun reason => Host.Outcome.next (φ := Fault) (ρ := Refusal)
      { s with engine := .idle, done := true, errcode := .tableInvalid, errPos := x.setWidth 32, errAux := reason,
               node := [], tree := { valid := false, root := 0#9 } }
    let conflict := ∃ y, y.toNat < x.toNat ∧ (s.codeAt y).usable = true ∧
      ((s.codeAt y).codeword <+: (s.codeAt x).codeword ∨ (s.codeAt x).codeword <+: (s.codeAt y).codeword)
    ((s.codeAt x).len = 0#8 → exec .tbltree s = failed 1#32) ∧
    ((s.codeAt x).len ≠ 0#8 → conflict → exec .tbltree s = failed 2#32) ∧
    ((s.codeAt x).len ≠ 0#8 → ¬ conflict → 511 < (tablePrefixes (entriesBelow s.codeAt (x.toNat + 1))).length →
      exec .tbltree s = failed 3#32))

/-- R200: the tree TBLTREE writes has its root at index 0, each usable entry's codeword leads from it to a leaf of the
entry's symbol, every way to a leaf is such a codeword, and every node's weight is 0. -/
def Obligations.TbltreeTreeSpellsTable : Prop :=
  ∀ s : State, (∃ x, (s.codeAt x).valid = true) → FitsTree s.codeAt →
    ∃ t, exec .tbltree s = .next t ∧ t.errcode = .ok ∧ t.tree = { valid := true, root := 0#9 } ∧
      (∀ q x, IsCodePath t.nodeAt 0#9 q x ↔ ((s.codeAt x).usable = true ∧ (s.codeAt x).codeword = q)) ∧
      (∀ i, (t.nodeAt i).weight = 0#40)

/-- R158, R204: TBLTREE and then GEN give back each usable entry's VALID, LEN and codeword bits, and all zero elsewhere. -/
def Obligations.TbltreeThenGenWritesTableBack : Prop :=
  ∀ s t : State, exec .tbltree s = .next t → t.errcode = .ok →
    ∃ u, exec .gen t = .next u ∧ u.errcode = .ok ∧
      (∀ x, (s.codeAt x).usable = true →
        (u.codeAt x).valid = true ∧ (u.codeAt x).len = (s.codeAt x).len ∧
        (∀ j < (s.codeAt x).len.toNat, (u.codeAt x).cw.getLsbD j = (s.codeAt x).cw.getLsbD j) ∧
        (∀ j, (s.codeAt x).len.toNat ≤ j → (u.codeAt x).cw.getLsbD j = false)) ∧
      (∀ x, (s.codeAt x).usable = false → u.codeAt x = CodeEntry.blank)

/-- R197: on the tree TBLTREE rebuilds from a table, DEC emits exactly the symbols that greedy matching of a growing bit buffer
against the table emits, and succeeds on exactly the same streams (of at most 32768 bits, and at most 4096 symbols). -/
def Obligations.DecMatchesGreedyMatching : Prop :=
  ∀ (s t : State) (out : List Symbol), exec .tbltree s = .next t → t.errcode = .ok → s.bitLen.toNat ≤ 32768 →
    out.length ≤ 4096 →
    ((∃ u, exec .dec t = .next u ∧ u.errcode = .ok ∧ u.symLen.toNat = out.length ∧ u.symbols out.length = out) ↔
      greedyDecode s.codeAt [] (s.streamBits s.bitLen.toNat) = some out)

/-! ## Round trips -/

/-- On any tree at all on which GEN succeeds: what ENC encodes with GEN's table, DEC decodes on that tree to the same
symbols. -/
def Obligations.DecodeRecoversEncodedSymbols : Prop :=
  ∀ s s1 s2 : State, exec .gen s = .next s1 → s1.errcode = .ok → exec .enc s1 = .next s2 → s2.errcode = .ok →
    ∃ s3, exec .dec s2 = .next s3 ∧ s3.errcode = .ok ∧ s3.symLen = s.symLen ∧
      (∀ k < s.symLen.toNat, s3.symbufAt k = s.symbufAt k)

/-- R198: BUILD, GEN, ENC, DEC from any counts, not all 0, and any symbols each with a non-zero count, at most 4096 of them
and 32768 bits, succeed and leave the symbols and SYM_LEN as they were; so do BUILD, GEN, ENC, TBLTREE, DEC. -/
def Obligations.RoundTripFromCounts : Prop :=
  ∀ s : State, (∃ x, s.freqAt x ≠ 0#32) → s.symLen.toNat ≤ 4096 →
    (∀ k < s.symLen.toNat, s.freqAt (s.symbufAt k) ≠ 0#32) →
    ∃ s1 s2, exec .build s = .next s1 ∧ s1.errcode = .ok ∧ exec .gen s1 = .next s2 ∧ s2.errcode = .ok ∧
      (((s.symbols s.symLen.toNat).map (fun x => (s2.codeAt x).len.toNat)).sum ≤ 32768 →
        ∃ s3, exec .enc s2 = .next s3 ∧ s3.errcode = .ok ∧
          (∃ s4, exec .dec s3 = .next s4 ∧ s4.errcode = .ok ∧ s4.symLen = s.symLen ∧
            (∀ k < s.symLen.toNat, s4.symbufAt k = s.symbufAt k)) ∧
          (∃ s4 s5, exec .tbltree s3 = .next s4 ∧ s4.errcode = .ok ∧ exec .dec s4 = .next s5 ∧ s5.errcode = .ok ∧
            s5.symLen = s.symLen ∧ (∀ k < s.symLen.toNat, s5.symbufAt k = s.symbufAt k)))

/-! ## Errors -/

/-- R230: after an error everything is as it was at acceptance except STATUS, ERR_POS, ERR_AUX and the command's own
output, which is empty: BUILD and TBLTREE leave NODE all EMPTY and TREE 0, GEN leaves CODE all zero, ENC leaves BIT_LEN 0,
DEC leaves SYM_LEN 0; an illegal word leaves nothing else. -/
def Obligations.ErrorsLeaveOutputEmpty : Prop :=
  (∀ (v : Word) (s t : State), execIllegal v s = .next t →
    t = { s with engine := .idle, done := true, errcode := t.errcode, errPos := t.errPos, errAux := t.errAux }) ∧
  (∀ (i : Instr) (s t : State), exec i s = .next t → t.errcode ≠ .ok →
    t = { s with
      engine := .idle
      done := true
      errcode := t.errcode
      errPos := t.errPos
      errAux := t.errAux
      node := if i = .build ∨ i = .tbltree then [] else s.node
      tree := if i = .build ∨ i = .tbltree then { valid := false, root := 0#9 } else s.tree
      code := if i = .gen then [] else s.code
      bitLen := if i = .enc then 0#32 else s.bitLen
      symLen := if i = .dec then 0#32 else s.symLen })

/-- R220: each command raises only the errors the table of R220 lists for it. -/
def Obligations.ErrorsByCommand : Prop :=
  ∀ (i : Instr) (s t : State), exec i s = .next t →
    match i with
    | .nop => t.errcode = .ok
    | .clrfreq => t.errcode = .ok
    | .clrtree => t.errcode = .ok
    | .clrtbl => t.errcode = .ok
    | .build => t.errcode = .ok ∨ t.errcode = .emptyInput
    | .gen => t.errcode = .ok ∨ t.errcode = .noTree ∨ t.errcode = .treeInvalid
    | .enc => t.errcode = .ok ∨ t.errcode = .unknownSymbol ∨ t.errcode = .tableInvalid ∨ t.errcode = .bufferOverflow ∨
        t.errcode = .lengthInvalid
    | .dec => t.errcode = .ok ∨ t.errcode = .invalidStream ∨ t.errcode = .treeInvalid ∨ t.errcode = .bufferOverflow ∨
        t.errcode = .lengthInvalid
    | .tbltree => t.errcode = .ok ∨ t.errcode = .emptyInput ∨ t.errcode = .tableInvalid

/-! ## Frames -/

/-- R93, R113: what no command changes (CTRL, OVERRUN, LASTOP and the model's own fields), and what only some may: TREE and
NODE only CLRTREE, BUILD and TBLTREE; SYM_LEN and SYMBUF only DEC; BIT_LEN and BITBUF only ENC; FREQ only CLRFREQ; CODE only
CLRTBL and GEN; ERR_POS and ERR_AUX only a command that fails. -/
def Obligations.CommandsLeaveOtherRegisters : Prop :=
  ∀ (i : Instr) (s t : State), exec i s = .next t →
    t.irqEn = s.irqEn ∧ t.overrun = s.overrun ∧ t.lastop = s.lastop ∧ t.resetHeld = s.resetHeld ∧ t.inputs = s.inputs ∧
    t.replies = s.replies ∧ t.draws = s.draws ∧ t.resets = s.resets ∧
    (i ≠ .clrtree → i ≠ .build → i ≠ .tbltree → t.tree = s.tree ∧ t.node = s.node) ∧
    (i ≠ .dec → t.symLen = s.symLen ∧ t.symbuf = s.symbuf) ∧ (i ≠ .enc → t.bitLen = s.bitLen ∧ t.bitbuf = s.bitbuf) ∧
    (i ≠ .clrfreq → t.freq = s.freq) ∧ (i ≠ .clrtbl → i ≠ .gen → t.code = s.code) ∧ (t.errcode = .ok → t.errPos = s.errPos ∧ t.errAux = s.errAux)

/-- R93, R230: every byte of the apertures and reserved offsets is unchanged by a command, except the bytes of the memory it
stores to; for ENC and DEC those are the words of the stream and the entries of the symbols, computed as their meanings
compute them, and none on an error. -/
def Obligations.CommandsLeaveOtherBytes : Prop :=
  ∀ (i : Instr) (s t : State) (a : Nat), exec i s = .next t → 0x030 ≤ a →
    ¬ ((storedBytes i s).1 ≤ a ∧ a < (storedBytes i s).2) → t.windowByte a = s.windowByte a

/-! ## Invariants -/

/-- The state right after reset meets the invariant, and the engine is IDLE in it. -/
def Obligations.ResetMeetsInvariant : Prop := State.reset.Inv ∧ State.reset.engine = .idle

/-- Every step keeps the invariant: the internal memories stay in their canonical form, the registers while BUSY stay as
acceptance left them, ERR_POS and ERR_AUX stay 0 unless a command failed, and the engine is IDLE while reset is held. -/
def Obligations.StepKeepsInvariant : Prop :=
  ∀ s t : State, s.Inv → step s = .next t → t.Inv
end

