-- ==== Sys2Proof/Laws/Memory.lean ====
section
/-! SUPPORT. The laws of one internal memory: read after write, and the canonical form kept. -/

namespace Sys2Proof.Machine

variable {α : Type}

@[simp] theorem Memory.find?_nil (i : Nat) : Memory.find? ([] : Memory α) i = none := rfl

@[simp] theorem Memory.read_nil (d : α) (i : Nat) : Memory.read d ([] : Memory α) i = d := rfl

theorem Memory.find?_cons (k : Nat) (v : α) (m : Memory α) (i : Nat) :
    Memory.find? ((k, v) :: m) i = if k = i then some v else Memory.find? m i := rfl

@[simp] theorem Memory.find?_insert_self (m : Memory α) (i : Nat) (v : α) :
    Memory.find? (Memory.insert m i v) i = some v := by
  induction m with
  | nil => simp [Memory.insert, Memory.find?]
  | cons c m ih =>
    obtain ⟨k, w⟩ := c
    unfold Memory.insert
    split
    · simp [Memory.find?]
    · split
      · simp [Memory.find?]
      · rename_i _ h
        simp [Memory.find?, ih, Ne.symm h]

theorem Memory.find?_insert_ne (m : Memory α) {i j : Nat} (v : α) (h : j ≠ i) :
    Memory.find? (Memory.insert m i v) j = Memory.find? m j := by
  induction m with
  | nil => simp [Memory.insert, Memory.find?, Ne.symm h]
  | cons c m ih =>
    obtain ⟨k, w⟩ := c
    unfold Memory.insert
    split
    · simp [Memory.find?, Ne.symm h]
    · split
      · rename_i _ hk
        subst hk
        simp [Memory.find?, Ne.symm h]
      · simp [Memory.find?, ih]

@[simp] theorem Memory.find?_erase_self (m : Memory α) (i : Nat) : Memory.find? (Memory.erase m i) i = none := by
  induction m with
  | nil => rfl
  | cons c m ih =>
    obtain ⟨k, w⟩ := c
    by_cases h : k = i
    · simpa [Memory.erase, h] using ih
    · simpa [Memory.erase, h, Memory.find?] using ih

theorem Memory.find?_erase_ne (m : Memory α) {i j : Nat} (h : j ≠ i) :
    Memory.find? (Memory.erase m i) j = Memory.find? m j := by
  induction m with
  | nil => rfl
  | cons c m ih =>
    obtain ⟨k, w⟩ := c
    by_cases hk : k = i
    · subst hk
      simpa [Memory.erase, Memory.find?, Ne.symm h] using ih
    · have := ih
      simp only [Memory.erase] at this
      simp [Memory.erase, hk, Memory.find?, this]

variable [DecidableEq α]

/-- A read of the entry just written gives what was written, where the reset contents are known. -/
@[simp] theorem Memory.read_write_self (d : α) (m : Memory α) (i : Nat) (v : α) :
    Memory.read d (Memory.write (some d) m i v) i = v := by
  unfold Memory.read Memory.write
  split
  · rename_i h
    simp at h
    simp [h]
  · simp

/-- A read of the entry just written gives what was written, where the reset contents are unspecified. -/
@[simp] theorem Memory.read_write_none_self (d : α) (m : Memory α) (i : Nat) (v : α) :
    Memory.read d (Memory.write none m i v) i = v := by
  simp [Memory.read, Memory.write]

theorem Memory.find?_write_ne (dflt : Option α) (m : Memory α) {i j : Nat} (v : α) (h : j ≠ i) :
    Memory.find? (Memory.write dflt m i v) j = Memory.find? m j := by
  unfold Memory.write
  split
  · exact Memory.find?_erase_ne m h
  · exact Memory.find?_insert_ne m v h

/-- A write leaves every other entry alone. -/
theorem Memory.read_write_ne (dflt : Option α) (d : α) (m : Memory α) {i j : Nat} (v : α) (h : j ≠ i) :
    Memory.read d (Memory.write dflt m i v) j = Memory.read d m j := by
  simp [Memory.read, Memory.find?_write_ne dflt m v h]

theorem Memory.read_write (d : α) (m : Memory α) (i j : Nat) (v : α) :
    Memory.read d (Memory.write (some d) m i v) j = if j = i then v else Memory.read d m j := by
  split
  · rename_i h
    simp [h]
  · rename_i h
    exact Memory.read_write_ne _ d m v h

theorem Memory.read_write_none (d : α) (m : Memory α) (i j : Nat) (v : α) :
    Memory.read d (Memory.write none m i v) j = if j = i then v else Memory.read d m j := by
  split
  · rename_i h
    simp [h]
  · rename_i h
    exact Memory.read_write_ne _ d m v h

@[simp] theorem Memory.writeFrom_nil (dflt : Option α) (m : Memory α) (i : Nat) : Memory.writeFrom dflt m i [] = m := rfl

/-- What a run of writes can do: the entries written are the listed values in order, and every other entry is as before. -/
theorem Memory.read_writeFrom_none (d : α) (vs : List α) (m : Memory α) (i j : Nat) :
    Memory.read d (Memory.writeFrom none m i vs) j =
      if h : i ≤ j ∧ j - i < vs.length then vs[j - i]'h.2 else Memory.read d m j := by
  induction vs generalizing m i with
  | nil => simp
  | cons v vs ih =>
    rw [Memory.writeFrom, ih]
    by_cases hj : j = i
    · subst hj
      simp
    · rw [Memory.read_write_ne none d m v hj]
      by_cases h : i ≤ j ∧ j - i < (v :: vs).length
      · have hlt : i + 1 ≤ j := by omega
        have hlen : j - (i + 1) < vs.length := by
          have := h.2
          simp at this
          omega
        have he : j - i = (j - (i + 1)) + 1 := by omega
        simp [h, hlt, hlen, he]
      · have : ¬ (i + 1 ≤ j ∧ j - (i + 1) < vs.length) := by
          simp at h ⊢
          omega
        simp only [dif_neg this, dif_neg h]

/-! The canonical form. -/

omit [DecidableEq α] in
theorem Memory.rising_mono {lo lo' : Nat} (h : lo ≤ lo') {m : Memory α} (hm : Memory.rising lo' m = true) :
    Memory.rising lo m = true := by
  cases m with
  | nil => rfl
  | cons c m =>
    obtain ⟨k, v⟩ := c
    simp [Memory.rising] at hm ⊢
    exact ⟨by omega, hm.2⟩

omit [DecidableEq α] in
theorem Memory.rising_insert {lo : Nat} {m : Memory α} (hm : Memory.rising lo m = true) {i : Nat} (hi : lo ≤ i) (v : α) :
    Memory.rising lo (Memory.insert m i v) = true := by
  induction m generalizing lo with
  | nil => simpa [Memory.insert, Memory.rising] using hi
  | cons c m ih =>
    obtain ⟨k, w⟩ := c
    simp [Memory.rising] at hm
    unfold Memory.insert
    split
    · simp [Memory.rising, hi, hm.2]
      omega
    · split
      · rename_i _ h
        subst h
        simp [Memory.rising, hi, hm.2]
      · simp [Memory.rising, hm.1]
        exact ih hm.2 (by omega)

omit [DecidableEq α] in
theorem Memory.rising_erase {lo : Nat} {m : Memory α} (hm : Memory.rising lo m = true) (i : Nat) :
    Memory.rising lo (Memory.erase m i) = true := by
  induction m generalizing lo with
  | nil => rfl
  | cons c m ih =>
    obtain ⟨k, w⟩ := c
    simp [Memory.rising] at hm
    by_cases h : k = i
    · have := Memory.rising_mono (by omega : lo ≤ k + 1) (ih hm.2)
      simpa [Memory.erase, h] using this
    · have := ih hm.2
      simp only [Memory.erase] at this
      simp [Memory.erase, h, Memory.rising, hm.1, this]

omit [DecidableEq α] in
theorem Memory.mem_insert {m : Memory α} {i : Nat} {v : α} {c : Nat × α} (h : c ∈ Memory.insert m i v) :
    c = (i, v) ∨ c ∈ m := by
  induction m with
  | nil => simpa [Memory.insert] using h
  | cons b m ih =>
    obtain ⟨k, w⟩ := b
    unfold Memory.insert at h
    split at h
    · simpa using h
    · split at h
      · simp at h
        rcases h with h | h
        · exact .inl h
        · exact .inr (by simp [h])
      · simp at h
        rcases h with h | h
        · exact .inr (by simp [h])
        · rcases ih h with h | h
          · exact .inl h
          · exact .inr (by simp [h])

@[simp] theorem Memory.wf_nil (cap : Nat) (dflt : Option α) : Memory.wf cap dflt ([] : Memory α) = true := rfl

/-- A write below the capacity keeps the canonical form. -/
theorem Memory.wf_write {cap : Nat} {dflt : Option α} {m : Memory α} (hm : Memory.wf cap dflt m = true) {i : Nat}
    (hi : i < cap) (v : α) : Memory.wf cap dflt (Memory.write dflt m i v) = true := by
  simp [Memory.wf] at hm
  obtain ⟨hr, ha⟩ := hm
  simp only [Memory.wf, Bool.and_eq_true, List.all_eq_true, decide_eq_true_eq, Bool.not_eq_true', decide_eq_false_iff_not]
  unfold Memory.write
  split
  · refine ⟨Memory.rising_erase hr i, fun c hc => ?_⟩
    simp [Memory.erase] at hc
    exact ha c.1 c.2 hc.1
  · rename_i hd
    refine ⟨Memory.rising_insert hr (Nat.zero_le i) v, fun c hc => ?_⟩
    rcases Memory.mem_insert hc with h | h
    · subst h
      exact ⟨hi, hd⟩
    · exact ha c.1 c.2 h

/-- A run of writes below the capacity keeps the canonical form. -/
theorem Memory.wf_writeFrom {cap : Nat} {dflt : Option α} (vs : List α) {m : Memory α} (hm : Memory.wf cap dflt m = true)
    {i : Nat} (hi : i + vs.length ≤ cap) : Memory.wf cap dflt (Memory.writeFrom dflt m i vs) = true := by
  induction vs generalizing m i with
  | nil => simpa using hm
  | cons v vs ih =>
    simp at hi
    exact ih (Memory.wf_write hm (by omega) v) (by omega)

omit [DecidableEq α] in
theorem Memory.find?_eq_none_of_rising {lo i : Nat} {m : Memory α} (hm : Memory.rising lo m = true) (hi : i < lo) :
    Memory.find? m i = none := by
  induction m generalizing lo with
  | nil => rfl
  | cons c m ih =>
    obtain ⟨k, v⟩ := c
    simp [Memory.rising] at hm
    simp [Memory.find?, show ¬ k = i by omega, ih hm.2 (by omega)]

omit [DecidableEq α] in
/-- Two memories in rising order that list the same entries are the same list. -/
theorem Memory.ext_of_rising {lo lo' : Nat} {m n : Memory α} (hm : Memory.rising lo m = true)
    (hn : Memory.rising lo' n = true) (h : ∀ i, Memory.find? m i = Memory.find? n i) : m = n := by
  induction m generalizing lo lo' n with
  | nil =>
    cases n with
    | nil => rfl
    | cons c n =>
      obtain ⟨k, v⟩ := c
      have := h k
      simp [Memory.find?] at this
  | cons b m ih =>
    obtain ⟨j, w⟩ := b
    cases n with
    | nil =>
      have := h j
      simp [Memory.find?] at this
    | cons c n =>
      obtain ⟨k, v⟩ := c
      simp [Memory.rising] at hm hn
      have hjk : j = k := by
        rcases Nat.lt_trichotomy j k with hlt | he | hlt
        · have := h j
          simp [Memory.find?, show ¬ k = j by omega,
            Memory.find?_eq_none_of_rising hn.2 (show j < k + 1 by omega)] at this
        · exact he
        · have := h k
          simp [Memory.find?, show ¬ j = k by omega,
            Memory.find?_eq_none_of_rising hm.2 (show k < j + 1 by omega)] at this
      subst hjk
      have hv : w = v := by
        have := h j
        simpa [Memory.find?] using this
      subst hv
      congr 1
      refine ih hm.2 hn.2 (fun i => ?_)
      by_cases hij : j = i
      · subst hij
        rw [Memory.find?_eq_none_of_rising hm.2 (by omega), Memory.find?_eq_none_of_rising hn.2 (by omega)]
      · have := h i
        simpa [Memory.find?, hij] using this

theorem Memory.find?_ne_default {cap : Nat} {d : α} {m : Memory α} (hm : Memory.wf cap (some d) m = true) (i : Nat) :
    Memory.find? m i ≠ some d := by
  have ha : ∀ c ∈ m, c.2 ≠ d := by
    simp [Memory.wf] at hm
    exact fun c hc he => (hm.2 c.1 c.2 hc).2 he.symm
  clear hm
  induction m with
  | nil => simp
  | cons c m ih =>
    obtain ⟨k, v⟩ := c
    unfold Memory.find?
    split
    · have := ha (k, v) (by simp)
      simpa using this
    · exact ih (fun c hc => ha c (by simp [hc]))

/-- Equal memories are equal data: two canonical memories whose every entry reads the same are the same list. -/
theorem Memory.ext_of_wf {cap : Nat} {d : α} {m n : Memory α} (hm : Memory.wf cap (some d) m = true)
    (hn : Memory.wf cap (some d) n = true) (h : ∀ i, Memory.read d m i = Memory.read d n i) : m = n := by
  have hrm : Memory.rising 0 m = true := by
    simp [Memory.wf] at hm
    exact hm.1
  have hrn : Memory.rising 0 n = true := by
    simp [Memory.wf] at hn
    exact hn.1
  refine Memory.ext_of_rising hrm hrn (fun i => ?_)
  have h1 := Memory.find?_ne_default hm i
  have h2 := Memory.find?_ne_default hn i
  have h3 := h i
  unfold Memory.read at h3
  cases hx : Memory.find? m i <;> cases hy : Memory.find? n i <;> simp_all

end Sys2Proof.Machine
end

