-- ==== Sys2Proof/Laws/Operands.lean ====
section
/-! SUPPORT. The laws of the implicit operands: entries of NODE and CODE, packed bits, codewords, and the words of a stream. -/

namespace Sys2Proof.Machine

/-! Entries of NODE and CODE. -/

theorem nodeIn_nodePut (m : Memory Node) (i j : NodeIdx) (n : Node) :
    nodeIn (nodePut m i n) j = if j = i then n else nodeIn m j := by
  simp only [nodeIn, nodePut, Memory.read_write]
  by_cases h : j = i
  · simp [h]
  · have : ¬ j.toNat = i.toNat := fun hn => h (BitVec.eq_of_toNat_eq hn)
    simp [h, this]

@[simp] theorem nodeIn_nodePut_self (m : Memory Node) (i : NodeIdx) (n : Node) : nodeIn (nodePut m i n) i = n := by
  simp [nodeIn_nodePut]

theorem nodeIn_nodePut_ne (m : Memory Node) {i j : NodeIdx} (n : Node) (h : j ≠ i) :
    nodeIn (nodePut m i n) j = nodeIn m j := by
  simp [nodeIn_nodePut, h]

@[simp] theorem nodeIn_nil (i : NodeIdx) : nodeIn [] i = Node.blank := rfl

theorem codeIn_codePut (m : Memory CodeEntry) (x y : Symbol) (e : CodeEntry) :
    codeIn (codePut m x e) y = if y = x then e else codeIn m y := by
  simp only [codeIn, codePut, Memory.read_write]
  by_cases h : y = x
  · simp [h]
  · have : ¬ y.toNat = x.toNat := fun hn => h (BitVec.eq_of_toNat_eq hn)
    simp [h, this]

@[simp] theorem codeIn_codePut_self (m : Memory CodeEntry) (x : Symbol) (e : CodeEntry) : codeIn (codePut m x e) x = e := by
  simp [codeIn_codePut]

theorem codeIn_codePut_ne (m : Memory CodeEntry) {x y : Symbol} (e : CodeEntry) (h : y ≠ x) :
    codeIn (codePut m x e) y = codeIn m y := by
  simp [codeIn_codePut, h]

@[simp] theorem codeIn_nil (x : Symbol) : codeIn [] x = CodeEntry.blank := rfl

theorem wf_nodePut {m : Memory Node} (hm : Memory.wf Config.nodeCap (some Node.blank) m = true) (i : NodeIdx) (n : Node) :
    Memory.wf Config.nodeCap (some Node.blank) (nodePut m i n) = true :=
  Memory.wf_write hm (by simpa using i.isLt) n

theorem wf_codePut {m : Memory CodeEntry} (hm : Memory.wf Config.nsym (some CodeEntry.blank) m = true) (x : Symbol)
    (e : CodeEntry) : Memory.wf Config.nsym (some CodeEntry.blank) (codePut m x e) = true :=
  Memory.wf_write hm (by simpa using x.isLt) e

/-- Every symbol is one of the 256. -/
@[simp] theorem mem_allSymbols (x : Symbol) : x ∈ allSymbols := by
  simp only [allSymbols, List.mem_map, List.mem_range]
  exact ⟨x.toNat, x.isLt, by simp⟩

/-! Packed bits. -/

@[simp] theorem testBit_bitsNat (q : List Bool) (i : Nat) : (bitsNat q).testBit i = q.getD i false := by
  induction q generalizing i with
  | nil => simp [bitsNat]
  | cons b q ih =>
    cases i with
    | zero => cases b <;> simp [bitsNat, Nat.testBit_zero]
    | succ i =>
      rw [bitsNat, Nat.testBit_succ]
      have : (b.toNat + 2 * bitsNat q) / 2 = bitsNat q := by
        have := Bool.toNat_lt b
        omega
      simp [this, ih]

/-- Bit `i` of the packed value is element `i` of the list, and 0 past its end. -/
@[simp] theorem getLsbD_packBits (w : Nat) (q : List Bool) (i : Nat) :
    (packBits w q).getLsbD i = (decide (i < w) && q.getD i false) := by
  simp [packBits, BitVec.getLsbD_ofNat]

@[simp] theorem getElem_packBits (w : Nat) (q : List Bool) (i : Nat) (h : i < w) :
    (packBits w q)[i] = q.getD i false := by
  rw [← BitVec.getLsbD_eq_getElem h, getLsbD_packBits]
  simp [h]

@[simp] theorem length_codeword (e : CodeEntry) : e.codeword.length = e.len.toNat := by simp [CodeEntry.codeword]

theorem getElem_codeword (e : CodeEntry) (i : Nat) (h : i < e.codeword.length) : e.codeword[i] = e.cw.getLsbD i := by
  simp [CodeEntry.codeword]

/-- The codeword of the entry GEN writes for a path of at most 255 bits is that path. -/
theorem codeword_ofPath {q : List Bool} (h : q.length ≤ 255) : (CodeEntry.ofPath q).codeword = q := by
  have hl : q.length % 256 = q.length := Nat.mod_eq_of_lt (by omega)
  refine List.ext_getElem (by simp [CodeEntry.ofPath, hl]) (fun i h1 h2 => ?_)
  rw [getElem_codeword]
  have : i < 256 := by omega
  simp [CodeEntry.ofPath, this, h2]

/-! The words of a stream. -/

@[simp] theorem length_streamWords (stream : List Bool) : (streamWords stream).length = (stream.length + 31) / 32 := by
  simp [streamWords]

/-- Bit `j` of word `w` of a stream is stream bit `32*w + j`, and 0 past the end. -/
theorem getLsbD_streamWord (stream : List Bool) (w j : Nat) (hj : j < 32) :
    (streamWord stream w).getLsbD j = stream.getD (32 * w + j) false := by
  simp [streamWord, hj, List.getElem?_drop]

/-- BITBUF after a stream is written: the words it fills are the stream's, every later word is as before. -/
theorem read_streamWords (d : Word) (m : Memory Word) (stream : List Bool) (w : Nat) :
    Memory.read d (Memory.writeFrom none m 0 (streamWords stream)) w =
      if w < (stream.length + 31) / 32 then streamWord stream w else Memory.read d m w := by
  rw [Memory.read_writeFrom_none]
  by_cases h : w < (stream.length + 31) / 32
  · simp [h, streamWords]
  · simp [h]

end Sys2Proof.Machine
end

