-- ==== Sys2Proof/Laws/Build.lean ====
section
/-! SUPPORT. What BUILD's seeding, queue and merges do (R130 to R134). -/

namespace Sys2Proof.Machine

/-! The seed order. -/

/-- Of two symbols one comes before the other, unless they are the same. -/
theorem seedBefore_total (freq : Symbol → Count) {a b : Symbol} (h : a ≠ b) (hn : seedBefore freq a b = false) :
    seedBefore freq b a = true := by
  have hab : a.toNat ≠ b.toNat := fun he => h (BitVec.eq_of_toNat_eq he)
  simp only [seedBefore, Bool.or_eq_false_iff, Bool.and_eq_false_iff, decide_eq_false_iff_not, beq_eq_false_iff_ne,
    Bool.or_eq_true, Bool.and_eq_true, decide_eq_true_eq, beq_iff_eq, ne_eq, ← BitVec.toNat_inj] at hn ⊢
  omega

theorem seedBefore_trans (freq : Symbol → Count) {a b c : Symbol} (h1 : seedBefore freq a b = true)
    (h2 : seedBefore freq b c = true) : seedBefore freq a c = true := by
  simp only [seedBefore, Bool.or_eq_true, Bool.and_eq_true, decide_eq_true_eq, beq_iff_eq, ← BitVec.toNat_inj] at *
  omega

theorem seedInsert_perm (freq : Symbol → Count) (a : Symbol) : ∀ l, (seedInsert freq a l).Perm (a :: l)
  | [] => .refl _
  | b :: l => by
    unfold seedInsert
    split
    · exact .refl _
    · exact ((seedInsert_perm freq a l).cons b).trans (.swap a b l)

theorem seedInsert_sorted (freq : Symbol → Count) (a : Symbol) :
    ∀ l, a ∉ l → l.Pairwise (fun x y => seedBefore freq x y = true) →
      (seedInsert freq a l).Pairwise (fun x y => seedBefore freq x y = true)
  | [], _, _ => by simp [seedInsert]
  | b :: l, hm, hp => by
    simp only [List.mem_cons, not_or] at hm
    rw [List.pairwise_cons] at hp
    unfold seedInsert
    split
    · rename_i hab
      refine List.pairwise_cons.2 ⟨fun c hc => ?_, List.pairwise_cons.2 hp⟩
      rcases List.mem_cons.1 hc with rfl | hc
      · exact hab
      · exact seedBefore_trans freq hab (hp.1 c hc)
    · rename_i hab
      refine List.pairwise_cons.2 ⟨fun c hc => ?_, seedInsert_sorted freq a l hm.2 hp.2⟩
      rcases List.mem_cons.1 ((seedInsert_perm freq a l).mem_iff.1 hc) with rfl | hc
      · exact seedBefore_total freq hm.1 (by simpa using hab)
      · exact hp.1 c hc

theorem foldr_seedInsert (freq : Symbol → Count) :
    ∀ l : List Symbol, l.Nodup →
      (l.foldr (seedInsert freq) []).Perm l ∧
        (l.foldr (seedInsert freq) []).Pairwise (fun x y => seedBefore freq x y = true)
  | [], _ => by simp
  | a :: l, h => by
    rw [List.nodup_cons] at h
    obtain ⟨hp, hs⟩ := foldr_seedInsert freq l h.2
    exact ⟨(seedInsert_perm freq a _).trans (hp.cons a), seedInsert_sorted freq a _ (fun hm => h.1 (hp.mem_iff.1 hm)) hs⟩

theorem allSymbols_nodup : allSymbols.Nodup := by
  refine List.Nodup.map_on (fun a ha b hb h => ?_) List.nodup_range
  rw [List.mem_range] at ha hb
  simpa [Nat.mod_eq_of_lt ha, Nat.mod_eq_of_lt hb] using congrArg BitVec.toNat h

theorem liveSymbols_nodup (freq : Symbol → Count) : (liveSymbols freq).Nodup := allSymbols_nodup.filter _

theorem mem_liveSymbols (freq : Symbol → Count) (x : Symbol) : x ∈ liveSymbols freq ↔ freq x ≠ 0#32 := by
  simp [liveSymbols]

/-- The seeds are the symbols with a non-zero count, each once. -/
theorem seedOrder_perm (freq : Symbol → Count) : (seedOrder freq).Perm (liveSymbols freq) :=
  (foldr_seedInsert freq _ (liveSymbols_nodup freq)).1

theorem seedOrder_sorted (freq : Symbol → Count) : (seedOrder freq).Pairwise (fun x y => seedBefore freq x y = true) :=
  (foldr_seedInsert freq _ (liveSymbols_nodup freq)).2

theorem length_seedOrder_le (freq : Symbol → Count) : (seedOrder freq).length ≤ 256 := by
  rw [(seedOrder_perm freq).length_eq]
  exact (List.length_filter_le _ _).trans (by simp [allSymbols])

/-- The leaves placed: entries `i .. i + l.length - 1` are the leaves in order, every other is as before. -/
theorem nodeIn_placeLeaves (freq : Symbol → Count) :
    ∀ (l : List Symbol) (m : Memory Node) (i : Nat), i + l.length ≤ 512 → ∀ j : NodeIdx,
      nodeIn (placeLeaves freq m i l) j =
        if h : i ≤ j.toNat ∧ j.toNat < i + l.length then leafNode (l[j.toNat - i]'(by omega)) (freq (l[j.toNat - i]'(by omega)))
        else nodeIn m j
  | [], m, i, _, j => by
    have : ¬ (i ≤ j.toNat ∧ j.toNat < i + 0) := by omega
    simp only [List.length_nil, this, dite_false, placeLeaves]
  | x :: l, m, i, hi, j => by
    simp only [List.length_cons] at hi
    have hmod : (BitVec.ofNat 9 i).toNat = i := by simp; omega
    rw [placeLeaves, nodeIn_placeLeaves freq l _ (i + 1) (by omega) j]
    by_cases h1 : i + 1 ≤ j.toNat ∧ j.toNat < i + 1 + l.length
    · have h2 : i ≤ j.toNat ∧ j.toNat < i + (x :: l).length := by simp; omega
      have h3 : j.toNat - i = (j.toNat - (i + 1)) + 1 := by omega
      simp only [h1, h2, and_self, dite_true, h3, List.getElem_cons_succ]
    · rw [dif_neg h1, nodeIn_nodePut]
      by_cases h4 : j = BitVec.ofNat 9 i
      · have hj : j.toNat = i := by rw [h4, hmod]
        have h2 : i ≤ j.toNat ∧ j.toNat < i + (x :: l).length := by simp; omega
        have h3 : j.toNat - i = 0 := by omega
        rw [dif_pos h2, if_pos h4]
        simp only [h3, List.getElem_cons_zero]
      · have hj : j.toNat ≠ i := fun he => h4 (BitVec.eq_of_toNat_eq (by rw [he, hmod]))
        have h2 : ¬ (i ≤ j.toNat ∧ j.toNat < i + (x :: l).length) := by simp; omega
        rw [dif_neg h2, if_neg h4]

/-! The queue. -/

/-- The queue's order as the pair compared. -/
theorem queueBefore_iff (m : Memory Node) (a b : NodeIdx) :
    queueBefore m a b = true ↔
      (nodeIn m a).weight.toNat < (nodeIn m b).weight.toNat ∨
        ((nodeIn m a).weight.toNat = (nodeIn m b).weight.toNat ∧ a.toNat < b.toNat) := by
  simp [queueBefore, ← BitVec.toNat_inj]

/-- The least among `best` and the list is one of them, and comes before every other. -/
theorem queueLeast_spec (m : Memory Node) :
    ∀ (q : List NodeIdx) (best : NodeIdx), queueLeast m best q ∈ best :: q ∧
      ∀ i ∈ best :: q, i ≠ queueLeast m best q → queueBefore m (queueLeast m best q) i = true
  | [], best => by simp [queueLeast]
  | a :: q, best => by
    rw [queueLeast]
    obtain ⟨hm, hl⟩ := queueLeast_spec m q (if queueBefore m a best then a else best)
    generalize hb : queueLeast m (if queueBefore m a best then a else best) q = r at hm hl
    refine ⟨?_, fun i hi hne => ?_⟩
    · rcases List.mem_cons.1 hm with h | h
      · split at h <;> simp [h]
      · simp [h]
    · by_cases hc : queueBefore m a best = true
      · simp only [hc, if_true] at hl hm
        rcases List.mem_cons.1 hi with rfl | hi
        · by_cases ha : a = r
          · rwa [← ha]
          · have := hl a (by simp) ha
            rw [queueBefore_iff] at *
            omega
        · exact hl i hi hne
      · simp only [hc] at hl hm
        rcases List.mem_cons.1 hi with rfl | hi
        · exact hl i (by simp) hne
        · rcases List.mem_cons.1 hi with rfl | hi
          · by_cases hbr : best = r
            · subst hbr
              have hnat : i.toNat ≠ best.toNat := fun he => hne (BitVec.eq_of_toNat_eq he)
              rw [queueBefore_iff] at *
              omega
            · have := hl best (by simp) hbr
              have hnat : i.toNat ≠ r.toNat := fun he => hne (BitVec.eq_of_toNat_eq he)
              rw [queueBefore_iff] at *
              omega
          · exact hl i (by simp [hi]) hne

/-- `PopMin`: the element taken comes before every other, and the queue is what was there without it. -/
theorem popMin_spec {m : Memory Node} {q q' : List NodeIdx} {l : NodeIdx} (h : popMin m q = some (l, q')) :
    q.Perm (l :: q') ∧ ∀ i ∈ q, i ≠ l → queueBefore m l i = true := by
  cases q with
  | nil => cases h
  | cons a q =>
    simp only [popMin, Option.some.injEq, Prod.mk.injEq] at h
    obtain ⟨rfl, rfl⟩ := h
    obtain ⟨hm, hl⟩ := queueLeast_spec m q a
    exact ⟨List.perm_cons_erase hm, hl⟩

theorem popMin_isSome (m : Memory Node) {q : List NodeIdx} (h : q ≠ []) : ∃ l q', popMin m q = some (l, q') := by
  cases q with
  | nil => exact absurd rfl h
  | cons a q => exact ⟨_, _, rfl⟩

/-- One merge of a queue of two or more: the two that come first leave it, the first as the left child of the new node. -/
theorem mergeLeast_spec (b : Builder) (h : 2 ≤ b.queue.length) :
    ∃ l r q, b.queue.Perm (l :: r :: q) ∧
      (∀ i ∈ b.queue, i ≠ l → queueBefore b.nodes l i = true) ∧
      (∀ i ∈ r :: q, i ≠ r → queueBefore b.nodes r i = true) ∧
      mergeLeast b =
        { nodes := nodePut b.nodes (BitVec.ofNat 9 b.free)
            (internalNode l r ((nodeIn b.nodes l).weight + (nodeIn b.nodes r).weight))
          queue := q ++ [BitVec.ofNat 9 b.free]
          free := b.free + 1 } := by
  obtain ⟨l, q1, h1⟩ := popMin_isSome b.nodes (q := b.queue) (by rintro he; simp [he] at h)
  obtain ⟨hp1, hl1⟩ := popMin_spec h1
  have hlen : b.queue.length = q1.length + 1 := by rw [hp1.length_eq]; simp
  obtain ⟨r, q2, h2⟩ := popMin_isSome b.nodes (q := q1) (by rintro rfl; simp at hlen; omega)
  obtain ⟨hp2, hl2⟩ := popMin_spec h2
  refine ⟨l, r, q2, hp1.trans (hp2.cons l), hl1, fun i hi => hl2 i (hp2.mem_iff.2 hi), ?_⟩
  simp only [mergeLeast, h1, h2]

theorem mergeTimes_succ (k : Nat) (b : Builder) : mergeTimes (k + 1) b = mergeLeast (mergeTimes k b) := by
  induction k generalizing b with
  | zero => rfl
  | succ k ih => rw [mergeTimes, ih, mergeTimes]

/-! The loop's invariant. -/

/-- Node `k` was made by merging the two that came first out of the queue (R132, R133). -/
structure MergedAt (nodeAt : NodeIdx → Node) (n k : Nat) : Prop where
  shape : ∃ l r w, nodeAt (BitVec.ofNat 9 k) = internalNode l r w
  left : Queued nodeAt n k (nodeAt (BitVec.ofNat 9 k)).left.toNat
  right : Queued nodeAt n k (nodeAt (BitVec.ofNat 9 k)).right.toNat
  differ : (nodeAt (BitVec.ofNat 9 k)).left.toNat ≠ (nodeAt (BitVec.ofNat 9 k)).right.toNat
  leftFirst : ∀ i, Queued nodeAt n k i → i ≠ (nodeAt (BitVec.ofNat 9 k)).left.toNat →
    ComesBefore nodeAt (nodeAt (BitVec.ofNat 9 k)).left.toNat i
  rightNext : ∀ i, Queued nodeAt n k i → i ≠ (nodeAt (BitVec.ofNat 9 k)).left.toNat →
    i ≠ (nodeAt (BitVec.ofNat 9 k)).right.toNat → ComesBefore nodeAt (nodeAt (BitVec.ofNat 9 k)).right.toNat i
  weight : (nodeAt (BitVec.ofNat 9 k)).weight =
    (nodeAt (nodeAt (BitVec.ofNat 9 k)).left).weight + (nodeAt (nodeAt (BitVec.ofNat 9 k)).right).weight

/-- What holds between merges over `n` leaves that stand as in `base`. -/
structure Merging (n : Nat) (base : NodeIdx → Node) (b : Builder) : Prop where
  some : n ≤ b.free
  count : b.queue.length + b.free = 2 * n
  nodup : b.queue.Nodup
  queued : ∀ i : NodeIdx, i ∈ b.queue ↔ Queued (nodeIn b.nodes) n b.free i.toNat
  leaves : ∀ j : NodeIdx, j.toNat < n → nodeIn b.nodes j = base j
  blank : ∀ j : NodeIdx, b.free ≤ j.toNat → nodeIn b.nodes j = Node.blank
  merged : ∀ k, n ≤ k → k < b.free → MergedAt (nodeIn b.nodes) n k

theorem toNat_idx {i : Nat} (h : i < 512) : (BitVec.ofNat 9 i).toNat = i := by simp; omega

/-- What node stands below `k` decides what is in the queue when `k` is made. -/
theorem queued_congr {nodeAt nodeAt' : NodeIdx → Node} {n k i : Nat}
    (h : ∀ j, n ≤ j → j < k → nodeAt (BitVec.ofNat 9 j) = nodeAt' (BitVec.ofNat 9 j)) :
    Queued nodeAt n k i ↔ Queued nodeAt' n k i := by
  refine and_congr_right fun _ => forall_congr' fun j => ?_
  refine forall_congr' fun h1 => forall_congr' fun h2 => ?_
  rw [h j h1 h2]

theorem comesBefore_congr {nodeAt nodeAt' : NodeIdx → Node} {a b : Nat}
    (ha : nodeAt (BitVec.ofNat 9 a) = nodeAt' (BitVec.ofNat 9 a)) (hb : nodeAt (BitVec.ofNat 9 b) = nodeAt' (BitVec.ofNat 9 b)) :
    ComesBefore nodeAt a b ↔ ComesBefore nodeAt' a b := by
  rw [ComesBefore, ComesBefore, ha, hb]

theorem queueBefore_comesBefore {m : Memory Node} {a b : NodeIdx} (h : queueBefore m a b = true) :
    ComesBefore (nodeIn m) a.toNat b.toNat := by
  rw [queueBefore_iff] at h
  simpa [ComesBefore, BitVec.ofNat_toNat, ← BitVec.toNat_inj] using h

/-- A node made earlier stays merged as it was when higher nodes are written. -/
theorem MergedAt.congr {nodeAt nodeAt' : NodeIdx → Node} {n k : Nat} (hm : MergedAt nodeAt n k)
    (h : ∀ j, j ≤ k → nodeAt (BitVec.ofNat 9 j) = nodeAt' (BitVec.ofNat 9 j)) : MergedAt nodeAt' n k := by
  have hk := h k (Nat.le_refl k)
  have hq : ∀ i, Queued nodeAt n k i ↔ Queued nodeAt' n k i := fun i => queued_congr (fun j _ hj => h j (by omega))
  have hi : ∀ i : NodeIdx, i.toNat < k → nodeAt i = nodeAt' i := fun i hi => by
    have := h i.toNat (by omega)
    simpa using this
  obtain ⟨h1, h2, h3, h4, h5, h6, h7⟩ := hm
  have hl := h2.1
  have hr := h3.1
  rw [hk] at h1 h2 h3 h4 h5 h6 h7 hl hr
  rw [hi _ hl, hi _ hr] at h7
  refine ⟨h1, (hq _).1 h2, (hq _).1 h3, h4, fun i hqi hne => ?_, fun i hqi hne hne' => ?_, h7⟩
  · have := h5 i ((hq _).2 hqi) hne
    rwa [comesBefore_congr (h _ (by omega)) (h _ (by have := hqi.1; omega))] at this
  · have := h6 i ((hq _).2 hqi) hne hne'
    rwa [comesBefore_congr (h _ (by omega)) (h _ (by have := hqi.1; omega))] at this

/-- The queue at the start: the leaves. -/
theorem merging_start {n : Nat} (hn : n ≤ 256) {m : Memory Node} (hb : ∀ j : NodeIdx, n ≤ j.toNat → nodeIn m j = Node.blank) :
    Merging n (nodeIn m) { nodes := m, queue := (List.range n).map (BitVec.ofNat 9), free := n } where
  some := Nat.le_refl n
  count := by simp; omega
  nodup := by
    refine List.Nodup.map_on (fun a ha b hb h => ?_) List.nodup_range
    rw [List.mem_range] at ha hb
    have := congrArg BitVec.toNat h
    rwa [toNat_idx (by omega), toNat_idx (by omega)] at this
  queued i := by
    simp only [List.mem_map, List.mem_range]
    constructor
    · rintro ⟨a, ha, rfl⟩
      exact ⟨by rw [toNat_idx (by omega)]; exact ha, fun j h1 h2 => by omega⟩
    · rintro ⟨h, -⟩
      exact ⟨i.toNat, h, by simp⟩
  leaves _ _ := rfl
  blank := hb
  merged k h1 h2 := by simp at h2; omega

/-- A merge keeps the invariant. -/
theorem Merging.mergeLeast {n : Nat} {base : NodeIdx → Node} {b : Builder} (hn : n ≤ 256) (hb : Merging n base b)
    (h2 : 2 ≤ b.queue.length) : Merging n base (mergeLeast b) := by
  obtain ⟨l, r, q, hp, hl, hr, he⟩ := mergeLeast_spec b h2
  have hcount := hb.count
  have hlen : b.queue.length = q.length + 2 := by rw [hp.length_eq]; simp
  have hk : b.free < 511 := by omega
  have hkn := toNat_idx (i := b.free) (by omega)
  have hnd := hp.nodup_iff.1 hb.nodup
  simp only [List.nodup_cons, List.mem_cons, not_or] at hnd
  obtain ⟨⟨hlr, hlq⟩, hrq, hqn⟩ := hnd
  have hql : Queued (nodeIn b.nodes) n b.free l.toNat := (hb.queued l).1 (hp.mem_iff.2 (by simp))
  have hqr : Queued (nodeIn b.nodes) n b.free r.toNat := (hb.queued r).1 (hp.mem_iff.2 (by simp))
  have hlk := hql.1
  have hrk := hqr.1
  rw [he]
  generalize hw : (nodeIn b.nodes l).weight + (nodeIn b.nodes r).weight = w
  generalize hm : nodePut b.nodes (BitVec.ofNat 9 b.free) (internalNode l r w) = m
  have hself : nodeIn m (BitVec.ofNat 9 b.free) = internalNode l r w := by rw [← hm, nodeIn_nodePut_self]
  have hold : ∀ j : NodeIdx, j.toNat ≠ b.free → nodeIn m j = nodeIn b.nodes j := fun j hj => by
    rw [← hm, nodeIn_nodePut_ne]
    rintro rfl
    exact hj hkn
  have hlow : ∀ j, j < b.free → nodeIn b.nodes (BitVec.ofNat 9 j) = nodeIn m (BitVec.ofNat 9 j) := fun j hj =>
    (hold _ (by rw [toNat_idx (by omega)]; omega)).symm
  have hqc : ∀ i, Queued (nodeIn b.nodes) n b.free i ↔ Queued (nodeIn m) n b.free i := fun i =>
    queued_congr (fun j _ hj => hlow j hj)
  have hql' : (internalNode l r w).left = l := rfl
  have hqr' : (internalNode l r w).right = r := rfl
  refine ⟨?_, ?_, ?_, ?_, ?_, ?_, ?_⟩
  · have := hb.some; simp; omega
  · simp; omega
  · refine List.Nodup.append hqn (by simp) ?_
    simp only [List.disjoint_singleton]
    intro hmem
    have := ((hb.queued _).1 (hp.mem_iff.2 (List.mem_cons_of_mem _ (List.mem_cons_of_mem _ hmem)))).1
    omega
  · intro i
    have hq1 : Queued (nodeIn m) n (b.free + 1) i.toNat ↔
        (i.toNat < b.free + 1 ∧ (∀ j, n ≤ j → j < b.free → (nodeIn m (BitVec.ofNat 9 j)).left.toNat ≠ i.toNat ∧
          (nodeIn m (BitVec.ofNat 9 j)).right.toNat ≠ i.toNat) ∧ l ≠ i ∧ r ≠ i) := by
      have hs := hb.some
      constructor
      · rintro ⟨h1, h2⟩
        have h3 := h2 b.free hs (by omega)
        rw [hself] at h3
        exact ⟨h1, fun j a c => h2 j a (by omega), fun hc => h3.1 (by rw [← hc]; rfl), fun hc => h3.2 (by rw [← hc]; rfl)⟩
      · rintro ⟨h1, h2, h3, h4⟩
        refine ⟨h1, fun j a c => ?_⟩
        by_cases hj : j = b.free
        · subst hj
          rw [hself]
          exact ⟨fun hc => h3 (BitVec.eq_of_toNat_eq hc), fun hc => h4 (BitVec.eq_of_toNat_eq hc)⟩
        · exact h2 j a (by omega)
    show i ∈ q ++ [BitVec.ofNat 9 b.free] ↔ Queued (nodeIn m) n (b.free + 1) i.toNat
    rw [hq1]
    simp only [List.mem_append, List.mem_singleton]
    constructor
    · rintro (h | rfl)
      · have hi := (hb.queued i).1 (hp.mem_iff.2 (List.mem_cons_of_mem _ (List.mem_cons_of_mem _ h)))
        have hi' := (hqc _).1 hi
        exact ⟨by have := hi.1; omega, hi'.2, fun hc => hlq (hc ▸ h), fun hc => hrq (hc ▸ h)⟩
      · refine ⟨by omega, fun j h1 h3 => ?_, ?_, ?_⟩
        · have hmj := hb.merged j h1 h3
          have ha := hmj.left.1
          have hc := hmj.right.1
          rw [hlow j h3] at ha hc
          omega
        · rintro rfl; omega
        · rintro rfl; omega
    · rintro ⟨h1, h3, h4, h5⟩
      by_cases hi : i.toNat = b.free
      · exact .inr (BitVec.eq_of_toNat_eq (by rw [hi, hkn]))
      · have : i ∈ b.queue := (hb.queued i).2 ((hqc _).2 ⟨by omega, h3⟩)
        have := hp.mem_iff.1 this
        simp only [List.mem_cons] at this
        rcases this with rfl | rfl | h
        · exact absurd rfl h4
        · exact absurd rfl h5
        · exact .inl h
  · intro j hj
    have hs := hb.some
    show nodeIn m j = base j
    rw [hold j (by omega), hb.leaves j hj]
  · intro j hj
    show nodeIn m j = Node.blank
    simp only at hj
    rw [hold j (by omega), hb.blank j (by omega)]
  · intro k h1 h3
    simp only at h3
    by_cases hkf : k = b.free
    · subst hkf
      have hbase : ∀ i, Queued (nodeIn m) n b.free i → (BitVec.ofNat 9 i) ∈ b.queue ∧ (BitVec.ofNat 9 i).toNat = i := fun i hi => by
        have hin := toNat_idx (i := i) (by have := hi.1; omega)
        exact ⟨(hb.queued _).2 (by rw [hin]; exact (hqc _).2 hi), hin⟩
      show MergedAt (nodeIn m) n b.free
      refine ⟨⟨l, r, w, hself⟩, ?_, ?_, ?_, fun i hi hne => ?_, fun i hi hne hne' => ?_, ?_⟩
      · rw [hself]; exact (hqc _).1 hql
      · rw [hself]; exact (hqc _).1 hqr
      · rw [hself]; exact fun hc => hlr (BitVec.eq_of_toNat_eq hc)
      · rw [hself] at hne ⊢
        obtain ⟨hmem, hin⟩ := hbase i hi
        have := queueBefore_comesBefore (hl _ hmem (by rintro rfl; exact hne hin.symm))
        rw [hin] at this
        rwa [comesBefore_congr (hlow _ hlk) (hlow _ hi.1)] at this
      · rw [hself] at hne hne' ⊢
        obtain ⟨hmem, hin⟩ := hbase i hi
        have hmem' : BitVec.ofNat 9 i ∈ r :: q := by
          have := hp.mem_iff.1 hmem
          rcases List.mem_cons.1 this with h | h
          · exact absurd (by rw [← h]; exact hin.symm) hne
          · exact h
        have := queueBefore_comesBefore (hr _ hmem' (by rintro rfl; exact hne' hin.symm))
        rw [hin] at this
        rwa [comesBefore_congr (hlow _ hrk) (hlow _ hi.1)] at this
      · rw [hself, hql', hqr', hold l (by omega), hold r (by omega), hw]
        rfl
    · exact (hb.merged k h1 (by omega)).congr (fun j hj => hlow j (by omega))

/-- `k` merges keep the invariant, as long as the queue has two elements before each. -/
theorem Merging.mergeTimes {n : Nat} {base : NodeIdx → Node} (hn : n ≤ 256) :
    ∀ (k : Nat) {b : Builder}, Merging n base b → b.free = n → k + 1 ≤ n →
      Merging n base (mergeTimes k b) ∧ (mergeTimes k b).free = n + k
  | 0, b, hb, hf, _ => ⟨hb, hf⟩
  | k + 1, b, hb, hf, hk => by
    obtain ⟨h1, h2⟩ := Merging.mergeTimes hn k hb hf (by omega)
    rw [mergeTimes_succ]
    have h3 := h1.count
    have h4 : 2 ≤ (Machine.mergeTimes k b).queue.length := by omega
    refine ⟨h1.mergeLeast hn h4, ?_⟩
    obtain ⟨l, r, q, -, -, -, he⟩ := mergeLeast_spec _ h4
    rw [he]
    show (Machine.mergeTimes k b).free + 1 = n + (k + 1)
    omega

/-! The trees in the queue. -/

/-- A held tree is still held when only entries that were EMPTY have been written. -/
theorem Holds.mono {nodeAt nodeAt' : NodeIdx → Node} (h : ∀ j, (nodeAt j).kind ≠ .empty → nodeAt' j = nodeAt j) :
    ∀ {T : CodeTree} {c : NodeIdx}, Holds nodeAt c T → Holds nodeAt' c T
  | .absent, _, hT => hT
  | .sentinel, c, ⟨h1, h2⟩ => ⟨h1, by rw [h c (by rw [h2]; decide)]; exact h2⟩
  | .leaf x, c, ⟨h1, h2, h3⟩ => by
    have := h c (by rw [h2]; decide)
    exact ⟨h1, by rw [this]; exact h2, by rw [this]; exact h3⟩
  | .node l r, c, ⟨h1, h2, h3, h4⟩ => by
    have := h c (by rw [h2]; decide)
    exact ⟨h1, by rw [this]; exact h2, by rw [this]; exact Holds.mono h h3, by rw [this]; exact Holds.mono h h4⟩

/-- The symbols of a tree's leaves. -/
def CodeTree.leaves (T : CodeTree) : List Symbol := T.codes.map Prod.fst

@[simp] theorem CodeTree.leaves_leaf (x : Symbol) : (CodeTree.leaf x).leaves = [x] := rfl

@[simp] theorem CodeTree.leaves_node (l r : CodeTree) : (CodeTree.node l r).leaves = l.leaves ++ r.leaves := by
  simp only [CodeTree.leaves, CodeTree.codes, List.map_append, List.map_map]
  rfl

/-- The sum of the counts of the symbols listed. -/
def countsOf (freq : Symbol → Count) (l : List Symbol) : Nat := (l.map (fun x => (freq x).toNat)).sum

theorem countsOf_append (freq : Symbol → Count) (l r : List Symbol) :
    countsOf freq (l ++ r) = countsOf freq l + countsOf freq r := by simp [countsOf]

theorem countsOf_perm (freq : Symbol → Count) {l r : List Symbol} (h : l.Perm r) : countsOf freq l = countsOf freq r :=
  (h.map _).sum_eq

theorem countsOf_le (freq : Symbol → Count) (l : List Symbol) : countsOf freq l ≤ l.length * (2 ^ 32 - 1) := by
  induction l with
  | nil => simp [countsOf]
  | cons x l ih =>
    have hx := (freq x).isLt
    simp only [countsOf, List.map_cons, List.sum_cons, List.length_cons] at *
    omega

/-- A strict tree without sentinels: its size and height against the number of its leaves. -/
theorem CodeTree.strict_size : ∀ {T : CodeTree}, T.strict → T.sentinels = 0 →
    T.size + 1 = 2 * T.leaves.length ∧ T.height + 1 ≤ T.leaves.length
  | .absent, h, _ => h.elim
  | .sentinel, _, h => by simp [CodeTree.sentinels] at h
  | .leaf x, _, _ => by simp [CodeTree.size, CodeTree.height]
  | .node l r, ⟨h1, h2⟩, h3 => by
    simp only [CodeTree.sentinels] at h3
    obtain ⟨a, b⟩ := CodeTree.strict_size h1 (by omega)
    obtain ⟨c, d⟩ := CodeTree.strict_size h2 (by omega)
    simp only [CodeTree.size, CodeTree.height, CodeTree.leaves_node, List.length_append]
    omega

/-- The weight of node `k` is the exact sum of its children's (R137). -/
def ExactAt (nodeAt : NodeIdx → Node) (k : Nat) : Prop :=
  (nodeAt (BitVec.ofNat 9 k)).weight.toNat =
    (nodeAt (nodeAt (BitVec.ofNat 9 k)).left).weight.toNat + (nodeAt (nodeAt (BitVec.ofNat 9 k)).right).weight.toNat

/-- Each index in the queue holds a strict tree; together their leaves are the seeds, and a tree's weight is the sum of the
counts of its leaves, and no sum of weights made so far has wrapped (R137). -/
def Forest (freq : Symbol → Count) (seeds : List Symbol) (n : Nat) (b : Builder) : Prop :=
  (∀ k, n ≤ k → k < b.free → ExactAt (nodeIn b.nodes) k) ∧ ∃ F : NodeIdx → CodeTree,
    (∀ i ∈ b.queue, Holds (nodeIn b.nodes) i (F i) ∧ (F i).strict ∧ (F i).sentinels = 0 ∧
      (nodeIn b.nodes i).weight.toNat = countsOf freq (F i).leaves) ∧
    (b.queue.flatMap (fun i => (F i).leaves)).Perm seeds

/-- A merge keeps the forest. -/
theorem Forest.mergeLeast {freq : Symbol → Count} {seeds : List Symbol} {n : Nat} {base : NodeIdx → Node} {b : Builder}
    (hn : n ≤ 256) (hs : seeds.length ≤ 256) (hb : Merging n base b) (hf : Forest freq seeds n b) (h2 : 2 ≤ b.queue.length) :
    Forest freq seeds n (mergeLeast b) := by
  obtain ⟨hex, F, hF, hperm⟩ := hf
  obtain ⟨l, r, q, hp, -, -, he⟩ := mergeLeast_spec b h2
  have hcount := hb.count
  have hlen : b.queue.length = q.length + 2 := by rw [hp.length_eq]; simp
  have hkn := toNat_idx (i := b.free) (by omega)
  have hlt : ∀ i ∈ b.queue, i.toNat < b.free := fun i hi => ((hb.queued i).1 hi).1
  have hmem : ∀ i ∈ q, i ∈ b.queue := fun i hi => hp.mem_iff.2 (List.mem_cons_of_mem _ (List.mem_cons_of_mem _ hi))
  obtain ⟨hl1, hl2, hl3, hl4⟩ := hF l (hp.mem_iff.2 (by simp))
  obtain ⟨hr1, hr2, hr3, hr4⟩ := hF r (hp.mem_iff.2 (by simp))
  have hperm' : ((F l).leaves ++ ((F r).leaves ++ q.flatMap (fun i => (F i).leaves))).Perm seeds := by
    simpa using (hp.flatMap_right (fun i => (F i).leaves)).symm.trans hperm
  have hsum := countsOf_perm freq hperm'
  rw [countsOf_append, countsOf_append] at hsum
  have htot := countsOf_le freq seeds
  rw [he]
  generalize hw : (nodeIn b.nodes l).weight + (nodeIn b.nodes r).weight = w
  have hwn : w.toNat = countsOf freq ((F l).leaves ++ (F r).leaves) := by
    rw [← hw, BitVec.toNat_add, hl4, hr4, countsOf_append, Nat.mod_eq_of_lt]
    have : seeds.length * (2 ^ 32 - 1) ≤ 256 * (2 ^ 32 - 1) := Nat.mul_le_mul_right _ hs
    omega
  generalize hm : nodePut b.nodes (BitVec.ofNat 9 b.free) (internalNode l r w) = m
  have hself : nodeIn m (BitVec.ofNat 9 b.free) = internalNode l r w := by rw [← hm, nodeIn_nodePut_self]
  have hblank : nodeIn b.nodes (BitVec.ofNat 9 b.free) = Node.blank := hb.blank _ (by omega)
  have hmono : ∀ j, (nodeIn b.nodes j).kind ≠ .empty → nodeIn m j = nodeIn b.nodes j := fun j hj => by
    rw [← hm, nodeIn_nodePut_ne]
    rintro rfl
    exact hj (by rw [hblank]; rfl)
  have hne : ∀ i ∈ b.queue, i ≠ BitVec.ofNat 9 b.free := fun i hi => by
    rintro rfl
    have := hlt _ hi
    omega
  have hbelow : ∀ i : NodeIdx, i.toNat < b.free → nodeIn m i = nodeIn b.nodes i := fun i hi => by
    rw [← hm, nodeIn_nodePut_ne]
    rintro rfl
    omega
  refine ⟨fun k h1 h3 => ?_, fun i => if i = BitVec.ofNat 9 b.free then .node (F l) (F r) else F i, fun i hi => ?_, ?_⟩
  · show ExactAt (nodeIn m) k
    by_cases hk : k = b.free
    · subst hk
      rw [ExactAt, hself]
      show w.toNat = (nodeIn m l).weight.toNat + (nodeIn m r).weight.toNat
      rw [hbelow l (hlt l (hp.mem_iff.2 (by simp))), hbelow r (hlt r (hp.mem_iff.2 (by simp))), hl4, hr4, hwn, countsOf_append]
    · have hk' : k < b.free := by
        have : k < b.free + 1 := h3
        omega
      have hmk := hb.merged k h1 hk'
      have hl' := hmk.left.1
      have hr' := hmk.right.1
      have := hex k h1 hk'
      rw [ExactAt] at this ⊢
      rw [hbelow (BitVec.ofNat 9 k) (by rw [toNat_idx (by omega)]; omega), hbelow _ (by omega), hbelow _ (by omega)]
      exact this
  · rcases List.mem_append.1 hi with hq | hk
    · obtain ⟨h1, h3, h4, h5⟩ := hF i (hmem i hq)
      have hik := hne i (hmem i hq)
      simp only [hik, if_false]
      refine ⟨h1.mono hmono, h3, h4, ?_⟩
      rw [← h5, ← hm, nodeIn_nodePut_ne _ _ hik]
    · rw [List.mem_singleton] at hk
      subst hk
      simp only [if_true]
      refine ⟨⟨?_, ?_, ?_, ?_⟩, ⟨hl2, hr2⟩, ?_, ?_⟩
      · intro hc
        have := congrArg BitVec.toNat hc
        rw [hkn] at this
        simp [Config.nil] at this
        omega
      · show (nodeIn m _).kind = _
        rw [hself]; rfl
      · show Holds (nodeIn m) (nodeIn m _).left (F l)
        rw [hself]; exact hl1.mono hmono
      · show Holds (nodeIn m) (nodeIn m _).right (F r)
        rw [hself]; exact hr1.mono hmono
      · simp only [CodeTree.sentinels]; omega
      · show (nodeIn m _).weight.toNat = _
        rw [hself, CodeTree.leaves_node, ← hwn]; rfl
  · have hq : q.flatMap (fun i => (if i = BitVec.ofNat 9 b.free then CodeTree.node (F l) (F r) else F i).leaves) =
        q.flatMap (fun i => (F i).leaves) := by
      refine List.flatMap_congr (fun i hi => ?_)
      rw [if_neg (hne i (hmem i hi))]
    show ((q ++ [BitVec.ofNat 9 b.free]).flatMap _).Perm seeds
    rw [List.flatMap_append, hq]
    simp only [List.flatMap_cons, List.flatMap_nil, if_true, CodeTree.leaves_node, List.append_nil]
    refine List.perm_append_comm.trans ?_
    rw [List.append_assoc]
    exact hperm'

/-- The forest after `k` merges. -/
theorem Forest.mergeTimes {freq : Symbol → Count} {seeds : List Symbol} {n : Nat} {base : NodeIdx → Node} (hn : n ≤ 256)
    (hs : seeds.length ≤ 256) :
    ∀ (k : Nat) {b : Builder}, Merging n base b → b.free = n → k + 1 ≤ n → Forest freq seeds n b →
      Forest freq seeds n (mergeTimes k b)
  | 0, _, _, _, _, hf => hf
  | k + 1, b, hb, hb', hk, hf => by
    have h1 := Forest.mergeTimes hn hs k hb hb' (by omega) hf
    obtain ⟨h2, h3⟩ := hb.mergeTimes hn k hb' (by omega)
    rw [mergeTimes_succ]
    have := h2.count
    exact h1.mergeLeast hn hs h2 (by omega)

/-! The whole of BUILD. -/

/-- What NODE holds after BUILD of two symbols or more. -/
structure Built (freq : Symbol → Count) (m : Memory Node) : Prop where
  leaves : ∀ (i : Nat) (h : i < (seedOrder freq).length),
    nodeIn m (BitVec.ofNat 9 i) = leafNode (seedOrder freq)[i] (freq (seedOrder freq)[i])
  merged : ∀ k, (seedOrder freq).length ≤ k → k ≤ 2 * (seedOrder freq).length - 2 →
    MergedAt (nodeIn m) (seedOrder freq).length k
  rest : ∀ i : NodeIdx, 2 * (seedOrder freq).length - 2 < i.toNat → nodeIn m i = Node.blank
  exact : ∀ k, (seedOrder freq).length ≤ k → k ≤ 2 * (seedOrder freq).length - 2 → ExactAt (nodeIn m) k
  onlyRoot : ∀ i : NodeIdx, Queued (nodeIn m) (seedOrder freq).length (2 * (seedOrder freq).length - 1) i.toNat ↔
    i.toNat = 2 * (seedOrder freq).length - 2
  tree : ∃ T : CodeTree, Holds (nodeIn m) (BitVec.ofNat 9 (2 * (seedOrder freq).length - 2)) T ∧ T.strict ∧ T.sentinels = 0 ∧
    T.leaves.Perm (seedOrder freq) ∧
    (nodeIn m (BitVec.ofNat 9 (2 * (seedOrder freq).length - 2))).weight.toNat = countsOf freq (seedOrder freq)

/-- BUILD of two symbols or more (R130, R134). -/
theorem buildTree_many {freq : Symbol → Count} (h : 2 ≤ (seedOrder freq).length) :
    ∃ m, buildTree freq = .ok (m, { valid := true, root := BitVec.ofNat 9 (2 * (seedOrder freq).length - 2) }) ∧
      Built freq m := by
  have h256 := length_seedOrder_le freq
  generalize hn : (seedOrder freq).length = n at h h256
  generalize hs : seedOrder freq = seeds at hn
  generalize hm0 : placeLeaves freq [] 0 seeds = m0
  have hplace : ∀ j : NodeIdx, nodeIn m0 j =
      if h : j.toNat < n then leafNode (seeds[j.toNat]'(by omega)) (freq (seeds[j.toNat]'(by omega))) else Node.blank := fun j => by
    rw [← hm0, nodeIn_placeLeaves freq seeds [] 0 (by omega) j]
    by_cases hj : j.toNat < n
    · rw [dif_pos ⟨Nat.zero_le _, by omega⟩, dif_pos hj]
      rfl
    · rw [dif_neg (by omega), dif_neg hj, nodeIn_nil]
  have hstart := merging_start (n := n) h256 (m := m0) (fun j hj => by rw [hplace, dif_neg (by omega)])
  obtain ⟨hM, hfree⟩ := hstart.mergeTimes h256 (n - 1) rfl (by omega)
  have hforest : Forest freq seeds n { nodes := m0, queue := (List.range n).map (BitVec.ofNat 9), free := n } := by
    refine ⟨fun k h1 h3 => by simp at h3; omega, fun i => .leaf (nodeIn m0 i).sym, fun i hi => ?_, ?_⟩
    · obtain ⟨a, ha, rfl⟩ := List.mem_map.1 hi
      rw [List.mem_range] at ha
      have hidx := toNat_idx (i := a) (by omega)
      have hleaf := hplace (BitVec.ofNat 9 a)
      rw [dif_pos (by omega)] at hleaf
      refine ⟨⟨fun hc => ?_, ?_, ?_⟩, trivial, rfl, ?_⟩
      · have := congrArg BitVec.toNat hc
        rw [hidx] at this
        simp [Config.nil] at this
        omega
      · rw [hleaf]; rfl
      · rfl
      · rw [CodeTree.leaves_leaf, hleaf]
        simp only [countsOf, leafNode, List.map_cons, List.map_nil, List.sum_cons, List.sum_nil, Nat.add_zero,
          BitVec.toNat_setWidth]
        exact Nat.mod_eq_of_lt (Nat.lt_of_lt_of_le (BitVec.isLt _) (by decide))
    · have : ((List.range n).map (BitVec.ofNat 9)).flatMap (fun i => (CodeTree.leaf (nodeIn m0 i).sym).leaves) = seeds := by
        simp only [CodeTree.leaves_leaf]
        rw [← List.map_eq_flatMap, List.map_map]
        refine List.ext_getElem (by simp [hn]) (fun i h1 h2 => ?_)
        have hidx := toNat_idx (i := i) (by omega)
        simp only [List.getElem_map, List.getElem_range, Function.comp_apply]
        rw [hplace, dif_pos (by omega)]
        simp only [hidx]
        rfl
      rw [this]
  obtain ⟨hex, F, hF, hperm⟩ := hforest.mergeTimes h256 (by omega) (n - 1) hstart rfl (by omega)
  have hbuild : buildTree freq = .ok ((mergeTimes (n - 1) ⟨m0, (List.range n).map (BitVec.ofNat 9), n⟩).nodes,
      { valid := true, root := BitVec.ofNat 9 ((mergeTimes (n - 1) ⟨m0, (List.range n).map (BitVec.ofNat 9), n⟩).free - 1) }) := by
    unfold buildTree
    rw [hs]
    split
    · simp at hn; omega
    · simp at hn; omega
    · rw [hn, hm0]
  generalize mergeTimes (n - 1) ⟨m0, (List.range n).map (BitVec.ofNat 9), n⟩ = b at *
  have hroot : (BitVec.ofNat 9 (2 * n - 2)).toNat = 2 * n - 2 := toNat_idx (by omega)
  have hf : b.free = 2 * n - 1 := by omega
  have hq1 : BitVec.ofNat 9 (2 * n - 2) ∈ b.queue := by
    refine (hM.queued _).2 ⟨by omega, fun j h1 h2 => ?_⟩
    have hmj := hM.merged j h1 h2
    have := hmj.left.1
    have := hmj.right.1
    omega
  have hq : b.queue = [BitVec.ofNat 9 (2 * n - 2)] := by
    have hc := hM.count
    obtain ⟨x, hx⟩ := List.length_eq_one_iff.1 (show b.queue.length = 1 by omega)
    rw [hx] at hq1 ⊢
    rw [List.mem_singleton.1 hq1]
  refine ⟨b.nodes, ?_, ?_⟩
  · rw [hbuild, hf]
    rfl
  · subst hs
    subst hn
    refine ⟨fun i hi => ?_, fun k h1 h2 => hM.merged k h1 (by omega), fun i hi => hM.blank i (by omega),
      fun k h1 h2 => hex k h1 (by omega), fun i => ?_, ?_⟩
    · have hidx := toNat_idx (i := i) (by omega)
      rw [hM.leaves _ (by omega), hplace, dif_pos (by omega)]
      simp only [hidx]
    · rw [← hf, ← hM.queued, hq, List.mem_singleton]
      constructor
      · rintro rfl; exact hroot
      · intro hi
        exact BitVec.eq_of_toNat_eq (by omega)
    · obtain ⟨h1, h2, h3, h4⟩ := hF _ hq1
      rw [hq] at hperm
      simp only [List.flatMap_cons, List.flatMap_nil, List.append_nil] at hperm
      exact ⟨_, h1, h2, h3, hperm, by rw [h4, countsOf_perm freq hperm]⟩

/-- BUILD of no symbol (R136). -/
theorem buildTree_none {freq : Symbol → Count} (h : seedOrder freq = []) : buildTree freq = .error .emptyInput := by
  unfold buildTree
  rw [h]

/-- BUILD of one symbol (R135). -/
theorem buildTree_one {freq : Symbol → Count} {x : Symbol} (h : seedOrder freq = [x]) :
    buildTree freq =
      .ok (nodePut (nodePut (nodePut [] 0#9 (leafNode x (freq x))) 1#9 sentinelNode) 2#9
        (internalNode 0#9 1#9 (leafNode x (freq x)).weight), { valid := true, root := 2#9 }) := by
  unfold buildTree
  rw [h]

end Sys2Proof.Machine
end

