-- ==== Sys2Proof/Laws/Config.lean ====
section
/-! SUPPORT. The fixed parameters as numerals, so that arithmetic sees them. -/

namespace Sys2Proof

@[simp] theorem Config.nsym_eq : Config.nsym = 256 := rfl
@[simp] theorem Config.nodeCap_eq : Config.nodeCap = 512 := rfl
@[simp] theorem Config.maxNodes_eq : Config.maxNodes = 511 := rfl
@[simp] theorem Config.maxVisits_eq : Config.maxVisits = 510 := rfl
@[simp] theorem Config.maxCodeLen_eq : Config.maxCodeLen = 255 := rfl
@[simp] theorem Config.symbufCap_eq : Config.symbufCap = 4096 := rfl
@[simp] theorem Config.bitbufCap_eq : Config.bitbufCap = 32768 := rfl
@[simp] theorem Config.bitbufWords_eq : Config.bitbufWords = 1024 := rfl
@[simp] theorem Config.windowSize_eq : Config.windowSize = 0x20000 := rfl
@[simp] theorem Config.resetHoldCycles_pos : 0 < Config.resetHoldCycles := Nat.succ_pos _

end Sys2Proof
end

