-- ==== Sys2Proof/Laws/HostAccess.lean ====
section
/-! SUPPORT. What a host access can do: when it is admitted, and what it does then. -/

namespace Sys2Proof.Machine

/-- An access that has a meaning: 32 bits wide, word aligned, in the window (R60, R62, R63). -/
theorem access_iff (addr size : Nat) :
    WellFormed.access addr size = true ↔ size = 4 ∧ addr % 4 = 0 ∧ addr < 0x20000 := by
  simp [WellFormed.access, WellFormed.accessSize, WellFormed.accessAligned, WellFormed.accessInWindow, and_assoc]

/-- An access is admitted exactly when it has a meaning and reset is not held. -/
theorem accessRefusal_eq_none_iff (s : State) (addr size : Nat) :
    accessRefusal s addr size = none ↔ s.resetHeld = 0 ∧ size = 4 ∧ addr % 4 = 0 ∧ addr < 0x20000 := by
  rw [← access_iff]
  unfold accessRefusal WellFormed.access
  by_cases h : s.resetHeld = 0 <;> cases WellFormed.accessSize size <;> cases WellFormed.accessAligned addr <;>
    cases WellFormed.accessInWindow addr <;> simp [h]

theorem accessRefusal_word {s : State} {addr : Nat} (hr : s.resetHeld = 0) (ha : addr % 4 = 0) (hlt : addr < 0x20000) :
    accessRefusal s addr 4 = none := (accessRefusal_eq_none_iff s addr 4).2 ⟨hr, rfl, ha, hlt⟩

/-- A host read: refused, or the reply recorded. -/
theorem hostRead_next {addr size : Nat} {s t : State} (h : hostRead addr size s = .next t) :
    t = readLoc addr (locOf addr) s ∧ accessRefusal s addr size = none := by
  unfold hostRead at h
  split at h
  · cases h
  · cases h
    exact ⟨rfl, ‹_›⟩

/-- A host write: refused, or the word written. -/
theorem hostWrite_next {addr size : Nat} {v : Word} {s t : State} (h : hostWrite addr size v s = .next t) :
    t = writeLoc (locOf addr) v s ∧ accessRefusal s addr size = none := by
  unfold hostWrite at h
  split at h
  · cases h
  · cases h
    exact ⟨rfl, ‹_›⟩

/-- What an admitted read can do: a value of the word, or a free value, is recorded, and nothing else changes. -/
theorem readLoc_cases (addr : Nat) (l : Loc) (s : State) :
    readLoc addr l s = s.reply addr (s.wordAt l) ∨ (s.busy = true ∧ readLoc addr l s = s.replyAny addr) := by
  unfold readLoc
  split
  · rename_i h
    simp at h
    exact .inr ⟨by simpa [State.busy] using h.1.1, rfl⟩
  · exact .inl rfl

/-- What an admitted write can do: while BUSY, for any word but CTRL and STATUS, only OVERRUN is set; else the word is stored. -/
theorem writeLoc_cases (l : Loc) (v : Word) (s : State) :
    (s.busy = true ∧ writableBusy l = false ∧ writeLoc l v s = { s with overrun := true }) ∨
      ((s.busy = false ∨ writableBusy l = true) ∧ writeLoc l v s = s.storeWord v l) := by
  unfold writeLoc
  cases hb : s.busy <;> cases hw : writableBusy l <;> simp

end Sys2Proof.Machine
end

