-- ==== Sys2Proof/Laws/Map.lean ====
section
/-! SUPPORT. The laws of the register map: what a word reads after it is stored, and which fields a store can change. -/

namespace Sys2Proof.Machine

@[simp] theorem Kind.ofBits_bits (k : Kind) : Kind.ofBits k.bits = k := by cases k <;> rfl

@[simp] theorem Kind.bits_ofBits (b : BitVec 2) : (Kind.ofBits b).bits = b := by revert b; decide

/-- A TREE word read after a write: the named bits as written (R30). -/
theorem TreeReg.word_ofWord (v : Word) : (TreeReg.ofWord v).word = v &&& Loc.tree.namedBits := by
  simp only [TreeReg.word, TreeReg.ofWord, Loc.namedBits]
  apply BitVec.eq_of_getLsbD_eq
  intro j hj
  simp only [BitVec.getLsbD_append, BitVec.getLsbD_and, BitVec.getLsbD_extractLsb', BitVec.getLsbD_zero]
  interval_cases j <;> simp [-BitVec.getLsbD_eq_getElem]

/-- A NODE word read after it is written: the named bits as written (R34). -/
theorem Node.word_withWord (n : Node) (i : NodeIdx) (k : Fin 4) (v : Word) :
    (n.withWord k v).word k = v &&& (Loc.node i k).namedBits := by
  match k with
  | 0 =>
    simp only [Node.word, Node.withWord, Kind.bits_ofBits, Loc.namedBits]
    apply BitVec.eq_of_getLsbD_eq
    intro j hj
    simp only [BitVec.getLsbD_append, BitVec.getLsbD_and, BitVec.getLsbD_extractLsb', BitVec.getLsbD_zero]
    interval_cases j <;> simp [-BitVec.getLsbD_eq_getElem]
  | 1 =>
    simp only [Node.word, Node.withWord, Loc.namedBits]
    apply BitVec.eq_of_getLsbD_eq
    intro j hj
    simp only [BitVec.getLsbD_append, BitVec.getLsbD_and, BitVec.getLsbD_extractLsb', BitVec.getLsbD_zero]
    interval_cases j <;> simp [-BitVec.getLsbD_eq_getElem]
  | 2 =>
    simp only [Node.word, Node.withWord, Loc.namedBits]
    apply BitVec.eq_of_getLsbD_eq
    intro j hj
    simp only [BitVec.getLsbD_append, BitVec.getLsbD_and, BitVec.getLsbD_extractLsb']
    interval_cases j <;> simp [-BitVec.getLsbD_eq_getElem]
  | 3 =>
    simp only [Node.word, Node.withWord, Loc.namedBits]
    apply BitVec.eq_of_getLsbD_eq
    intro j hj
    simp only [BitVec.getLsbD_append, BitVec.getLsbD_and, BitVec.getLsbD_extractLsb', BitVec.getLsbD_zero]
    interval_cases j <;> simp [-BitVec.getLsbD_eq_getElem]

/-- The other words of a NODE entry read as before (R34). -/
theorem Node.word_withWord_ne (n : Node) {k k' : Fin 4} (v : Word) (h : k' ≠ k) : (n.withWord k v).word k' = n.word k' := by
  match k, k' with
  | 0, 0 => exact absurd rfl h
  | 1, 1 => exact absurd rfl h
  | 2, 2 => exact absurd rfl h
  | 3, 3 => exact absurd rfl h
  | 0, 1 => rfl
  | 0, 2 => rfl
  | 0, 3 => rfl
  | 1, 0 => rfl
  | 1, 2 => rfl
  | 1, 3 => rfl
  | 2, 0 => rfl
  | 2, 1 => rfl
  | 2, 3 =>
    simp only [Node.word, Node.withWord]
    congr 1
    apply BitVec.eq_of_getLsbD_eq
    intro j hj
    simp only [BitVec.getLsbD_append, BitVec.getLsbD_extractLsb']
    interval_cases j <;> simp [-BitVec.getLsbD_eq_getElem]
  | 3, 0 => rfl
  | 3, 1 => rfl
  | 3, 2 =>
    simp only [Node.word, Node.withWord]
    apply BitVec.eq_of_getLsbD_eq
    intro j hj
    simp only [BitVec.getLsbD_append, BitVec.getLsbD_extractLsb']
    interval_cases j <;> simp [-BitVec.getLsbD_eq_getElem]

/-- Bit `i` of a codeword field after one of its words is replaced (R36). -/
theorem getLsbD_putCwWord (cw : BitVec 256) (j : Nat) (v : Word) (i : Nat) (hi : i < 256) :
    (putCwWord cw j v).getLsbD i = if 32 * j ≤ i ∧ i < 32 * j + 32 then v.getLsbD (i - 32 * j) else cw.getLsbD i := by
  have h32 : (0xFFFFFFFF#32).getLsbD (i - 32 * j) = decide (i - 32 * j < 32) := by
    have : (0xFFFFFFFF#32) = BitVec.allOnes 32 := rfl
    rw [this, BitVec.getLsbD_allOnes]
  simp only [putCwWord, BitVec.getLsbD_or, BitVec.getLsbD_and, BitVec.getLsbD_not, BitVec.getLsbD_shiftLeft,
    BitVec.getLsbD_setWidth, h32]
  by_cases h1 : i < 32 * j
  · have h1' : ¬ 32 * j ≤ i := by omega
    simp [h1, h1', hi, -BitVec.getLsbD_eq_getElem]
  · have h1' : 32 * j ≤ i := by omega
    have h3 : i - 32 * j < 256 := by omega
    by_cases h2 : i - 32 * j < 32
    · have : i < 32 * j + 32 := by omega
      simp [h1, h1', h2, h3, this, hi, -BitVec.getLsbD_eq_getElem]
    · have h4 : ¬ i < 32 * j + 32 := by omega
      have : v.getLsbD (i - 32 * j) = false := BitVec.getLsbD_of_ge _ _ (by omega)
      simp [h1, h1', h2, h3, h4, hi, this, -BitVec.getLsbD_eq_getElem]

/-- A CODE word read after it is written: the named bits as written (R36). -/
theorem CodeEntry.word_withWord (e : CodeEntry) (x : Symbol) (k : Fin 16) (v : Word) :
    (e.withWord k v).word k = v &&& (Loc.code x k).namedBits := by
  by_cases h0 : k.val = 0
  · simp only [CodeEntry.word, CodeEntry.withWord, Loc.namedBits, h0, if_true]
    apply BitVec.eq_of_getLsbD_eq
    intro j hj
    simp only [BitVec.getLsbD_append, BitVec.getLsbD_and, BitVec.getLsbD_extractLsb', BitVec.getLsbD_zero]
    interval_cases j <;> simp [-BitVec.getLsbD_eq_getElem]
  · by_cases h8 : k.val ≤ 8
    · simp only [CodeEntry.word, CodeEntry.withWord, Loc.namedBits, h0, h8, if_false, if_true]
      apply BitVec.eq_of_getLsbD_eq
      intro j hj
      have hones : (0xFFFFFFFF#32) = BitVec.allOnes 32 := rfl
      rw [BitVec.getLsbD_extractLsb', getLsbD_putCwWord _ _ _ _ (by omega), BitVec.getLsbD_and, hones,
        BitVec.getLsbD_allOnes]
      have h1 : 32 * (k.val - 1) ≤ 32 * (k.val - 1) + j ∧ 32 * (k.val - 1) + j < 32 * (k.val - 1) + 32 := by omega
      simp only [h1, hj, and_self, if_true, decide_true, Bool.true_and, Bool.and_true]
      congr 1
      omega
    · simp [CodeEntry.word, Loc.namedBits, h0, h8]

/-- The other words of a CODE entry read as before (R36). -/
theorem CodeEntry.word_withWord_ne (e : CodeEntry) {k k' : Fin 16} (v : Word) (h : k' ≠ k) :
    (e.withWord k v).word k' = e.word k' := by
  have hv : k'.val ≠ k.val := fun hv => h (Fin.ext hv)
  by_cases h0 : k.val = 0
  · have h0' : k'.val ≠ 0 := by omega
    simp [CodeEntry.word, CodeEntry.withWord, h0, h0']
  · by_cases h8 : k.val ≤ 8
    · by_cases h0' : k'.val = 0
      · simp [CodeEntry.word, CodeEntry.withWord, h0, h8, h0']
      · by_cases h8' : k'.val ≤ 8
        · simp only [CodeEntry.word, CodeEntry.withWord, h0, h8, h0', h8', if_false, if_true]
          apply BitVec.eq_of_getLsbD_eq
          intro j hj
          rw [BitVec.getLsbD_extractLsb', BitVec.getLsbD_extractLsb', getLsbD_putCwWord _ _ _ _ (by omega), if_neg (by omega)]
        · simp [CodeEntry.word, h0', h8']
    · simp [CodeEntry.withWord, h0, h8]

/-! What storing a word can do. -/

/-- Reading FREQ after one entry is written (R31). -/
theorem freqAt_write (s : State) (x y : Symbol) (v : Count) :
    ({ s with freq := Memory.write (some 0#32) s.freq x.toNat v } : State).freqAt y = if y = x then v else s.freqAt y := by
  simp only [State.freqAt, Memory.read_write]
  by_cases h : y = x
  · simp [h]
  · have : ¬ y.toNat = x.toNat := fun hn => h (BitVec.eq_of_toNat_eq hn)
    simp [h, this]

/-- Every store leaves the engine's schedule, the replies, the free values and the reset alone. -/
theorem storeWord_model_fields (s : State) (v : Word) (l : Loc) :
    (s.storeWord v l).inputs = s.inputs ∧ (s.storeWord v l).replies = s.replies ∧ (s.storeWord v l).draws = s.draws ∧
      (s.storeWord v l).resets = s.resets ∧ (s.storeWord v l).resetHeld = s.resetHeld := by
  cases l <;> exact ⟨rfl, rfl, rfl, rfl, rfl⟩

/-- Only a write to CMD moves the engine, and it leaves it BUSY with the word (R110). -/
theorem storeWord_engine (s : State) (v : Word) (l : Loc) :
    (s.storeWord v l).engine = if l = .cmd then .busy v else s.engine := by
  cases l <;> simp [State.storeWord, State.accept, State.writeStatus]

/-- Only acceptance, by a write to CMD, touches ERRCODE, LASTOP, ERR_POS and ERR_AUX (R110). -/
theorem storeWord_errors (s : State) (v : Word) (l : Loc) (h : l ≠ .cmd) :
    (s.storeWord v l).errcode = s.errcode ∧ (s.storeWord v l).lastop = s.lastop ∧ (s.storeWord v l).errPos = s.errPos ∧
      (s.storeWord v l).errAux = s.errAux := by
  cases l <;> first | exact absurd rfl h | exact ⟨rfl, rfl, rfl, rfl⟩

end Sys2Proof.Machine
end

