-- ==== Sys2Proof/Laws/State.lean ====
section
/-! SUPPORT. One lemma per field of State and per named update: what the field holds afterwards. -/

namespace Sys2Proof.Machine

/-! `State.withInputs` -/

@[simp] theorem State.withInputs_engine (rest : List Input) (s : State) : (s.withInputs rest).engine = s.engine := rfl
@[simp] theorem State.withInputs_irqEn (rest : List Input) (s : State) : (s.withInputs rest).irqEn = s.irqEn := rfl
@[simp] theorem State.withInputs_done (rest : List Input) (s : State) : (s.withInputs rest).done = s.done := rfl
@[simp] theorem State.withInputs_overrun (rest : List Input) (s : State) : (s.withInputs rest).overrun = s.overrun := rfl
@[simp] theorem State.withInputs_errcode (rest : List Input) (s : State) : (s.withInputs rest).errcode = s.errcode := rfl
@[simp] theorem State.withInputs_lastop (rest : List Input) (s : State) : (s.withInputs rest).lastop = s.lastop := rfl
@[simp] theorem State.withInputs_errPos (rest : List Input) (s : State) : (s.withInputs rest).errPos = s.errPos := rfl
@[simp] theorem State.withInputs_errAux (rest : List Input) (s : State) : (s.withInputs rest).errAux = s.errAux := rfl
@[simp] theorem State.withInputs_tree (rest : List Input) (s : State) : (s.withInputs rest).tree = s.tree := rfl
@[simp] theorem State.withInputs_symLen (rest : List Input) (s : State) : (s.withInputs rest).symLen = s.symLen := rfl
@[simp] theorem State.withInputs_bitLen (rest : List Input) (s : State) : (s.withInputs rest).bitLen = s.bitLen := rfl
@[simp] theorem State.withInputs_freq (rest : List Input) (s : State) : (s.withInputs rest).freq = s.freq := rfl
@[simp] theorem State.withInputs_node (rest : List Input) (s : State) : (s.withInputs rest).node = s.node := rfl
@[simp] theorem State.withInputs_code (rest : List Input) (s : State) : (s.withInputs rest).code = s.code := rfl
@[simp] theorem State.withInputs_symbuf (rest : List Input) (s : State) : (s.withInputs rest).symbuf = s.symbuf := rfl
@[simp] theorem State.withInputs_bitbuf (rest : List Input) (s : State) : (s.withInputs rest).bitbuf = s.bitbuf := rfl
@[simp] theorem State.withInputs_resetHeld (rest : List Input) (s : State) : (s.withInputs rest).resetHeld = s.resetHeld := rfl
@[simp] theorem State.withInputs_inputs (rest : List Input) (s : State) : (s.withInputs rest).inputs = rest := rfl
@[simp] theorem State.withInputs_replies (rest : List Input) (s : State) : (s.withInputs rest).replies = s.replies := rfl
@[simp] theorem State.withInputs_draws (rest : List Input) (s : State) : (s.withInputs rest).draws = s.draws := rfl
@[simp] theorem State.withInputs_resets (rest : List Input) (s : State) : (s.withInputs rest).resets = s.resets := rfl

/-! `State.accept` -/

@[simp] theorem State.accept_engine (v : Word) (s : State) : (s.accept v).engine = .busy v := rfl
@[simp] theorem State.accept_irqEn (v : Word) (s : State) : (s.accept v).irqEn = s.irqEn := rfl
@[simp] theorem State.accept_done (v : Word) (s : State) : (s.accept v).done = false := rfl
@[simp] theorem State.accept_overrun (v : Word) (s : State) : (s.accept v).overrun = s.overrun := rfl
@[simp] theorem State.accept_errcode (v : Word) (s : State) : (s.accept v).errcode = .ok := rfl
@[simp] theorem State.accept_lastop (v : Word) (s : State) : (s.accept v).lastop = v.extractLsb' 0 8 := rfl
@[simp] theorem State.accept_errPos (v : Word) (s : State) : (s.accept v).errPos = 0#32 := rfl
@[simp] theorem State.accept_errAux (v : Word) (s : State) : (s.accept v).errAux = 0#32 := rfl
@[simp] theorem State.accept_tree (v : Word) (s : State) : (s.accept v).tree = s.tree := rfl
@[simp] theorem State.accept_symLen (v : Word) (s : State) : (s.accept v).symLen = s.symLen := rfl
@[simp] theorem State.accept_bitLen (v : Word) (s : State) : (s.accept v).bitLen = s.bitLen := rfl
@[simp] theorem State.accept_freq (v : Word) (s : State) : (s.accept v).freq = s.freq := rfl
@[simp] theorem State.accept_node (v : Word) (s : State) : (s.accept v).node = s.node := rfl
@[simp] theorem State.accept_code (v : Word) (s : State) : (s.accept v).code = s.code := rfl
@[simp] theorem State.accept_symbuf (v : Word) (s : State) : (s.accept v).symbuf = s.symbuf := rfl
@[simp] theorem State.accept_bitbuf (v : Word) (s : State) : (s.accept v).bitbuf = s.bitbuf := rfl
@[simp] theorem State.accept_resetHeld (v : Word) (s : State) : (s.accept v).resetHeld = s.resetHeld := rfl
@[simp] theorem State.accept_inputs (v : Word) (s : State) : (s.accept v).inputs = s.inputs := rfl
@[simp] theorem State.accept_replies (v : Word) (s : State) : (s.accept v).replies = s.replies := rfl
@[simp] theorem State.accept_draws (v : Word) (s : State) : (s.accept v).draws = s.draws := rfl
@[simp] theorem State.accept_resets (v : Word) (s : State) : (s.accept v).resets = s.resets := rfl

/-! `State.complete` -/

@[simp] theorem State.complete_engine (s : State) : s.complete.engine = .idle := rfl
@[simp] theorem State.complete_irqEn (s : State) : s.complete.irqEn = s.irqEn := rfl
@[simp] theorem State.complete_done (s : State) : s.complete.done = true := rfl
@[simp] theorem State.complete_overrun (s : State) : s.complete.overrun = s.overrun := rfl
@[simp] theorem State.complete_errcode (s : State) : s.complete.errcode = .ok := rfl
@[simp] theorem State.complete_lastop (s : State) : s.complete.lastop = s.lastop := rfl
@[simp] theorem State.complete_errPos (s : State) : s.complete.errPos = s.errPos := rfl
@[simp] theorem State.complete_errAux (s : State) : s.complete.errAux = s.errAux := rfl
@[simp] theorem State.complete_tree (s : State) : s.complete.tree = s.tree := rfl
@[simp] theorem State.complete_symLen (s : State) : s.complete.symLen = s.symLen := rfl
@[simp] theorem State.complete_bitLen (s : State) : s.complete.bitLen = s.bitLen := rfl
@[simp] theorem State.complete_freq (s : State) : s.complete.freq = s.freq := rfl
@[simp] theorem State.complete_node (s : State) : s.complete.node = s.node := rfl
@[simp] theorem State.complete_code (s : State) : s.complete.code = s.code := rfl
@[simp] theorem State.complete_symbuf (s : State) : s.complete.symbuf = s.symbuf := rfl
@[simp] theorem State.complete_bitbuf (s : State) : s.complete.bitbuf = s.bitbuf := rfl
@[simp] theorem State.complete_resetHeld (s : State) : s.complete.resetHeld = s.resetHeld := rfl
@[simp] theorem State.complete_inputs (s : State) : s.complete.inputs = s.inputs := rfl
@[simp] theorem State.complete_replies (s : State) : s.complete.replies = s.replies := rfl
@[simp] theorem State.complete_draws (s : State) : s.complete.draws = s.draws := rfl
@[simp] theorem State.complete_resets (s : State) : s.complete.resets = s.resets := rfl

/-! `State.recordError` -/

@[simp] theorem State.recordError_engine (e : CmdError) (s : State) : (s.recordError e).engine = .idle := rfl
@[simp] theorem State.recordError_irqEn (e : CmdError) (s : State) : (s.recordError e).irqEn = s.irqEn := rfl
@[simp] theorem State.recordError_done (e : CmdError) (s : State) : (s.recordError e).done = true := rfl
@[simp] theorem State.recordError_overrun (e : CmdError) (s : State) : (s.recordError e).overrun = s.overrun := rfl
@[simp] theorem State.recordError_errcode (e : CmdError) (s : State) : (s.recordError e).errcode = e.code := rfl
@[simp] theorem State.recordError_lastop (e : CmdError) (s : State) : (s.recordError e).lastop = s.lastop := rfl
@[simp] theorem State.recordError_errPos (e : CmdError) (s : State) : (s.recordError e).errPos = e.pos := rfl
@[simp] theorem State.recordError_errAux (e : CmdError) (s : State) : (s.recordError e).errAux = e.aux := rfl
@[simp] theorem State.recordError_tree (e : CmdError) (s : State) : (s.recordError e).tree = s.tree := rfl
@[simp] theorem State.recordError_symLen (e : CmdError) (s : State) : (s.recordError e).symLen = s.symLen := rfl
@[simp] theorem State.recordError_bitLen (e : CmdError) (s : State) : (s.recordError e).bitLen = s.bitLen := rfl
@[simp] theorem State.recordError_freq (e : CmdError) (s : State) : (s.recordError e).freq = s.freq := rfl
@[simp] theorem State.recordError_node (e : CmdError) (s : State) : (s.recordError e).node = s.node := rfl
@[simp] theorem State.recordError_code (e : CmdError) (s : State) : (s.recordError e).code = s.code := rfl
@[simp] theorem State.recordError_symbuf (e : CmdError) (s : State) : (s.recordError e).symbuf = s.symbuf := rfl
@[simp] theorem State.recordError_bitbuf (e : CmdError) (s : State) : (s.recordError e).bitbuf = s.bitbuf := rfl
@[simp] theorem State.recordError_resetHeld (e : CmdError) (s : State) : (s.recordError e).resetHeld = s.resetHeld := rfl
@[simp] theorem State.recordError_inputs (e : CmdError) (s : State) : (s.recordError e).inputs = s.inputs := rfl
@[simp] theorem State.recordError_replies (e : CmdError) (s : State) : (s.recordError e).replies = s.replies := rfl
@[simp] theorem State.recordError_draws (e : CmdError) (s : State) : (s.recordError e).draws = s.draws := rfl
@[simp] theorem State.recordError_resets (e : CmdError) (s : State) : (s.recordError e).resets = s.resets := rfl

/-! `State.withFreq` -/

@[simp] theorem State.withFreq_engine (m : Memory Count) (s : State) : (s.withFreq m).engine = s.engine := rfl
@[simp] theorem State.withFreq_irqEn (m : Memory Count) (s : State) : (s.withFreq m).irqEn = s.irqEn := rfl
@[simp] theorem State.withFreq_done (m : Memory Count) (s : State) : (s.withFreq m).done = s.done := rfl
@[simp] theorem State.withFreq_overrun (m : Memory Count) (s : State) : (s.withFreq m).overrun = s.overrun := rfl
@[simp] theorem State.withFreq_errcode (m : Memory Count) (s : State) : (s.withFreq m).errcode = s.errcode := rfl
@[simp] theorem State.withFreq_lastop (m : Memory Count) (s : State) : (s.withFreq m).lastop = s.lastop := rfl
@[simp] theorem State.withFreq_errPos (m : Memory Count) (s : State) : (s.withFreq m).errPos = s.errPos := rfl
@[simp] theorem State.withFreq_errAux (m : Memory Count) (s : State) : (s.withFreq m).errAux = s.errAux := rfl
@[simp] theorem State.withFreq_tree (m : Memory Count) (s : State) : (s.withFreq m).tree = s.tree := rfl
@[simp] theorem State.withFreq_symLen (m : Memory Count) (s : State) : (s.withFreq m).symLen = s.symLen := rfl
@[simp] theorem State.withFreq_bitLen (m : Memory Count) (s : State) : (s.withFreq m).bitLen = s.bitLen := rfl
@[simp] theorem State.withFreq_freq (m : Memory Count) (s : State) : (s.withFreq m).freq = m := rfl
@[simp] theorem State.withFreq_node (m : Memory Count) (s : State) : (s.withFreq m).node = s.node := rfl
@[simp] theorem State.withFreq_code (m : Memory Count) (s : State) : (s.withFreq m).code = s.code := rfl
@[simp] theorem State.withFreq_symbuf (m : Memory Count) (s : State) : (s.withFreq m).symbuf = s.symbuf := rfl
@[simp] theorem State.withFreq_bitbuf (m : Memory Count) (s : State) : (s.withFreq m).bitbuf = s.bitbuf := rfl
@[simp] theorem State.withFreq_resetHeld (m : Memory Count) (s : State) : (s.withFreq m).resetHeld = s.resetHeld := rfl
@[simp] theorem State.withFreq_inputs (m : Memory Count) (s : State) : (s.withFreq m).inputs = s.inputs := rfl
@[simp] theorem State.withFreq_replies (m : Memory Count) (s : State) : (s.withFreq m).replies = s.replies := rfl
@[simp] theorem State.withFreq_draws (m : Memory Count) (s : State) : (s.withFreq m).draws = s.draws := rfl
@[simp] theorem State.withFreq_resets (m : Memory Count) (s : State) : (s.withFreq m).resets = s.resets := rfl

/-! `State.withTree` -/

@[simp] theorem State.withTree_engine (m : Memory Node) (t : TreeReg) (s : State) : (s.withTree m t).engine = s.engine := rfl
@[simp] theorem State.withTree_irqEn (m : Memory Node) (t : TreeReg) (s : State) : (s.withTree m t).irqEn = s.irqEn := rfl
@[simp] theorem State.withTree_done (m : Memory Node) (t : TreeReg) (s : State) : (s.withTree m t).done = s.done := rfl
@[simp] theorem State.withTree_overrun (m : Memory Node) (t : TreeReg) (s : State) : (s.withTree m t).overrun = s.overrun := rfl
@[simp] theorem State.withTree_errcode (m : Memory Node) (t : TreeReg) (s : State) : (s.withTree m t).errcode = s.errcode := rfl
@[simp] theorem State.withTree_lastop (m : Memory Node) (t : TreeReg) (s : State) : (s.withTree m t).lastop = s.lastop := rfl
@[simp] theorem State.withTree_errPos (m : Memory Node) (t : TreeReg) (s : State) : (s.withTree m t).errPos = s.errPos := rfl
@[simp] theorem State.withTree_errAux (m : Memory Node) (t : TreeReg) (s : State) : (s.withTree m t).errAux = s.errAux := rfl
@[simp] theorem State.withTree_tree (m : Memory Node) (t : TreeReg) (s : State) : (s.withTree m t).tree = t := rfl
@[simp] theorem State.withTree_symLen (m : Memory Node) (t : TreeReg) (s : State) : (s.withTree m t).symLen = s.symLen := rfl
@[simp] theorem State.withTree_bitLen (m : Memory Node) (t : TreeReg) (s : State) : (s.withTree m t).bitLen = s.bitLen := rfl
@[simp] theorem State.withTree_freq (m : Memory Node) (t : TreeReg) (s : State) : (s.withTree m t).freq = s.freq := rfl
@[simp] theorem State.withTree_node (m : Memory Node) (t : TreeReg) (s : State) : (s.withTree m t).node = m := rfl
@[simp] theorem State.withTree_code (m : Memory Node) (t : TreeReg) (s : State) : (s.withTree m t).code = s.code := rfl
@[simp] theorem State.withTree_symbuf (m : Memory Node) (t : TreeReg) (s : State) : (s.withTree m t).symbuf = s.symbuf := rfl
@[simp] theorem State.withTree_bitbuf (m : Memory Node) (t : TreeReg) (s : State) : (s.withTree m t).bitbuf = s.bitbuf := rfl
@[simp] theorem State.withTree_resetHeld (m : Memory Node) (t : TreeReg) (s : State) : (s.withTree m t).resetHeld = s.resetHeld := rfl
@[simp] theorem State.withTree_inputs (m : Memory Node) (t : TreeReg) (s : State) : (s.withTree m t).inputs = s.inputs := rfl
@[simp] theorem State.withTree_replies (m : Memory Node) (t : TreeReg) (s : State) : (s.withTree m t).replies = s.replies := rfl
@[simp] theorem State.withTree_draws (m : Memory Node) (t : TreeReg) (s : State) : (s.withTree m t).draws = s.draws := rfl
@[simp] theorem State.withTree_resets (m : Memory Node) (t : TreeReg) (s : State) : (s.withTree m t).resets = s.resets := rfl

/-! `State.withCode` -/

@[simp] theorem State.withCode_engine (m : Memory CodeEntry) (s : State) : (s.withCode m).engine = s.engine := rfl
@[simp] theorem State.withCode_irqEn (m : Memory CodeEntry) (s : State) : (s.withCode m).irqEn = s.irqEn := rfl
@[simp] theorem State.withCode_done (m : Memory CodeEntry) (s : State) : (s.withCode m).done = s.done := rfl
@[simp] theorem State.withCode_overrun (m : Memory CodeEntry) (s : State) : (s.withCode m).overrun = s.overrun := rfl
@[simp] theorem State.withCode_errcode (m : Memory CodeEntry) (s : State) : (s.withCode m).errcode = s.errcode := rfl
@[simp] theorem State.withCode_lastop (m : Memory CodeEntry) (s : State) : (s.withCode m).lastop = s.lastop := rfl
@[simp] theorem State.withCode_errPos (m : Memory CodeEntry) (s : State) : (s.withCode m).errPos = s.errPos := rfl
@[simp] theorem State.withCode_errAux (m : Memory CodeEntry) (s : State) : (s.withCode m).errAux = s.errAux := rfl
@[simp] theorem State.withCode_tree (m : Memory CodeEntry) (s : State) : (s.withCode m).tree = s.tree := rfl
@[simp] theorem State.withCode_symLen (m : Memory CodeEntry) (s : State) : (s.withCode m).symLen = s.symLen := rfl
@[simp] theorem State.withCode_bitLen (m : Memory CodeEntry) (s : State) : (s.withCode m).bitLen = s.bitLen := rfl
@[simp] theorem State.withCode_freq (m : Memory CodeEntry) (s : State) : (s.withCode m).freq = s.freq := rfl
@[simp] theorem State.withCode_node (m : Memory CodeEntry) (s : State) : (s.withCode m).node = s.node := rfl
@[simp] theorem State.withCode_code (m : Memory CodeEntry) (s : State) : (s.withCode m).code = m := rfl
@[simp] theorem State.withCode_symbuf (m : Memory CodeEntry) (s : State) : (s.withCode m).symbuf = s.symbuf := rfl
@[simp] theorem State.withCode_bitbuf (m : Memory CodeEntry) (s : State) : (s.withCode m).bitbuf = s.bitbuf := rfl
@[simp] theorem State.withCode_resetHeld (m : Memory CodeEntry) (s : State) : (s.withCode m).resetHeld = s.resetHeld := rfl
@[simp] theorem State.withCode_inputs (m : Memory CodeEntry) (s : State) : (s.withCode m).inputs = s.inputs := rfl
@[simp] theorem State.withCode_replies (m : Memory CodeEntry) (s : State) : (s.withCode m).replies = s.replies := rfl
@[simp] theorem State.withCode_draws (m : Memory CodeEntry) (s : State) : (s.withCode m).draws = s.draws := rfl
@[simp] theorem State.withCode_resets (m : Memory CodeEntry) (s : State) : (s.withCode m).resets = s.resets := rfl

/-! `State.withStream` -/

@[simp] theorem State.withStream_engine (m : Memory Word) (n : Word) (s : State) : (s.withStream m n).engine = s.engine := rfl
@[simp] theorem State.withStream_irqEn (m : Memory Word) (n : Word) (s : State) : (s.withStream m n).irqEn = s.irqEn := rfl
@[simp] theorem State.withStream_done (m : Memory Word) (n : Word) (s : State) : (s.withStream m n).done = s.done := rfl
@[simp] theorem State.withStream_overrun (m : Memory Word) (n : Word) (s : State) : (s.withStream m n).overrun = s.overrun := rfl
@[simp] theorem State.withStream_errcode (m : Memory Word) (n : Word) (s : State) : (s.withStream m n).errcode = s.errcode := rfl
@[simp] theorem State.withStream_lastop (m : Memory Word) (n : Word) (s : State) : (s.withStream m n).lastop = s.lastop := rfl
@[simp] theorem State.withStream_errPos (m : Memory Word) (n : Word) (s : State) : (s.withStream m n).errPos = s.errPos := rfl
@[simp] theorem State.withStream_errAux (m : Memory Word) (n : Word) (s : State) : (s.withStream m n).errAux = s.errAux := rfl
@[simp] theorem State.withStream_tree (m : Memory Word) (n : Word) (s : State) : (s.withStream m n).tree = s.tree := rfl
@[simp] theorem State.withStream_symLen (m : Memory Word) (n : Word) (s : State) : (s.withStream m n).symLen = s.symLen := rfl
@[simp] theorem State.withStream_bitLen (m : Memory Word) (n : Word) (s : State) : (s.withStream m n).bitLen = n := rfl
@[simp] theorem State.withStream_freq (m : Memory Word) (n : Word) (s : State) : (s.withStream m n).freq = s.freq := rfl
@[simp] theorem State.withStream_node (m : Memory Word) (n : Word) (s : State) : (s.withStream m n).node = s.node := rfl
@[simp] theorem State.withStream_code (m : Memory Word) (n : Word) (s : State) : (s.withStream m n).code = s.code := rfl
@[simp] theorem State.withStream_symbuf (m : Memory Word) (n : Word) (s : State) : (s.withStream m n).symbuf = s.symbuf := rfl
@[simp] theorem State.withStream_bitbuf (m : Memory Word) (n : Word) (s : State) : (s.withStream m n).bitbuf = m := rfl
@[simp] theorem State.withStream_resetHeld (m : Memory Word) (n : Word) (s : State) : (s.withStream m n).resetHeld = s.resetHeld := rfl
@[simp] theorem State.withStream_inputs (m : Memory Word) (n : Word) (s : State) : (s.withStream m n).inputs = s.inputs := rfl
@[simp] theorem State.withStream_replies (m : Memory Word) (n : Word) (s : State) : (s.withStream m n).replies = s.replies := rfl
@[simp] theorem State.withStream_draws (m : Memory Word) (n : Word) (s : State) : (s.withStream m n).draws = s.draws := rfl
@[simp] theorem State.withStream_resets (m : Memory Word) (n : Word) (s : State) : (s.withStream m n).resets = s.resets := rfl

/-! `State.withSymbols` -/

@[simp] theorem State.withSymbols_engine (m : Memory Symbol) (n : Word) (s : State) : (s.withSymbols m n).engine = s.engine := rfl
@[simp] theorem State.withSymbols_irqEn (m : Memory Symbol) (n : Word) (s : State) : (s.withSymbols m n).irqEn = s.irqEn := rfl
@[simp] theorem State.withSymbols_done (m : Memory Symbol) (n : Word) (s : State) : (s.withSymbols m n).done = s.done := rfl
@[simp] theorem State.withSymbols_overrun (m : Memory Symbol) (n : Word) (s : State) : (s.withSymbols m n).overrun = s.overrun := rfl
@[simp] theorem State.withSymbols_errcode (m : Memory Symbol) (n : Word) (s : State) : (s.withSymbols m n).errcode = s.errcode := rfl
@[simp] theorem State.withSymbols_lastop (m : Memory Symbol) (n : Word) (s : State) : (s.withSymbols m n).lastop = s.lastop := rfl
@[simp] theorem State.withSymbols_errPos (m : Memory Symbol) (n : Word) (s : State) : (s.withSymbols m n).errPos = s.errPos := rfl
@[simp] theorem State.withSymbols_errAux (m : Memory Symbol) (n : Word) (s : State) : (s.withSymbols m n).errAux = s.errAux := rfl
@[simp] theorem State.withSymbols_tree (m : Memory Symbol) (n : Word) (s : State) : (s.withSymbols m n).tree = s.tree := rfl
@[simp] theorem State.withSymbols_symLen (m : Memory Symbol) (n : Word) (s : State) : (s.withSymbols m n).symLen = n := rfl
@[simp] theorem State.withSymbols_bitLen (m : Memory Symbol) (n : Word) (s : State) : (s.withSymbols m n).bitLen = s.bitLen := rfl
@[simp] theorem State.withSymbols_freq (m : Memory Symbol) (n : Word) (s : State) : (s.withSymbols m n).freq = s.freq := rfl
@[simp] theorem State.withSymbols_node (m : Memory Symbol) (n : Word) (s : State) : (s.withSymbols m n).node = s.node := rfl
@[simp] theorem State.withSymbols_code (m : Memory Symbol) (n : Word) (s : State) : (s.withSymbols m n).code = s.code := rfl
@[simp] theorem State.withSymbols_symbuf (m : Memory Symbol) (n : Word) (s : State) : (s.withSymbols m n).symbuf = m := rfl
@[simp] theorem State.withSymbols_bitbuf (m : Memory Symbol) (n : Word) (s : State) : (s.withSymbols m n).bitbuf = s.bitbuf := rfl
@[simp] theorem State.withSymbols_resetHeld (m : Memory Symbol) (n : Word) (s : State) : (s.withSymbols m n).resetHeld = s.resetHeld := rfl
@[simp] theorem State.withSymbols_inputs (m : Memory Symbol) (n : Word) (s : State) : (s.withSymbols m n).inputs = s.inputs := rfl
@[simp] theorem State.withSymbols_replies (m : Memory Symbol) (n : Word) (s : State) : (s.withSymbols m n).replies = s.replies := rfl
@[simp] theorem State.withSymbols_draws (m : Memory Symbol) (n : Word) (s : State) : (s.withSymbols m n).draws = s.draws := rfl
@[simp] theorem State.withSymbols_resets (m : Memory Symbol) (n : Word) (s : State) : (s.withSymbols m n).resets = s.resets := rfl

/-! `State.writeStatus` -/

@[simp] theorem State.writeStatus_engine (v : Word) (s : State) : (s.writeStatus v).engine = s.engine := rfl
@[simp] theorem State.writeStatus_irqEn (v : Word) (s : State) : (s.writeStatus v).irqEn = s.irqEn := rfl
@[simp] theorem State.writeStatus_done (v : Word) (s : State) : (s.writeStatus v).done = (s.done && !v.getLsbD 1) := rfl
@[simp] theorem State.writeStatus_overrun (v : Word) (s : State) : (s.writeStatus v).overrun = (s.overrun && !v.getLsbD 3) := rfl
@[simp] theorem State.writeStatus_errcode (v : Word) (s : State) : (s.writeStatus v).errcode = s.errcode := rfl
@[simp] theorem State.writeStatus_lastop (v : Word) (s : State) : (s.writeStatus v).lastop = s.lastop := rfl
@[simp] theorem State.writeStatus_errPos (v : Word) (s : State) : (s.writeStatus v).errPos = s.errPos := rfl
@[simp] theorem State.writeStatus_errAux (v : Word) (s : State) : (s.writeStatus v).errAux = s.errAux := rfl
@[simp] theorem State.writeStatus_tree (v : Word) (s : State) : (s.writeStatus v).tree = s.tree := rfl
@[simp] theorem State.writeStatus_symLen (v : Word) (s : State) : (s.writeStatus v).symLen = s.symLen := rfl
@[simp] theorem State.writeStatus_bitLen (v : Word) (s : State) : (s.writeStatus v).bitLen = s.bitLen := rfl
@[simp] theorem State.writeStatus_freq (v : Word) (s : State) : (s.writeStatus v).freq = s.freq := rfl
@[simp] theorem State.writeStatus_node (v : Word) (s : State) : (s.writeStatus v).node = s.node := rfl
@[simp] theorem State.writeStatus_code (v : Word) (s : State) : (s.writeStatus v).code = s.code := rfl
@[simp] theorem State.writeStatus_symbuf (v : Word) (s : State) : (s.writeStatus v).symbuf = s.symbuf := rfl
@[simp] theorem State.writeStatus_bitbuf (v : Word) (s : State) : (s.writeStatus v).bitbuf = s.bitbuf := rfl
@[simp] theorem State.writeStatus_resetHeld (v : Word) (s : State) : (s.writeStatus v).resetHeld = s.resetHeld := rfl
@[simp] theorem State.writeStatus_inputs (v : Word) (s : State) : (s.writeStatus v).inputs = s.inputs := rfl
@[simp] theorem State.writeStatus_replies (v : Word) (s : State) : (s.writeStatus v).replies = s.replies := rfl
@[simp] theorem State.writeStatus_draws (v : Word) (s : State) : (s.writeStatus v).draws = s.draws := rfl
@[simp] theorem State.writeStatus_resets (v : Word) (s : State) : (s.writeStatus v).resets = s.resets := rfl

/-! `State.reply` -/

@[simp] theorem State.reply_engine (addr : Nat) (v : Word) (s : State) : (s.reply addr v).engine = s.engine := rfl
@[simp] theorem State.reply_irqEn (addr : Nat) (v : Word) (s : State) : (s.reply addr v).irqEn = s.irqEn := rfl
@[simp] theorem State.reply_done (addr : Nat) (v : Word) (s : State) : (s.reply addr v).done = s.done := rfl
@[simp] theorem State.reply_overrun (addr : Nat) (v : Word) (s : State) : (s.reply addr v).overrun = s.overrun := rfl
@[simp] theorem State.reply_errcode (addr : Nat) (v : Word) (s : State) : (s.reply addr v).errcode = s.errcode := rfl
@[simp] theorem State.reply_lastop (addr : Nat) (v : Word) (s : State) : (s.reply addr v).lastop = s.lastop := rfl
@[simp] theorem State.reply_errPos (addr : Nat) (v : Word) (s : State) : (s.reply addr v).errPos = s.errPos := rfl
@[simp] theorem State.reply_errAux (addr : Nat) (v : Word) (s : State) : (s.reply addr v).errAux = s.errAux := rfl
@[simp] theorem State.reply_tree (addr : Nat) (v : Word) (s : State) : (s.reply addr v).tree = s.tree := rfl
@[simp] theorem State.reply_symLen (addr : Nat) (v : Word) (s : State) : (s.reply addr v).symLen = s.symLen := rfl
@[simp] theorem State.reply_bitLen (addr : Nat) (v : Word) (s : State) : (s.reply addr v).bitLen = s.bitLen := rfl
@[simp] theorem State.reply_freq (addr : Nat) (v : Word) (s : State) : (s.reply addr v).freq = s.freq := rfl
@[simp] theorem State.reply_node (addr : Nat) (v : Word) (s : State) : (s.reply addr v).node = s.node := rfl
@[simp] theorem State.reply_code (addr : Nat) (v : Word) (s : State) : (s.reply addr v).code = s.code := rfl
@[simp] theorem State.reply_symbuf (addr : Nat) (v : Word) (s : State) : (s.reply addr v).symbuf = s.symbuf := rfl
@[simp] theorem State.reply_bitbuf (addr : Nat) (v : Word) (s : State) : (s.reply addr v).bitbuf = s.bitbuf := rfl
@[simp] theorem State.reply_resetHeld (addr : Nat) (v : Word) (s : State) : (s.reply addr v).resetHeld = s.resetHeld := rfl
@[simp] theorem State.reply_inputs (addr : Nat) (v : Word) (s : State) : (s.reply addr v).inputs = s.inputs := rfl
@[simp] theorem State.reply_replies (addr : Nat) (v : Word) (s : State) : (s.reply addr v).replies = ⟨addr, v⟩ :: s.replies := rfl
@[simp] theorem State.reply_draws (addr : Nat) (v : Word) (s : State) : (s.reply addr v).draws = s.draws := rfl
@[simp] theorem State.reply_resets (addr : Nat) (v : Word) (s : State) : (s.reply addr v).resets = s.resets := rfl

/-! `State.replyAny` -/

@[simp] theorem State.replyAny_engine (addr : Nat) (s : State) : (s.replyAny addr).engine = s.engine := rfl
@[simp] theorem State.replyAny_irqEn (addr : Nat) (s : State) : (s.replyAny addr).irqEn = s.irqEn := rfl
@[simp] theorem State.replyAny_done (addr : Nat) (s : State) : (s.replyAny addr).done = s.done := rfl
@[simp] theorem State.replyAny_overrun (addr : Nat) (s : State) : (s.replyAny addr).overrun = s.overrun := rfl
@[simp] theorem State.replyAny_errcode (addr : Nat) (s : State) : (s.replyAny addr).errcode = s.errcode := rfl
@[simp] theorem State.replyAny_lastop (addr : Nat) (s : State) : (s.replyAny addr).lastop = s.lastop := rfl
@[simp] theorem State.replyAny_errPos (addr : Nat) (s : State) : (s.replyAny addr).errPos = s.errPos := rfl
@[simp] theorem State.replyAny_errAux (addr : Nat) (s : State) : (s.replyAny addr).errAux = s.errAux := rfl
@[simp] theorem State.replyAny_tree (addr : Nat) (s : State) : (s.replyAny addr).tree = s.tree := rfl
@[simp] theorem State.replyAny_symLen (addr : Nat) (s : State) : (s.replyAny addr).symLen = s.symLen := rfl
@[simp] theorem State.replyAny_bitLen (addr : Nat) (s : State) : (s.replyAny addr).bitLen = s.bitLen := rfl
@[simp] theorem State.replyAny_freq (addr : Nat) (s : State) : (s.replyAny addr).freq = s.freq := rfl
@[simp] theorem State.replyAny_node (addr : Nat) (s : State) : (s.replyAny addr).node = s.node := rfl
@[simp] theorem State.replyAny_code (addr : Nat) (s : State) : (s.replyAny addr).code = s.code := rfl
@[simp] theorem State.replyAny_symbuf (addr : Nat) (s : State) : (s.replyAny addr).symbuf = s.symbuf := rfl
@[simp] theorem State.replyAny_bitbuf (addr : Nat) (s : State) : (s.replyAny addr).bitbuf = s.bitbuf := rfl
@[simp] theorem State.replyAny_resetHeld (addr : Nat) (s : State) : (s.replyAny addr).resetHeld = s.resetHeld := rfl
@[simp] theorem State.replyAny_inputs (addr : Nat) (s : State) : (s.replyAny addr).inputs = s.inputs := rfl
@[simp] theorem State.replyAny_replies (addr : Nat) (s : State) : (s.replyAny addr).replies = ⟨addr, Config.busyReadValue s.draws⟩ :: s.replies := rfl
@[simp] theorem State.replyAny_draws (addr : Nat) (s : State) : (s.replyAny addr).draws = s.draws + 1 := rfl
@[simp] theorem State.replyAny_resets (addr : Nat) (s : State) : (s.replyAny addr).resets = s.resets := rfl

/-! `State.toReset` -/

@[simp] theorem State.toReset_engine (s : State) : s.toReset.engine = .idle := rfl
@[simp] theorem State.toReset_irqEn (s : State) : s.toReset.irqEn = false := rfl
@[simp] theorem State.toReset_done (s : State) : s.toReset.done = false := rfl
@[simp] theorem State.toReset_overrun (s : State) : s.toReset.overrun = false := rfl
@[simp] theorem State.toReset_errcode (s : State) : s.toReset.errcode = .ok := rfl
@[simp] theorem State.toReset_lastop (s : State) : s.toReset.lastop = 0#8 := rfl
@[simp] theorem State.toReset_errPos (s : State) : s.toReset.errPos = 0#32 := rfl
@[simp] theorem State.toReset_errAux (s : State) : s.toReset.errAux = 0#32 := rfl
@[simp] theorem State.toReset_tree (s : State) : s.toReset.tree = .zero := rfl
@[simp] theorem State.toReset_symLen (s : State) : s.toReset.symLen = 0#32 := rfl
@[simp] theorem State.toReset_bitLen (s : State) : s.toReset.bitLen = 0#32 := rfl
@[simp] theorem State.toReset_freq (s : State) : s.toReset.freq = [] := rfl
@[simp] theorem State.toReset_node (s : State) : s.toReset.node = [] := rfl
@[simp] theorem State.toReset_code (s : State) : s.toReset.code = [] := rfl
@[simp] theorem State.toReset_symbuf (s : State) : s.toReset.symbuf = [] := rfl
@[simp] theorem State.toReset_bitbuf (s : State) : s.toReset.bitbuf = [] := rfl
@[simp] theorem State.toReset_resetHeld (s : State) : s.toReset.resetHeld = s.resetHeld := rfl
@[simp] theorem State.toReset_inputs (s : State) : s.toReset.inputs = s.inputs := rfl
@[simp] theorem State.toReset_replies (s : State) : s.toReset.replies = s.replies := rfl
@[simp] theorem State.toReset_draws (s : State) : s.toReset.draws = s.draws := rfl
@[simp] theorem State.toReset_resets (s : State) : s.toReset.resets = s.resets + 1 := rfl

/-! `State.holdReset` -/

@[simp] theorem State.holdReset_engine (s : State) : s.holdReset.engine = .idle := rfl
@[simp] theorem State.holdReset_irqEn (s : State) : s.holdReset.irqEn = false := rfl
@[simp] theorem State.holdReset_done (s : State) : s.holdReset.done = false := rfl
@[simp] theorem State.holdReset_overrun (s : State) : s.holdReset.overrun = false := rfl
@[simp] theorem State.holdReset_errcode (s : State) : s.holdReset.errcode = .ok := rfl
@[simp] theorem State.holdReset_lastop (s : State) : s.holdReset.lastop = 0#8 := rfl
@[simp] theorem State.holdReset_errPos (s : State) : s.holdReset.errPos = 0#32 := rfl
@[simp] theorem State.holdReset_errAux (s : State) : s.holdReset.errAux = 0#32 := rfl
@[simp] theorem State.holdReset_tree (s : State) : s.holdReset.tree = .zero := rfl
@[simp] theorem State.holdReset_symLen (s : State) : s.holdReset.symLen = 0#32 := rfl
@[simp] theorem State.holdReset_bitLen (s : State) : s.holdReset.bitLen = 0#32 := rfl
@[simp] theorem State.holdReset_freq (s : State) : s.holdReset.freq = [] := rfl
@[simp] theorem State.holdReset_node (s : State) : s.holdReset.node = [] := rfl
@[simp] theorem State.holdReset_code (s : State) : s.holdReset.code = [] := rfl
@[simp] theorem State.holdReset_symbuf (s : State) : s.holdReset.symbuf = [] := rfl
@[simp] theorem State.holdReset_bitbuf (s : State) : s.holdReset.bitbuf = [] := rfl
@[simp] theorem State.holdReset_resetHeld (s : State) : s.holdReset.resetHeld = s.resetHeld + 1 := rfl
@[simp] theorem State.holdReset_inputs (s : State) : s.holdReset.inputs = s.inputs := rfl
@[simp] theorem State.holdReset_replies (s : State) : s.holdReset.replies = s.replies := rfl
@[simp] theorem State.holdReset_draws (s : State) : s.holdReset.draws = s.draws := rfl
@[simp] theorem State.holdReset_resets (s : State) : s.holdReset.resets = s.resets + 1 := rfl

/-! The clearing operations, in terms of the updates above. -/

@[simp] theorem State.clearFreq_eq (s : State) : s.clearFreq = s.withFreq [] := rfl
@[simp] theorem State.clearTree_eq (s : State) : s.clearTree = s.withTree [] .zero := rfl
@[simp] theorem State.clearCode_eq (s : State) : s.clearCode = s.withCode [] := rfl

/-! The values computed from fields depend on those fields alone. -/

theorem State.freqAt_congr {s t : State} (h : s.freq = t.freq) : s.freqAt = t.freqAt := by
  funext x
  simp [State.freqAt, h]

theorem State.nodeAt_congr {s t : State} (h : s.node = t.node) : s.nodeAt = t.nodeAt := by
  funext i
  simp [State.nodeAt, h]

theorem State.codeAt_congr {s t : State} (h : s.code = t.code) : s.codeAt = t.codeAt := by
  funext x
  simp [State.codeAt, h]

theorem State.symbufAt_congr {s t : State} (h : s.symbuf = t.symbuf) (hr : s.resets = t.resets) :
    s.symbufAt = t.symbufAt := by
  funext i
  simp [State.symbufAt, h, hr]

theorem State.bitbufAt_congr {s t : State} (h : s.bitbuf = t.bitbuf) (hr : s.resets = t.resets) :
    s.bitbufAt = t.bitbufAt := by
  funext w
  simp [State.bitbufAt, h, hr]

theorem State.streamBit_congr {s t : State} (h : s.bitbuf = t.bitbuf) (hr : s.resets = t.resets) :
    s.streamBit = t.streamBit := by
  funext k
  simp [State.streamBit, State.bitbufAt_congr h hr]

@[simp] theorem State.busy_eq_isBusy (s : State) : s.busy = s.engine.isBusy := rfl

@[simp] theorem Engine.isBusy_idle : Engine.isBusy .idle = false := rfl

@[simp] theorem Engine.isBusy_busy (v : Word) : Engine.isBusy (.busy v) = true := rfl

end Sys2Proof.Machine
end

