-- ==== Sys2Proof/Laws/Commands.lean ====
section
/-! SUPPORT. What each command answers: its effect completed, or its error raised. -/

namespace Sys2Proof.Machine

/-! Each command from what it computes. -/

theorem exec_build_ok {s : State} {m : Memory Node} {t : TreeReg} (h : buildTree s.freqAt = .ok (m, t)) :
    exec .build s = .next (s.withTree m t).complete := by
  simp only [exec, execBuild, h]

theorem exec_build_error {s : State} {e : CmdError} (h : buildTree s.freqAt = .error e) :
    exec .build s = .next (s.raise (some .build) e) := by
  simp only [exec, execBuild, h]

theorem exec_gen_ok {s : State} {m : Memory CodeEntry} (h : generateTable s.tree s.nodeAt = .ok m) :
    exec .gen s = .next (s.withCode m).complete := by
  simp only [exec, execGen, h]

theorem exec_gen_error {s : State} {e : CmdError} (h : generateTable s.tree s.nodeAt = .error e) :
    exec .gen s = .next (s.raise (some .gen) e) := by
  simp only [exec, execGen, h]

theorem exec_enc_ok {s : State} {stream : List Bool} (h : encodeStream s.symLen s.symbols s.codeAt = .ok stream) :
    exec .enc s =
      .next (s.withStream (Memory.writeFrom none s.bitbuf 0 (streamWords stream)) (BitVec.ofNat 32 stream.length)).complete := by
  simp only [exec, execEnc, h]

theorem exec_enc_error {s : State} {e : CmdError} (h : encodeStream s.symLen s.symbols s.codeAt = .error e) :
    exec .enc s = .next (s.raise (some .enc) e) := by
  simp only [exec, execEnc, h]

theorem exec_dec_ok {s : State} {out : List Symbol} (h : decodeStream s.bitLen s.streamBits s.tree s.nodeAt = .ok out) :
    exec .dec s =
      .next (s.withSymbols (Memory.writeFrom none s.symbuf 0 out) (BitVec.ofNat 32 out.length)).complete := by
  simp only [exec, execDec, h]

theorem exec_dec_error {s : State} {e : CmdError} (h : decodeStream s.bitLen s.streamBits s.tree s.nodeAt = .error e) :
    exec .dec s = .next (s.raise (some .dec) e) := by
  simp only [exec, execDec, h]

theorem exec_tbltree_ok {s : State} {m : Memory Node} {t : TreeReg} (h : rebuildTree s.codeAt = .ok (m, t)) :
    exec .tbltree s = .next (s.withTree m t).complete := by
  simp only [exec, execTbltree, h]

theorem exec_tbltree_error {s : State} {e : CmdError} (h : rebuildTree s.codeAt = .error e) :
    exec .tbltree s = .next (s.raise (some .tbltree) e) := by
  simp only [exec, execTbltree, h]

/-! No error a command computes has the code OK. -/

theorem buildTree_error {freq : Symbol → Count} {e : CmdError} (h : buildTree freq = .error e) : e = .emptyInput := by
  unfold buildTree at h
  split at h <;> cases h
  rfl

/-- What the walk can fail with: TREE_INVALID (R154 to R157). -/
theorem walkChild_error {nodeAt : NodeIdx → Node} {deeper : NodeIdx → List Bool → Walk → Except CmdError Walk}
    (hd : ∀ c q g e, deeper c q g = .error e → e.code = .treeInvalid) {c : NodeIdx} {q : List Bool} {g : Walk} {e : CmdError}
    (h : walkChild nodeAt deeper c q g = .error e) : e.code = .treeInvalid := by
  unfold walkChild at h
  split at h
  · cases h
  · split at h
    · cases h
      rfl
    · split at h
      · cases h
        rfl
      · split at h <;> cases h
        rfl
      · split at h <;> cases h
        rfl
      · exact hd _ _ _ _ h

theorem walkNode_error {nodeAt : NodeIdx → Node} :
    ∀ (d : Nat) (x : NodeIdx) (p : List Bool) (g : Walk) (e : CmdError), walkNode nodeAt d x p g = .error e →
      e.code = .treeInvalid
  | 0, _, _, _, _, h => by
    simp only [walkNode] at h
    cases h
    rfl
  | d + 1, _, _, _, _, h => by
    simp only [walkNode] at h
    split at h
    · cases h
      exact walkChild_error (walkNode_error d) ‹_›
    · exact walkChild_error (walkNode_error d) h

theorem generateTable_error {t : TreeReg} {nodeAt : NodeIdx → Node} {e : CmdError} (h : generateTable t nodeAt = .error e) :
    e.code = .noTree ∨ e.code = .treeInvalid := by
  unfold generateTable at h
  split at h
  · cases h
    exact .inl rfl
  · split at h
    · cases h
      exact .inr rfl
    · split at h
      · cases h
      · cases h
        exact .inr (walkNode_error _ _ _ _ _ ‹_›)

theorem encodeCheck_error {codeAt : Symbol → CodeEntry} :
    ∀ (xs : List Symbol) (i t : Nat) (e : CmdError), encodeCheck codeAt xs i t = .error e →
      e.code = .unknownSymbol ∨ e.code = .tableInvalid ∨ e.code = .bufferOverflow
  | [], _, _, _, h => by cases h
  | x :: xs, i, t, e, h => by
    simp only [encodeCheck] at h
    split at h
    · cases h
      exact .inl rfl
    · split at h
      · cases h
        exact .inr (.inl rfl)
      · split at h
        · cases h
          exact .inr (.inr rfl)
        · exact encodeCheck_error xs _ _ _ h

theorem encodeStream_error {n : Word} {symbols : Nat → List Symbol} {codeAt : Symbol → CodeEntry} {e : CmdError}
    (h : encodeStream n symbols codeAt = .error e) :
    e.code = .unknownSymbol ∨ e.code = .tableInvalid ∨ e.code = .bufferOverflow ∨ e.code = .lengthInvalid := by
  unfold encodeStream at h
  split at h
  · cases h
    exact .inr (.inr (.inr rfl))
  · split at h
    · cases h
    · cases h
      rcases encodeCheck_error _ _ _ _ ‹_› with h | h | h
      · exact .inl h
      · exact .inr (.inl h)
      · exact .inr (.inr (.inl h))

/-- What consuming one stream bit can fail with (R193). -/
theorem decodeBit_error {nodeAt : NodeIdx → Node} {root : NodeIdx} {k : Nat} {b : Bool} {d : Cursor} {e : CmdError}
    (h : decodeBit nodeAt root k b d = .error e) :
    e.code = .invalidStream ∨ e.code = .treeInvalid ∨ e.code = .bufferOverflow := by
  simp only [decodeBit] at h
  generalize (if b then (nodeAt d.cur).right else (nodeAt d.cur).left) = c at h
  split at h
  · cases h
    exact .inl rfl
  · split at h
    · cases h
      exact .inr (.inl rfl)
    · cases h
      exact .inl rfl
    · split at h <;> cases h
      exact .inr (.inr rfl)
    · split at h <;> cases h
      exact .inr (.inl rfl)

theorem decodeBits_error {nodeAt : NodeIdx → Node} {root : NodeIdx} :
    ∀ (bs : List Bool) (k : Nat) (d : Cursor) (e : CmdError), decodeBits nodeAt root bs k d = .error e →
      e.code = .invalidStream ∨ e.code = .treeInvalid ∨ e.code = .bufferOverflow
  | [], _, _, _, h => by cases h
  | b :: bs, k, d, e, h => by
    simp only [decodeBits] at h
    split at h
    · exact decodeBits_error bs _ _ _ h
    · cases h
      exact decodeBit_error ‹_›

theorem decodeStream_error {n : Word} {bits : Nat → List Bool} {t : TreeReg} {nodeAt : NodeIdx → Node} {e : CmdError}
    (h : decodeStream n bits t nodeAt = .error e) :
    e.code = .invalidStream ∨ e.code = .treeInvalid ∨ e.code = .bufferOverflow ∨ e.code = .lengthInvalid := by
  unfold decodeStream at h
  split at h
  · cases h
    exact .inr (.inr (.inr rfl))
  · split at h
    · split at h <;> cases h
      exact .inl rfl
    · split at h
      · cases h
        exact .inr (.inl rfl)
      · split at h
        · cases h
          rcases decodeBits_error _ _ _ _ ‹_› with h | h | h
          · exact .inl h
          · exact .inr (.inl h)
          · exact .inr (.inr (.inl h))
        · split at h <;> cases h
          exact .inl rfl

/-- What growing the tree by one node can do (R200, R202). -/
theorem growChild_cases (x : Symbol) (cur : NodeIdx) (b : Bool) (n : Node) (t : Rebuild) :
    (511 ≤ t.free ∧ growChild x cur b n t = .error (.tableInvalid x .tooManyNodes)) ∨
      (t.free < 511 ∧
        growChild x cur b n t =
          .ok { nodes := setChild (nodePut t.nodes (BitVec.ofNat 9 t.free) n) cur b (BitVec.ofNat 9 t.free)
                free := t.free + 1 }) := by
  unfold growChild
  by_cases h : 511 ≤ t.free
  · exact .inl ⟨h, by simp [h]⟩
  · exact .inr ⟨by omega, by simp [h]⟩

theorem growChild_error {x : Symbol} {cur : NodeIdx} {b : Bool} {n : Node} {t : Rebuild} {e : CmdError}
    (h : growChild x cur b n t = .error e) : e = .tableInvalid x .tooManyNodes := by
  obtain ⟨-, h'⟩ | ⟨-, h'⟩ := growChild_cases x cur b n t <;> rw [h'] at h <;> cases h
  rfl

theorem insertBits_error (x : Symbol) :
    ∀ (bs : List Bool) (cur : NodeIdx) (t : Rebuild) (e : CmdError), insertBits x bs cur t = .error e →
      e = .tableInvalid x .prefixConflict ∨ e = .tableInvalid x .tooManyNodes
  | [], _, _, _, h => by cases h
  | [b], cur, t, e, h => by
    simp only [insertBits] at h
    split at h
    · cases h
      exact .inl rfl
    · exact .inr (growChild_error h)
  | b :: b' :: bs, cur, t, e, h => by
    simp only [insertBits] at h
    split at h
    · split at h
      · exact insertBits_error x (b' :: bs) _ _ _ h
      · cases h
        exact .inr (growChild_error ‹_›)
    · split at h
      · cases h
        exact .inl rfl
      · exact insertBits_error x (b' :: bs) _ _ _ h

theorem insertEntry_error {x : Symbol} {c : CodeEntry} {t : Rebuild} {e : CmdError} (h : insertEntry x c t = .error e) :
    e.code = .tableInvalid := by
  unfold insertEntry at h
  split at h
  · cases h
  · split at h
    · cases h
      rfl
    · rcases insertBits_error _ _ _ _ _ h with h | h <;> subst h <;> rfl

theorem insertEntries_error {codeAt : Symbol → CodeEntry} :
    ∀ (xs : List Symbol) (t : Rebuild) (e : CmdError), insertEntries codeAt xs t = .error e → e.code = .tableInvalid
  | [], _, _, h => by cases h
  | x :: xs, t, e, h => by
    simp only [insertEntries] at h
    split at h
    · exact insertEntries_error xs _ _ h
    · cases h
      exact insertEntry_error ‹_›

theorem rebuildTree_error {codeAt : Symbol → CodeEntry} {e : CmdError} (h : rebuildTree codeAt = .error e) :
    e.code = .emptyInput ∨ e.code = .tableInvalid := by
  unfold rebuildTree at h
  split at h
  · cases h
    exact .inl rfl
  · split at h
    · cases h
    · cases h
      exact .inr (insertEntries_error _ _ _ ‹_›)

/-! What a command can do, all of them at once. -/

/-- Every command answers a next state: its effect completed, or an error, of a code other than OK, raised (R112). -/
theorem exec_cases (i : Instr) (s : State) :
    (∃ u, exec i s = .next u.complete ∧
      (u = s ∨ u = s.clearFreq ∨ (∃ m t, u = s.withTree m t) ∨ (∃ m, u = s.withCode m) ∨ (∃ m n, u = s.withStream m n) ∨
        ∃ m n, u = s.withSymbols m n)) ∨
    (∃ e, e.code ≠ .ok ∧ exec i s = .next (s.raise (some i) e)) := by
  cases i with
  | nop => exact .inl ⟨s, rfl, .inl rfl⟩
  | clrfreq => exact .inl ⟨s.clearFreq, rfl, .inr (.inl rfl)⟩
  | clrtree => exact .inl ⟨s.clearTree, rfl, .inr (.inr (.inl ⟨_, _, rfl⟩))⟩
  | clrtbl => exact .inl ⟨s.clearCode, rfl, .inr (.inr (.inr (.inl ⟨_, rfl⟩)))⟩
  | build =>
    cases h : buildTree s.freqAt with
    | ok r => exact .inl ⟨_, exec_build_ok h, .inr (.inr (.inl ⟨_, _, rfl⟩))⟩
    | error e => exact .inr ⟨e, by simp [buildTree_error h, CmdError.emptyInput], exec_build_error h⟩
  | gen =>
    cases h : generateTable s.tree s.nodeAt with
    | ok m => exact .inl ⟨_, exec_gen_ok h, .inr (.inr (.inr (.inl ⟨_, rfl⟩)))⟩
    | error e => exact .inr ⟨e, by rcases generateTable_error h with h | h <;> simp [h], exec_gen_error h⟩
  | enc =>
    cases h : encodeStream s.symLen s.symbols s.codeAt with
    | ok m => exact .inl ⟨_, exec_enc_ok h, .inr (.inr (.inr (.inr (.inl ⟨_, _, rfl⟩))))⟩
    | error e => exact .inr ⟨e, by rcases encodeStream_error h with h | h | h | h <;> simp [h], exec_enc_error h⟩
  | dec =>
    cases h : decodeStream s.bitLen s.streamBits s.tree s.nodeAt with
    | ok m => exact .inl ⟨_, exec_dec_ok h, .inr (.inr (.inr (.inr (.inr ⟨_, _, rfl⟩))))⟩
    | error e => exact .inr ⟨e, by rcases decodeStream_error h with h | h | h | h <;> simp [h], exec_dec_error h⟩
  | tbltree =>
    cases h : rebuildTree s.codeAt with
    | ok r => exact .inl ⟨_, exec_tbltree_ok h, .inr (.inr (.inl ⟨_, _, rfl⟩))⟩
    | error e => exact .inr ⟨e, by rcases rebuildTree_error h with h | h <;> simp [h], exec_tbltree_error h⟩

end Sys2Proof.Machine
end

