-- ==== Sys2Proof/Laws/Stream.lean ====
section
/-! SUPPORT. The laws of ENC and DEC: the check pass, one stream bit consumed, and the lengths of what they write. -/

namespace Sys2Proof.Machine

/-! ENC. -/

/-- The check pass over symbols that all have usable entries and fit: the answer is the total length (R170). -/
theorem encodeCheck_ok_of {codeAt : Symbol → CodeEntry} :
    ∀ (xs : List Symbol) (i t : Nat), (∀ x ∈ xs, (codeAt x).usable = true) →
      t + (xs.map (fun x => (codeAt x).len.toNat)).sum ≤ 32768 →
      encodeCheck codeAt xs i t = .ok (t + (xs.map (fun x => (codeAt x).len.toNat)).sum)
  | [], _, _, _, _ => rfl
  | x :: xs, i, t, hu, ht => by
    have hx := hu x (by simp)
    simp only [CodeEntry.usable, Bool.and_eq_true, bne_iff_ne, ne_eq] at hx
    simp only [List.map_cons, List.sum_cons] at ht ⊢
    have hcap : ¬ Config.bitbufCap < t + (codeAt x).len.toNat := by simp; omega
    simp only [encodeCheck, hx.1, hx.2, hcap, Bool.not_true, Bool.false_eq_true, if_false]
    rw [encodeCheck_ok_of xs _ _ (fun y hy => hu y (by simp [hy])) (by omega)]
    congr 1
    omega

/-- The check pass succeeds only on symbols that all have usable entries and fit; its answer is the total length (R170). -/
theorem encodeCheck_ok {codeAt : Symbol → CodeEntry} :
    ∀ (xs : List Symbol) (i t n : Nat), t ≤ 32768 → encodeCheck codeAt xs i t = .ok n →
      (∀ x ∈ xs, (codeAt x).usable = true) ∧ n = t + (xs.map (fun x => (codeAt x).len.toNat)).sum ∧ n ≤ 32768
  | [], _, _, _, ht, h => by
    cases h
    exact ⟨by simp, by simp, ht⟩
  | x :: xs, i, t, n, ht, h => by
    simp only [encodeCheck] at h
    split at h
    · cases h
    · split at h
      · cases h
      · split at h
        · cases h
        · rename_i h1 h2 h3
          simp only [Config.bitbufCap_eq, Nat.not_lt] at h3
          obtain ⟨h4, h5, h6⟩ := encodeCheck_ok xs _ _ _ h3 h
          refine ⟨fun y hy => ?_, by simp only [List.map_cons, List.sum_cons]; omega, h6⟩
          rcases List.mem_cons.1 hy with rfl | hy
          · simpa [CodeEntry.usable, h2] using h1
          · exact h4 y hy

/-- The check pass over symbols that pass, then over the rest. -/
theorem encodeCheck_append {codeAt : Symbol → CodeEntry} (ys : List Symbol) :
    ∀ (xs : List Symbol) (i t : Nat), (∀ x ∈ xs, (codeAt x).usable = true) →
      t + (xs.map (fun x => (codeAt x).len.toNat)).sum ≤ 32768 →
      encodeCheck codeAt (xs ++ ys) i t =
        encodeCheck codeAt ys (i + xs.length) (t + (xs.map (fun x => (codeAt x).len.toNat)).sum)
  | [], _, _, _, _ => rfl
  | x :: xs, i, t, hu, ht => by
    have hx := hu x (by simp)
    simp only [CodeEntry.usable, Bool.and_eq_true, bne_iff_ne, ne_eq] at hx
    simp only [List.map_cons, List.sum_cons] at ht ⊢
    have hcap : ¬ Config.bitbufCap < t + (codeAt x).len.toNat := by simp; omega
    simp only [List.cons_append, encodeCheck, hx.1, hx.2, hcap, Bool.not_true, Bool.false_eq_true, if_false]
    rw [encodeCheck_append ys xs _ _ (fun y hy => hu y (by simp [hy])) (by omega)]
    simp only [List.length_cons]
    congr 1 <;> omega

/-- The codewords of the symbols are as long together as the check pass counts (R170, R171). -/
theorem length_encodeEmit (codeAt : Symbol → CodeEntry) (xs : List Symbol) :
    (encodeEmit codeAt xs).length = (xs.map (fun x => (codeAt x).len.toNat)).sum := by
  simp [encodeEmit, List.length_flatMap]

/-- What ENC computes when it succeeds: every symbol has a usable entry and the codewords fit (R170, R171). -/
theorem encodeStream_ok {n : Word} {symbols : Nat → List Symbol} {codeAt : Symbol → CodeEntry} {stream : List Bool}
    (h : encodeStream n symbols codeAt = .ok stream) :
    n.toNat ≤ 4096 ∧ (∀ x ∈ symbols n.toNat, (codeAt x).usable = true) ∧ stream = encodeEmit codeAt (symbols n.toNat) ∧
      stream.length ≤ 32768 := by
  unfold encodeStream at h
  split at h
  · cases h
  · split at h
    · cases h
      rename_i h1 _ m h2
      obtain ⟨h3, h4, h5⟩ := encodeCheck_ok _ _ _ _ (Nat.zero_le _) h2
      refine ⟨by simpa using h1, h3, rfl, ?_⟩
      rw [length_encodeEmit]
      omega
    · cases h

/-- ENC succeeds on at most 4096 symbols that all have usable entries, with at most 32768 bits in all (R170). -/
theorem encodeStream_ok_of {n : Word} {symbols : Nat → List Symbol} {codeAt : Symbol → CodeEntry} (hn : n.toNat ≤ 4096)
    (hu : ∀ x ∈ symbols n.toNat, (codeAt x).usable = true) (hl : (encodeEmit codeAt (symbols n.toNat)).length ≤ 32768) :
    encodeStream n symbols codeAt = .ok (encodeEmit codeAt (symbols n.toNat)) := by
  have hc : ¬ Config.symbufCap < n.toNat := by simp; omega
  simp only [encodeStream, hc, if_false]
  rw [encodeCheck_ok_of _ _ _ hu (by rw [length_encodeEmit] at hl; omega)]

/-! DEC. -/

/-- What consuming one stream bit can do when it does not fail: a symbol completed, or one INTERNAL node deeper (R191). -/
theorem decodeBit_ok {nodeAt : NodeIdx → Node} {root : NodeIdx} {k : Nat} {b : Bool} {d d' : Cursor}
    (h : decodeBit nodeAt root k b d = .ok d') :
    childAt nodeAt d.cur b ≠ Config.nil ∧
      (((nodeAt (childAt nodeAt d.cur b)).kind = .leaf ∧ d.out.length ≠ 4096 ∧
          d' = { cur := root, depth := 0, out := d.out ++ [(nodeAt (childAt nodeAt d.cur b)).sym] }) ∨
        ((nodeAt (childAt nodeAt d.cur b)).kind = .internal ∧ d.depth + 1 ≠ 255 ∧
          d' = { cur := childAt nodeAt d.cur b, depth := d.depth + 1, out := d.out })) := by
  have hc : (if b then (nodeAt d.cur).right else (nodeAt d.cur).left) = childAt nodeAt d.cur b := rfl
  simp only [decodeBit, hc] at h
  generalize childAt nodeAt d.cur b = c at h ⊢
  split at h
  · cases h
  · refine ⟨‹_›, ?_⟩
    split at h
    · cases h
    · cases h
    · split at h <;> cases h
      exact .inl ⟨‹_›, ‹_›, rfl⟩
    · split at h <;> cases h
      exact .inr ⟨‹_›, ‹_›, rfl⟩

/-- A bit that leads to a LEAF completes its symbol (R191). -/
theorem decodeBit_leaf {nodeAt : NodeIdx → Node} {root : NodeIdx} {k : Nat} {b : Bool} {d : Cursor}
    (hn : childAt nodeAt d.cur b ≠ Config.nil) (hk : (nodeAt (childAt nodeAt d.cur b)).kind = .leaf)
    (hl : d.out.length ≠ 4096) :
    decodeBit nodeAt root k b d =
      .ok { cur := root, depth := 0, out := d.out ++ [(nodeAt (childAt nodeAt d.cur b)).sym] } := by
  have hc : (if b then (nodeAt d.cur).right else (nodeAt d.cur).left) = childAt nodeAt d.cur b := rfl
  simp only [decodeBit, hc, hk, hn, if_false, Config.symbufCap_eq, hl]

/-- A bit that leads to an INTERNAL node goes one level deeper (R191). -/
theorem decodeBit_internal {nodeAt : NodeIdx → Node} {root : NodeIdx} {k : Nat} {b : Bool} {d : Cursor}
    (hn : childAt nodeAt d.cur b ≠ Config.nil) (hk : (nodeAt (childAt nodeAt d.cur b)).kind = .internal)
    (hl : d.depth + 1 ≠ 255) :
    decodeBit nodeAt root k b d = .ok { cur := childAt nodeAt d.cur b, depth := d.depth + 1, out := d.out } := by
  have hc : (if b then (nodeAt d.cur).right else (nodeAt d.cur).left) = childAt nodeAt d.cur b := rfl
  simp only [decodeBit, hc, hk, hn, if_false, Config.maxCodeLen_eq, hl]

/-- Bits that do not fail, then more bits. -/
theorem decodeBits_append {nodeAt : NodeIdx → Node} {root : NodeIdx} (bs' : List Bool) :
    ∀ (bs : List Bool) (k : Nat) (d d' : Cursor), decodeBits nodeAt root bs k d = .ok d' →
      decodeBits nodeAt root (bs ++ bs') k d = decodeBits nodeAt root bs' (k + bs.length) d'
  | [], _, _, _, h => by
    cases h
    rfl
  | b :: bs, k, d, d', h => by
    simp only [List.cons_append, decodeBits] at h ⊢
    split at h
    · rw [decodeBits_append bs' bs _ _ _ h]
      congr 1
      simp only [List.length_cons]
      omega
    · cases h

/-- DEC never completes more than 4096 symbols (R191). -/
theorem decodeBits_length {nodeAt : NodeIdx → Node} {root : NodeIdx} :
    ∀ (bs : List Bool) (k : Nat) (d d' : Cursor), decodeBits nodeAt root bs k d = .ok d' → d.out.length ≤ 4096 →
      d'.out.length ≤ 4096
  | [], _, _, _, h, hd => by
    cases h
    exact hd
  | b :: bs, k, d, d', h, hd => by
    simp only [decodeBits] at h
    split at h
    · refine decodeBits_length bs _ _ _ h ?_
      obtain ⟨-, ⟨-, hl, rfl⟩ | ⟨-, -, rfl⟩⟩ := decodeBit_ok ‹_›
      · simp only [List.length_append, List.length_singleton]
        omega
      · exact hd
    · cases h

theorem decodeStream_length {n : Word} {bits : Nat → List Bool} {t : TreeReg} {nodeAt : NodeIdx → Node} {out : List Symbol}
    (h : decodeStream n bits t nodeAt = .ok out) : out.length ≤ 4096 := by
  unfold decodeStream at h
  split at h
  · cases h
  · split at h
    · split at h <;> cases h
      simp
    · split at h
      · cases h
      · split at h
        · cases h
        · split at h
          · cases h
            exact decodeBits_length _ _ _ _ ‹_› (by simp)
          · cases h

/-- The stream bits read back from BITBUF after a stream is written there (R66, R67). -/
theorem streamBits_withStream (s : State) (stream : List Bool) (n : Word) :
    (s.withStream (Memory.writeFrom none s.bitbuf 0 (streamWords stream)) n).complete.streamBits stream.length = stream := by
  refine List.ext_getElem (by simp [State.streamBits]) (fun k h1 h2 => ?_)
  have hw : k / 32 < (stream.length + 31) / 32 := by omega
  have hk : 32 * (k / 32) + k % 32 = k := Nat.div_add_mod k 32
  simp only [State.streamBits, List.getElem_map, List.getElem_range, State.streamBit, State.bitbufAt]
  show (Memory.read _ (Memory.writeFrom none s.bitbuf 0 (streamWords stream)) (k / 32)).getLsbD (k % 32) = _
  rw [read_streamWords, if_pos hw, getLsbD_streamWord _ _ _ (Nat.mod_lt _ (by decide)), hk]
  simp [h2]

end Sys2Proof.Machine
end

