-- ==== Sys2Proof/Laws/Canonical.lean ====
section
/-! SUPPORT. Every operation that writes an internal memory keeps its canonical form (log 9). -/

namespace Sys2Proof.Machine

/-- The canonical form of a NODE memory. -/
abbrev NodeWf (m : Memory Node) : Prop := Memory.wf Config.nodeCap (some Node.blank) m = true

/-- The canonical form of a CODE memory. -/
abbrev CodeWf (m : Memory CodeEntry) : Prop := Memory.wf Config.nsym (some CodeEntry.blank) m = true

/-- Canonical memories, memory by memory. -/
theorem memoriesWf_iff (s : State) :
    s.memoriesWf = true ↔ Memory.wf Config.nsym (some 0#32) s.freq = true ∧ NodeWf s.node ∧ CodeWf s.code ∧
      Memory.wf Config.symbufCap none s.symbuf = true ∧ Memory.wf Config.bitbufWords none s.bitbuf = true := by
  simp only [State.memoriesWf, Bool.and_eq_true]
  tauto

/-! BUILD. -/

theorem wf_placeLeaves (freq : Symbol → Count) :
    ∀ (xs : List Symbol) {m : Memory Node} (i : Nat), NodeWf m → NodeWf (placeLeaves freq m i xs)
  | [], _, _, h => h
  | _ :: xs, _, i, h => wf_placeLeaves freq xs (i + 1) (wf_nodePut h _ _)

theorem wf_mergeLeast {b : Builder} (h : NodeWf b.nodes) : NodeWf (mergeLeast b).nodes := by
  unfold mergeLeast
  split
  · exact h
  · split
    · exact h
    · dsimp only
      exact wf_nodePut h _ _

theorem wf_mergeTimes : ∀ (k : Nat) {b : Builder}, NodeWf b.nodes → NodeWf (mergeTimes k b).nodes
  | 0, _, h => h
  | k + 1, _, h => wf_mergeTimes k (wf_mergeLeast h)

theorem wf_buildTree {freq : Symbol → Count} {m : Memory Node} {t : TreeReg} (h : buildTree freq = .ok (m, t)) : NodeWf m := by
  unfold buildTree at h
  split at h
  · cases h
  · cases h
    exact wf_nodePut (wf_nodePut (wf_nodePut (Memory.wf_nil _ _) _ _) _ _) _ _
  · cases h
    exact wf_mergeTimes _ (wf_placeLeaves freq _ _ (Memory.wf_nil _ _))

/-! GEN. -/

theorem wf_walkChild {nodeAt : NodeIdx → Node} {deeper : NodeIdx → List Bool → Walk → Except CmdError Walk}
    (hd : ∀ c q g g', CodeWf g.table → deeper c q g = .ok g' → CodeWf g'.table) {c : NodeIdx} {q : List Bool} {g g' : Walk}
    (hg : CodeWf g.table) (h : walkChild nodeAt deeper c q g = .ok g') : CodeWf g'.table := by
  unfold walkChild at h
  split at h
  · cases h
    exact hg
  · split at h
    · cases h
    · split at h
      · cases h
      · split at h <;> cases h
        exact hg
      · split at h <;> cases h
        dsimp only
        exact wf_codePut hg _ _
      · exact hd c q _ _ (by exact hg) h

theorem wf_walkNode {nodeAt : NodeIdx → Node} :
    ∀ (d : Nat) (x : NodeIdx) (p : List Bool) (g g' : Walk), CodeWf g.table → walkNode nodeAt d x p g = .ok g' →
      CodeWf g'.table
  | 0, _, _, _, _, _, h => by cases h
  | d + 1, _, _, _, _, hg, h => by
    simp only [walkNode] at h
    split at h
    · cases h
    · exact wf_walkChild (wf_walkNode d) (wf_walkChild (wf_walkNode d) hg ‹_›) h

theorem wf_generateTable {t : TreeReg} {nodeAt : NodeIdx → Node} {m : Memory CodeEntry} (h : generateTable t nodeAt = .ok m) :
    CodeWf m := by
  unfold generateTable at h
  split at h
  · cases h
  · split at h
    · cases h
    · split at h
      · cases h
        exact wf_walkNode _ _ _ _ _ (Memory.wf_nil _ _) ‹_›
      · cases h

/-! TBLTREE. -/

theorem wf_growChild {x : Symbol} {cur : NodeIdx} {b : Bool} {n : Node} {t t' : Rebuild} (ht : NodeWf t.nodes)
    (h : growChild x cur b n t = .ok t') : NodeWf t'.nodes := by
  obtain ⟨-, h'⟩ | ⟨-, h'⟩ := growChild_cases x cur b n t <;> rw [h'] at h <;> cases h
  exact wf_nodePut (wf_nodePut ht _ _) _ _

theorem wf_insertBits (x : Symbol) :
    ∀ (bs : List Bool) (cur : NodeIdx) (t t' : Rebuild), NodeWf t.nodes → insertBits x bs cur t = .ok t' → NodeWf t'.nodes
  | [], _, _, _, ht, h => by
    cases h
    exact ht
  | [b], _, _, _, ht, h => by
    simp only [insertBits] at h
    split at h
    · cases h
    · exact wf_growChild ht h
  | b :: b' :: bs, cur, t, _, ht, h => by
    simp only [insertBits] at h
    split at h
    · split at h
      · exact wf_insertBits x (b' :: bs) _ _ _ (wf_growChild ht ‹_›) h
      · cases h
    · split at h
      · cases h
      · exact wf_insertBits x (b' :: bs) _ _ _ ht h

theorem wf_insertEntry {x : Symbol} {e : CodeEntry} {t t' : Rebuild} (ht : NodeWf t.nodes) (h : insertEntry x e t = .ok t') :
    NodeWf t'.nodes := by
  unfold insertEntry at h
  split at h
  · cases h
    exact ht
  · split at h
    · cases h
    · exact wf_insertBits x _ _ _ _ ht h

theorem wf_insertEntries {codeAt : Symbol → CodeEntry} :
    ∀ (xs : List Symbol) (t t' : Rebuild), NodeWf t.nodes → insertEntries codeAt xs t = .ok t' → NodeWf t'.nodes
  | [], _, _, ht, h => by
    cases h
    exact ht
  | x :: xs, _, _, ht, h => by
    simp only [insertEntries] at h
    split at h
    · exact wf_insertEntries xs _ _ (wf_insertEntry ht ‹_›) h
    · cases h

theorem wf_rebuildTree {codeAt : Symbol → CodeEntry} {m : Memory Node} {t : TreeReg} (h : rebuildTree codeAt = .ok (m, t)) :
    NodeWf m := by
  unfold rebuildTree at h
  split at h
  · cases h
  · split at h
    · cases h
      refine wf_insertEntries _ _ _ ?_ ‹_›
      dsimp only
      exact wf_nodePut (Memory.wf_nil _ _) _ _
    · cases h

/-! Host writes. -/

/-- Storing a word keeps every memory canonical. -/
theorem wf_storeWord {s : State} (hs : s.memoriesWf = true) (v : Word) (l : Loc) : (s.storeWord v l).memoriesWf = true := by
  obtain ⟨h1, h2, h3, h4, h5⟩ := (memoriesWf_iff s).1 hs
  rw [memoriesWf_iff]
  cases l with
  | freq x => exact ⟨Memory.wf_write h1 (by simpa using x.isLt) v, h2, h3, h4, h5⟩
  | node i k => exact ⟨h1, wf_nodePut h2 _ _, h3, h4, h5⟩
  | code x k => exact ⟨h1, h2, wf_codePut h3 _ _, h4, h5⟩
  | symbuf i => exact ⟨h1, h2, h3, Memory.wf_write h4 (by simp) _, h5⟩
  | bitbuf w => exact ⟨h1, h2, h3, h4, Memory.wf_write h5 (by simp) _⟩
  | _ => exact ⟨h1, h2, h3, h4, h5⟩

end Sys2Proof.Machine
end

