-- ==== Sys2Proof/Laws/Gen.lean ====
section
/-! SUPPORT. What GEN's walk does on a tree, and that it succeeds on nothing but trees (R150 to R158). -/

namespace Sys2Proof.Machine

/-- The entries of the leaves listed, each at its path below `q`, put in a table one after another. -/
def putCodes (m : Memory CodeEntry) (q : List Bool) (cs : List (Symbol × List Bool)) : Memory CodeEntry :=
  cs.foldl (fun m c => codePut m c.1 (.ofPath (q ++ c.2))) m

@[simp] theorem putCodes_nil (m : Memory CodeEntry) (q : List Bool) : putCodes m q [] = m := rfl

theorem putCodes_append (m : Memory CodeEntry) (q : List Bool) (cs ds : List (Symbol × List Bool)) :
    putCodes m q (cs ++ ds) = putCodes (putCodes m q cs) q ds := by simp [putCodes]

theorem putCodes_below (m : Memory CodeEntry) (q : List Bool) (b : Bool) (cs : List (Symbol × List Bool)) :
    putCodes m q (cs.map (fun c => (c.1, b :: c.2))) = putCodes m (q ++ [b]) cs := by
  simp [putCodes, List.foldl_map]

/-- A symbol not listed keeps its entry. -/
theorem codeIn_putCodes_of_not_mem (q : List Bool) (y : Symbol) :
    ∀ (cs : List (Symbol × List Bool)) (m : Memory CodeEntry), y ∉ cs.map Prod.fst → codeIn (putCodes m q cs) y = codeIn m y
  | [], _, _ => rfl
  | c :: cs, m, h => by
    simp only [List.map_cons, List.mem_cons, not_or] at h
    exact (codeIn_putCodes_of_not_mem q y cs _ h.2).trans (codeIn_codePut_ne m _ h.1)

/-- A symbol listed once has the entry of its path. -/
theorem codeIn_putCodes_of_mem (q : List Bool) (y : Symbol) (p : List Bool) :
    ∀ (cs : List (Symbol × List Bool)) (m : Memory CodeEntry), (cs.map Prod.fst).Nodup → (y, p) ∈ cs →
      codeIn (putCodes m q cs) y = .ofPath (q ++ p)
  | [], _, _, h => by cases h
  | c :: cs, m, hn, h => by
    simp only [List.map_cons, List.nodup_cons] at hn
    rcases List.mem_cons.1 h with h | h
    · subst h
      exact (codeIn_putCodes_of_not_mem q y cs _ hn.1).trans (codeIn_codePut_self m _ _)
    · exact codeIn_putCodes_of_mem q y p cs _ hn.2 h

/-- Which symbols have a codeword after the entries are put (R157). -/
theorem valid_putCodes (q : List Bool) (y : Symbol) :
    ∀ (cs : List (Symbol × List Bool)) (m : Memory CodeEntry),
      (codeIn (putCodes m q cs) y).valid = true ↔ (codeIn m y).valid = true ∨ y ∈ cs.map Prod.fst
  | [], m => by simp
  | c :: cs, m => by
    have ih := valid_putCodes q y cs (codePut m c.1 (.ofPath (q ++ c.2)))
    have hput : putCodes m q (c :: cs) = putCodes (codePut m c.1 (.ofPath (q ++ c.2))) q cs := rfl
    rw [hput, ih, codeIn_codePut, List.map_cons, List.mem_cons]
    by_cases h : y = c.1
    · simp [h, CodeEntry.ofPath]
    · simp [h]

/-- What the walk asks of a subtree before it walks it: room for its descents and its depth, no second sentinel, no symbol
twice (R154 to R157). -/
structure Fits (d : Nat) (g : Walk) (T : CodeTree) : Prop where
  height : T.height ≤ d
  visits : g.visits + T.size ≤ 510
  sentinels : g.sentinelSeen.toNat + T.sentinels ≤ 1
  nodup : (T.codes.map Prod.fst).Nodup
  fresh : ∀ x ∈ T.codes.map Prod.fst, (codeIn g.table x).valid = false

/-- The walk after a subtree, reached by path `q`, is walked (R150). -/
def Walk.past (g : Walk) (q : List Bool) (T : CodeTree) : Walk :=
  { visits := g.visits + T.size
    sentinelSeen := g.sentinelSeen || decide (0 < T.sentinels)
    table := putCodes g.table q T.codes }

/-- The codes of a node, side by side. -/
theorem putCodes_node (m : Memory CodeEntry) (q : List Bool) (l r : CodeTree) :
    putCodes m q (CodeTree.node l r).codes = putCodes (putCodes m (q ++ [false]) l.codes) (q ++ [true]) r.codes := by
  rw [CodeTree.codes, putCodes_append, putCodes_below, putCodes_below]

theorem symbols_node (l r : CodeTree) :
    (CodeTree.node l r).codes.map Prod.fst = l.codes.map Prod.fst ++ r.codes.map Prod.fst := by
  simp only [CodeTree.codes, List.map_append, List.map_map]
  rfl

/-- A node fits exactly when its left side fits, one descent later and one level less deep, and then its right side does. -/
theorem fits_node_iff (d : Nat) (g : Walk) (q : List Bool) (l r : CodeTree) :
    Fits (d + 1) g (.node l r) ↔
      Fits d { g with visits := g.visits + 1 } l ∧ Fits d (({ g with visits := g.visits + 1 } : Walk).past q l) r := by
  constructor
  · rintro ⟨h1, h2, h3, h4, h5⟩
    simp only [CodeTree.height, CodeTree.size, CodeTree.sentinels] at h1 h2 h3
    rw [symbols_node] at h4 h5
    rw [List.nodup_append'] at h4
    refine ⟨⟨by omega, by simp only; omega, by simp only; omega, h4.1, fun x hx => h5 x (by simp [hx])⟩,
      ⟨by omega, by simp only [Walk.past]; omega, ?_, h4.2.1, fun x hx => ?_⟩⟩
    · simp only [Walk.past]
      by_cases hs : 0 < l.sentinels
      · simp [hs]
        omega
      · simp [hs]
        omega
    · simp only [Walk.past]
      rw [Bool.eq_false_iff, ne_eq, valid_putCodes]
      rintro (h | h)
      · simp [h5 x (by simp [hx])] at h
      · exact h4.2.2 h hx
  · rintro ⟨⟨a1, a2, a3, a4, a5⟩, ⟨b1, b2, b3, b4, b5⟩⟩
    simp only [Walk.past] at a2 a3 b2 b3 b5
    have b5' : ∀ x ∈ r.codes.map Prod.fst, (codeIn g.table x).valid = false ∧ x ∉ l.codes.map Prod.fst := by
      intro x hx
      have h := b5 x hx
      rw [Bool.eq_false_iff, ne_eq, valid_putCodes, not_or] at h
      exact ⟨by simpa using h.1, h.2⟩
    refine ⟨by simp only [CodeTree.height]; omega, by simp only [CodeTree.size]; omega, ?_, ?_, fun x hx => ?_⟩
    · simp only [CodeTree.sentinels]
      by_cases hs : 0 < l.sentinels
      · simp [hs] at b3
        omega
      · simp [hs] at b3
        omega
    · rw [symbols_node, List.nodup_append']
      exact ⟨a4, b4, fun x hl hr => (b5' x hr).2 hl⟩
    · rw [symbols_node, List.mem_append] at hx
      rcases hx with hx | hx
      · exact a5 x hx
      · exact (b5' x hx).1

/-- The walk past a node is the walk past its left side and then past its right side. -/
theorem past_node (g : Walk) (q : List Bool) (l r : CodeTree) :
    (({ g with visits := g.visits + 1 } : Walk).past (q ++ [false]) l).past (q ++ [true]) r = g.past q (.node l r) := by
  have h : (g.sentinelSeen || decide (0 < l.sentinels) || decide (0 < r.sentinels)) =
      (g.sentinelSeen || decide (0 < l.sentinels + r.sentinels)) := by
    rw [Bool.or_assoc]
    congr 1
    rw [← Bool.decide_or]
    congr 1
    exact propext ⟨fun h => by omega, fun h => by omega⟩
  show Walk.mk _ _ _ = Walk.mk _ _ _
  rw [Walk.mk.injEq]
  exact ⟨by simp only [Walk.past, CodeTree.size]; omega, h, (putCodes_node g.table q l r).symm⟩

/-- A walk of an INTERNAL child, once the descent is counted, is a walk of the node (R150). -/
theorem walkChild_internal {nodeAt : NodeIdx → Node} {deeper : NodeIdx → List Bool → Walk → Except CmdError Walk}
    {c : NodeIdx} (q : List Bool) {g : Walk} (hn : c ≠ Config.nil) (hk : (nodeAt c).kind = .internal)
    (hv : g.visits + 1 ≤ 510) : walkChild nodeAt deeper c q g = deeper c q { g with visits := g.visits + 1 } := by
  have hv' : ¬ Config.maxVisits < g.visits + 1 := by
    simp
    omega
  simp only [walkChild, hn, hk, hv', if_false]

/-- A node's two children, walked one after the other (R150). -/
theorem walkNode_both {nodeAt : NodeIdx → Node} {d : Nat} {x : NodeIdx} {p : List Bool} {g g1 g2 : Walk}
    (h1 : walkChild nodeAt (walkNode nodeAt d) (nodeAt x).left (p ++ [false]) g = .ok g1)
    (h2 : walkChild nodeAt (walkNode nodeAt d) (nodeAt x).right (p ++ [true]) g1 = .ok g2) :
    walkNode nodeAt (d + 1) x p g = .ok g2 := by
  simp only [walkNode, h1, h2]

/-- A node is walked without error only if its two children are (R150). -/
theorem walkNode_ok {nodeAt : NodeIdx → Node} {d : Nat} {x : NodeIdx} {p : List Bool} {g g2 : Walk}
    (h : walkNode nodeAt (d + 1) x p g = .ok g2) :
    ∃ g1, walkChild nodeAt (walkNode nodeAt d) (nodeAt x).left (p ++ [false]) g = .ok g1 ∧
      walkChild nodeAt (walkNode nodeAt d) (nodeAt x).right (p ++ [true]) g1 = .ok g2 := by
  simp only [walkNode] at h
  split at h
  · cases h
  · exact ⟨_, ‹_›, h⟩

/-- On a subtree that fits, the walk succeeds and has walked exactly it (R150). -/
theorem walkChild_of_holds (nodeAt : NodeIdx → Node) :
    ∀ (T : CodeTree) (d : Nat) (c : NodeIdx) (q : List Bool) (g : Walk), Holds nodeAt c T → Fits d g T →
      walkChild nodeAt (walkNode nodeAt d) c q g = .ok (g.past q T)
  | .absent, d, c, q, g, h, _ => by
    simp only [Holds] at h
    simp [walkChild, h, Walk.past, CodeTree.size, CodeTree.sentinels, CodeTree.codes]
  | .sentinel, d, c, q, g, h, hf => by
    obtain ⟨hn, hk⟩ := h
    have hs : g.sentinelSeen = false := by
      have := hf.sentinels
      simp only [CodeTree.sentinels] at this
      cases hb : g.sentinelSeen
      · rfl
      · rw [hb] at this
        simp at this
    have hv : ¬ Config.maxVisits < g.visits + 1 := by
      have := hf.visits
      simp only [CodeTree.size] at this
      simp
      omega
    simp only [walkChild, hn, hk, hv, if_false, hs, Bool.false_eq_true]
    simp [Walk.past, CodeTree.size, CodeTree.sentinels, CodeTree.codes]
  | .leaf x, d, c, q, g, h, hf => by
    obtain ⟨hn, hk, hx⟩ := h
    have hv : ¬ Config.maxVisits < g.visits + 1 := by
      have := hf.visits
      simp only [CodeTree.size] at this
      simp
      omega
    have hfr := hf.fresh x (by simp [CodeTree.codes])
    simp only [walkChild, hn, hk, hv, if_false, hx, hfr, Bool.false_eq_true]
    simp [Walk.past, CodeTree.size, CodeTree.sentinels, CodeTree.codes, putCodes]
  | .node l r, d, c, q, g, h, hf => by
    obtain ⟨hn, hk, hl, hr⟩ := h
    have hv : g.visits + 1 ≤ 510 := by
      have := hf.visits
      simp only [CodeTree.size] at this
      omega
    obtain ⟨d, rfl⟩ : ∃ d', d = d' + 1 := ⟨d - 1, by have := hf.height; simp only [CodeTree.height] at this; omega⟩
    obtain ⟨hfl, hfr⟩ := (fits_node_iff d g (q ++ [false]) l r).1 hf
    rw [walkChild_internal q hn hk hv, walkNode_both (walkChild_of_holds nodeAt l d _ _ _ hl hfl)
      (walkChild_of_holds nodeAt r d _ _ _ hr hfr), past_node]

/-- The walk succeeds on nothing but a subtree that fits. -/
theorem walkChild_ok (nodeAt : NodeIdx → Node) :
    ∀ (d : Nat) (c : NodeIdx) (q : List Bool) (g g' : Walk), g.visits ≤ 510 →
      walkChild nodeAt (walkNode nodeAt d) c q g = .ok g' → ∃ T, Holds nodeAt c T ∧ Fits d g T := by
  intro d
  induction d with
  | zero =>
    intro c q g g' hg h
    unfold walkChild at h
    split at h
    · exact ⟨.absent, by simpa [Holds], ⟨by simp [CodeTree.height], by simpa [CodeTree.size] using hg,
        by simpa [CodeTree.sentinels] using Bool.toNat_le _, by simp [CodeTree.codes], by simp [CodeTree.codes]⟩⟩
    · split at h
      · cases h
      · rename_i hn hv
        simp only [Config.maxVisits_eq, Nat.not_lt] at hv
        split at h
        · cases h
        · split at h
          · cases h
          · rename_i hk hs
            exact ⟨.sentinel, ⟨hn, hk⟩, ⟨by simp [CodeTree.height], by simpa [CodeTree.size] using hv,
              by simp [CodeTree.sentinels, hs], by simp [CodeTree.codes], by simp [CodeTree.codes]⟩⟩
        · split at h
          · cases h
          · rename_i hk hs
            exact ⟨.leaf _, ⟨hn, hk, rfl⟩, ⟨by simp [CodeTree.height], by simpa [CodeTree.size] using hv,
              by simpa [CodeTree.sentinels] using Bool.toNat_le _, by simp [CodeTree.codes],
              by simpa [CodeTree.codes] using hs⟩⟩
        · simp [walkNode] at h
  | succ d ih =>
    intro c q g g' hg h
    unfold walkChild at h
    split at h
    · exact ⟨.absent, by simpa [Holds], ⟨by simp [CodeTree.height], by simpa [CodeTree.size] using hg,
        by simpa [CodeTree.sentinels] using Bool.toNat_le _, by simp [CodeTree.codes], by simp [CodeTree.codes]⟩⟩
    · split at h
      · cases h
      · rename_i hn hv
        simp only [Config.maxVisits_eq, Nat.not_lt] at hv
        split at h
        · cases h
        · split at h
          · cases h
          · rename_i hk hs
            exact ⟨.sentinel, ⟨hn, hk⟩, ⟨by simp [CodeTree.height], by simpa [CodeTree.size] using hv,
              by simp [CodeTree.sentinels, hs], by simp [CodeTree.codes], by simp [CodeTree.codes]⟩⟩
        · split at h
          · cases h
          · rename_i hk hs
            exact ⟨.leaf _, ⟨hn, hk, rfl⟩, ⟨by simp [CodeTree.height], by simpa [CodeTree.size] using hv,
              by simpa [CodeTree.sentinels] using Bool.toNat_le _, by simp [CodeTree.codes],
              by simpa [CodeTree.codes] using hs⟩⟩
        · rename_i hk
          obtain ⟨g1, h1, h⟩ := walkNode_ok h
          obtain ⟨l, hl, hfl⟩ := ih _ _ _ _ (by simpa using hv) h1
          rw [walkChild_of_holds nodeAt l d _ _ _ hl hfl] at h1
          cases h1
          obtain ⟨r, hr, hfr⟩ := ih _ _ _ _ hfl.visits h
          exact ⟨.node l r, ⟨hn, hk, hl, hr⟩, (fits_node_iff d g (q ++ [false]) l r).2 ⟨hfl, hfr⟩⟩

/-- An acceptable tree fits a fresh walk from its root. -/
theorem fits_of_acceptable {l r : CodeTree} (h : (CodeTree.node l r).acceptable) :
    Fits 254 .fresh l ∧ Fits 254 (Walk.fresh.past [false] l) r := by
  obtain ⟨h1, h2, h3, h4⟩ := h
  simp only [CodeTree.size, CodeTree.height, CodeTree.sentinels, Config.maxNodes_eq, Config.maxCodeLen_eq] at h1 h2 h4
  rw [symbols_node, List.nodup_append'] at h3
  refine ⟨⟨by omega, by simp only [Walk.fresh]; omega, by simp [Walk.fresh]; omega, h3.1, fun x _ => rfl⟩,
    ⟨by omega, by simp only [Walk.past, Walk.fresh]; omega, ?_, h3.2.1, fun x hx => ?_⟩⟩
  · simp only [Walk.past, Walk.fresh, Bool.false_or]
    by_cases hs : 0 < l.sentinels
    · simp [hs]
      omega
    · simp [hs]
      omega
  · simp only [Walk.past]
    rw [Bool.eq_false_iff, ne_eq, valid_putCodes]
    rintro (h | h)
    · simp [Walk.fresh, CodeEntry.blank] at h
    · exact h3.2.2 h hx

/-- GEN's computation on an acceptable tree: the leaves' entries and no other (R150, R153). -/
theorem generateTable_of_holds {s : State} {T : CodeTree} (h : s.holdsTree T) (ha : T.acceptable) :
    generateTable s.tree s.nodeAt = .ok (putCodes [] [] T.codes) := by
  obtain ⟨hv, hT⟩ := h
  cases T with
  | node l r =>
    obtain ⟨hn, hk, hl, hr⟩ := hT
    obtain ⟨hfl, hfr⟩ := fits_of_acceptable ha
    have hu : rootUsable s.nodeAt s.tree.root = true := by simp [rootUsable, hn, hk]
    have hw := walkChild_of_holds s.nodeAt l 254 _ [false] _ hl hfl
    have hw2 := walkChild_of_holds s.nodeAt r 254 _ [true] _ hr hfr
    have h255 : walkNode s.nodeAt Config.maxCodeLen s.tree.root [] .fresh = _ := walkNode_both (d := 254) hw hw2
    simp only [generateTable, hv, hu, Bool.not_true, Bool.false_eq_true, if_false, h255, putCodes_node]
    rfl
  | absent => exact ha.elim
  | sentinel => exact ha.elim
  | leaf _ => exact ha.elim

/-- GEN's computation succeeds on nothing but an acceptable tree (R151, R154 to R157). -/
theorem holds_of_generateTable {s : State} {m : Memory CodeEntry} (h : generateTable s.tree s.nodeAt = .ok m) :
    ∃ T, s.holdsTree T ∧ T.acceptable := by
  unfold generateTable at h
  split at h
  · cases h
  · rename_i hv
    split at h
    · cases h
    · rename_i hu
      simp only [rootUsable, Bool.not_eq_true', Bool.not_eq_false, Bool.and_eq_true, bne_iff_ne, ne_eq, beq_iff_eq] at hu
      split at h
      · rename_i g hg
        obtain ⟨g1, h1, hg⟩ := walkNode_ok (d := 254) hg
        obtain ⟨l, hl, hfl⟩ := walkChild_ok s.nodeAt 254 _ _ _ _ (by simp [Walk.fresh]) h1
        rw [walkChild_of_holds s.nodeAt l 254 _ _ _ hl hfl] at h1
        cases h1
        obtain ⟨r, hr, hfr⟩ := walkChild_ok s.nodeAt 254 _ _ _ _ hfl.visits hg
        have hfr' : ∀ x ∈ r.codes.map Prod.fst, x ∉ l.codes.map Prod.fst := by
          intro x hx
          have h := hfr.fresh x hx
          simp only [Walk.past] at h
          rw [Bool.eq_false_iff, ne_eq, valid_putCodes, not_or] at h
          exact h.2
        have h2 := hfr.visits
        have h3 := hfl.height
        have h4 := hfr.height
        have h5 := hfr.sentinels
        have h6 := hfl.sentinels
        simp only [Walk.past, Walk.fresh, Bool.false_or] at h2 h5 h6
        refine ⟨.node l r, ⟨by simpa using hv, hu.1, hu.2, hl, hr⟩, ?_, ?_, ?_, ?_⟩
        · simp only [CodeTree.size, Config.maxNodes_eq]
          omega
        · simp only [CodeTree.height, Config.maxCodeLen_eq]
          omega
        · rw [symbols_node, List.nodup_append']
          exact ⟨hfl.nodup, hfr.nodup, fun x hxl hxr => hfr' x hxr hxl⟩
        · simp only [CodeTree.sentinels]
          by_cases hs : 0 < l.sentinels
          · simp [hs] at h5
            simp at h6
            omega
          · simp [hs] at h5
            omega
      · cases h

/-! The walk against the list of its descents. -/

/-- Why a descent is at fault (R222). -/
def descentReason (nodeAt : NodeIdx → Node) (before : List Descent) (e : Descent) : TreeReason :=
  if Config.maxVisits ≤ before.length then .tooManyVisits
  else
    match (nodeAt e.child).kind with
    | .empty => .emptyChild
    | .sentinel => .secondSentinel
    | .leaf => .duplicateSymbol
    | .internal => .tooDeep

/-- The descents listed, made in order after `before`: the first at fault is the error. -/
def judgeDescents (nodeAt : NodeIdx → Node) : List Descent → List Descent → Except CmdError (List Descent)
  | before, [] => .ok before
  | before, e :: es =>
    if quietDescent nodeAt before e then judgeDescents nodeAt (before ++ [e]) es
    else .error (.treeInvalid e.child (descentReason nodeAt before e))

theorem judgeDescents_append (nodeAt : NodeIdx → Node) (es : List Descent) :
    ∀ (ds before : List Descent), judgeDescents nodeAt before (ds ++ es) =
      match judgeDescents nodeAt before ds with
      | .ok before' => judgeDescents nodeAt before' es
      | .error e => .error e
  | [], before => rfl
  | d :: ds, before => by
    simp only [List.cons_append, judgeDescents]
    split
    · exact judgeDescents_append nodeAt es ds _
    · rfl

theorem judgeDescents_quiet (nodeAt : NodeIdx → Node) :
    ∀ (ds before : List Descent), quietDescents nodeAt before ds = true → judgeDescents nodeAt before ds = .ok (before ++ ds)
  | [], before, _ => by simp [judgeDescents]
  | d :: ds, before, h => by
    rw [quietDescents, Bool.and_eq_true] at h
    rw [judgeDescents, if_pos h.1, judgeDescents_quiet nodeAt ds _ h.2]
    simp

/-- Descents into INTERNAL nodes not at depth 255 are not at fault while there are no more than 510. -/
theorem quietDescents_of_internal (nodeAt : NodeIdx → Node) :
    ∀ (ds before : List Descent), (∀ d ∈ ds, (nodeAt d.child).kind = .internal ∧ d.path.length < 255) →
      before.length + ds.length ≤ 510 → quietDescents nodeAt before ds = true
  | [], _, _, _ => rfl
  | d :: ds, before, h, hl => by
    obtain ⟨hk, hp⟩ := h d List.mem_cons_self
    rw [List.length_cons] at hl
    rw [quietDescents, quietDescents_of_internal nodeAt ds _ (fun a ha => h a (List.mem_cons_of_mem _ ha))
      (by rw [List.length_append, List.length_singleton]; omega), Bool.and_true]
    simp only [quietDescent, hk, Config.maxVisits_eq, Config.maxCodeLen_eq, hp, decide_true, Bool.and_true, decide_eq_true_eq]
    omega

/-- What the walk holds after the descents listed. -/
structure Walk.Records (nodeAt : NodeIdx → Node) (g : Walk) (ds : List Descent) : Prop where
  visits : g.visits = ds.length
  sentinel : g.sentinelSeen = true ↔ ∃ a ∈ ds, (nodeAt a.child).kind = .sentinel
  table : ∀ x, (codeIn g.table x).valid = true ↔ ∃ a ∈ ds, (nodeAt a.child).kind = .leaf ∧ (nodeAt a.child).sym = x

theorem records_fresh (nodeAt : NodeIdx → Node) : Walk.Records nodeAt .fresh [] where
  visits := rfl
  sentinel := by simp [Walk.fresh]
  table x := by simp [Walk.fresh, CodeEntry.blank]

/-- The walk ends as its descents, judged in order, say. -/
def Follows (nodeAt : NodeIdx → Node) : Except CmdError Walk → Except CmdError (List Descent) → Prop
  | r, .ok ds => ∃ g, r = .ok g ∧ g.Records nodeAt ds
  | r, .error e => r = .error e

/-- One child, where what is walked below it follows its descents. -/
theorem walkChild_follows {nodeAt : NodeIdx → Node} {deeper : NodeIdx → List Bool → Walk → Except CmdError Walk}
    {below : NodeIdx → List Bool → List Descent} {c : NodeIdx} {q : List Bool} {g : Walk} {ds : List Descent}
    (hg : g.Records nodeAt ds) (hq : q.length ≤ 255)
    (hdeep : q.length < 255 → ∀ (g : Walk) (ds : List Descent), g.Records nodeAt ds →
      Follows nodeAt (deeper c q g) (judgeDescents nodeAt ds (below c q)))
    (hlast : q.length = 255 → ∀ g, deeper c q g = .error (.treeInvalid c .tooDeep)) :
    Follows nodeAt (walkChild nodeAt deeper c q g) (judgeDescents nodeAt ds (descentsAt nodeAt below c q)) := by
  unfold walkChild descentsAt
  split
  · exact ⟨g, rfl, hg⟩
  · rw [judgeDescents, quietDescent, descentReason, hg.visits]
    simp only [Config.maxVisits_eq, Config.maxCodeLen_eq]
    by_cases hv : ds.length < 510
    · rw [if_neg (show ¬ 510 < ds.length + 1 by omega), if_neg (show ¬ 510 ≤ ds.length by omega)]
      simp only [hv, decide_true, Bool.true_and]
      cases hk : (nodeAt c).kind with
      | empty => simp [Follows]
      | sentinel =>
        simp only [reduceCtorEq, if_false]
        by_cases hs : g.sentinelSeen = true
        · have hn : ds.all (fun a => (nodeAt a.child).kind != .sentinel) = false := by
            obtain ⟨a, ha, hka⟩ := hg.sentinel.1 hs
            exact List.all_eq_false.2 ⟨a, ha, by simp [hka]⟩
          rw [if_pos hs, hn]
          rfl
        · have hn : ds.all (fun a => (nodeAt a.child).kind != .sentinel) = true := by
            refine List.all_eq_true.2 fun a ha => ?_
            simp only [bne_iff_ne, ne_eq]
            exact fun hka => hs (hg.sentinel.2 ⟨a, ha, hka⟩)
          rw [if_neg hs, hn, if_pos rfl]
          refine ⟨_, rfl, by simp, by simp [hk], fun x => ?_⟩
          simp [hg.table, hk]
      | leaf =>
        simp only [reduceCtorEq, if_false]
        by_cases hs : (codeIn g.table (nodeAt c).sym).valid = true
        · have hn : ds.all (fun a => (nodeAt a.child).kind != .leaf || (nodeAt a.child).sym != (nodeAt c).sym) = false := by
            obtain ⟨a, ha, hka, hsa⟩ := (hg.table _).1 hs
            exact List.all_eq_false.2 ⟨a, ha, by simp [hka, hsa]⟩
          rw [if_pos hs, hn]
          rfl
        · have hn : ds.all (fun a => (nodeAt a.child).kind != .leaf || (nodeAt a.child).sym != (nodeAt c).sym) = true := by
            refine List.all_eq_true.2 fun a ha => ?_
            simp only [Bool.or_eq_true, bne_iff_ne, ne_eq, ← not_and_or]
            exact fun hka => hs ((hg.table _).2 ⟨a, ha, hka⟩)
          rw [if_neg hs, hn, if_pos rfl]
          refine ⟨_, rfl, by simp, by simp [hg.sentinel, hk], fun x => ?_⟩
          show (codeIn (codePut g.table (nodeAt c).sym (.ofPath q)) x).valid = true ↔ _
          rw [codeIn_codePut]
          split
          · rename_i hx
            subst hx
            simp [CodeEntry.ofPath, hk]
          · rename_i hx
            simp [hg.table, hk, Ne.symm hx]
      | internal =>
        simp only [if_true]
        by_cases hl : q.length < 255
        · simp only [hl, decide_true, if_true]
          refine hdeep hl _ _ ⟨by simp, by simp [hg.sentinel, hk], fun x => by simp [hg.table, hk]⟩
        · simp only [hl, decide_false, Bool.false_eq_true, if_false]
          exact hlast (by omega) _
    · rw [if_pos (show 510 < ds.length + 1 by omega), if_pos (show 510 ≤ ds.length by omega)]
      simp [hv, Follows]

/-- Both children of a node, the left one first. -/
theorem walkBoth_follows {nodeAt : NodeIdx → Node} {d : Nat} {x : NodeIdx} {p : List Bool} {g : Walk} {ds : List Descent}
    (h : ∀ (c : NodeIdx) (b : Bool) (g : Walk) (ds : List Descent), g.Records nodeAt ds →
      Follows nodeAt (walkChild nodeAt (walkNode nodeAt d) c (p ++ [b]) g)
        (judgeDescents nodeAt ds (descentsAt nodeAt (descents nodeAt d) c (p ++ [b]))))
    (hg : g.Records nodeAt ds) :
    Follows nodeAt (walkNode nodeAt (d + 1) x p g) (judgeDescents nodeAt ds (descents nodeAt (d + 1) x p)) := by
  have hl := h (nodeAt x).left false g ds hg
  rw [descents, judgeDescents_append, walkNode]
  cases hj : judgeDescents nodeAt ds (descentsAt nodeAt (descents nodeAt d) (nodeAt x).left (p ++ [false])) with
  | error e =>
    rw [hj] at hl
    rw [show walkChild _ _ _ _ _ = _ from hl]
    rfl
  | ok ds' =>
    rw [hj] at hl
    obtain ⟨g', hg', hr⟩ := hl
    rw [hg']
    exact h (nodeAt x).right true g' ds' hr

/-- The walk below a node follows its descents (R150, R152). -/
theorem walkNode_follows (nodeAt : NodeIdx → Node) :
    ∀ (d : Nat) (x : NodeIdx) (p : List Bool) (g : Walk) (ds : List Descent), g.Records nodeAt ds → p.length + (d + 1) = 255 →
      Follows nodeAt (walkNode nodeAt (d + 1) x p g) (judgeDescents nodeAt ds (descents nodeAt (d + 1) x p)) := by
  intro d
  induction d with
  | zero =>
    intro x p g ds hg hp
    refine walkBoth_follows (fun c b g ds hg => walkChild_follows hg (by simp; omega) (fun hl => ?_) (fun _ g => rfl)) hg
    simp at hl
    omega
  | succ d ih =>
    intro x p g ds hg hp
    refine walkBoth_follows (fun c b g ds hg => walkChild_follows hg (by simp; omega) (fun _ g ds hg => ?_) (fun hl => ?_)) hg
    · exact ih c (p ++ [b]) g ds hg (by simp; omega)
    · simp at hl
      omega

/-- GEN fails at the first descent at fault (R150, R222). -/
theorem generateTable_fault {t : TreeReg} {nodeAt : NodeIdx → Node} {before after : List Descent} {e : Descent}
    (hv : t.valid = true) (hr : rootUsable nodeAt t.root = true)
    (hd : descents nodeAt 255 t.root [] = before ++ e :: after) (hb : quietDescents nodeAt [] before = true)
    (he : quietDescent nodeAt before e = false) :
    generateTable t nodeAt = .error (.treeInvalid e.child (descentReason nodeAt before e)) := by
  have hj : judgeDescents nodeAt [] (descents nodeAt 255 t.root []) =
      .error (.treeInvalid e.child (descentReason nodeAt before e)) := by
    rw [hd, judgeDescents_append, judgeDescents_quiet nodeAt before [] hb]
    simp only [List.nil_append, judgeDescents, he, Bool.false_eq_true, if_false]
  have hf := walkNode_follows nodeAt 254 t.root [] .fresh [] (records_fresh nodeAt) rfl
  rw [hj] at hf
  unfold generateTable
  rw [hv, hr, show walkNode nodeAt Config.maxCodeLen t.root [] .fresh = _ from hf]
  rfl

end Sys2Proof.Machine
end

