-- ==== Sys2Proof/Laws/PerInstr.lean ====
section
/-! SUPPORT. What holds of each command as syntax, constructor by constructor. -/

namespace Sys2Proof.Laws.LegalWord

/-- The word of the command is legal: RSVD is 0 and OPCODE is the command's own, one of those listed (R90, R92, R94). -/
def Statement (i : Instr) : Prop :=
  WellFormed.instr i = true ∧ WellFormed.commandWord (encode i) = true ∧ rsvdField (encode i) = 0#24 ∧
    opcodeField (encode i) = opcodeOf i

theorem nop : Statement .nop := by unfold Statement; decide
theorem clrfreq : Statement .clrfreq := by unfold Statement; decide
theorem clrtree : Statement .clrtree := by unfold Statement; decide
theorem clrtbl : Statement .clrtbl := by unfold Statement; decide
theorem build : Statement .build := by unfold Statement; decide
theorem gen : Statement .gen := by unfold Statement; decide
theorem enc : Statement .enc := by unfold Statement; decide
theorem dec : Statement .dec := by unfold Statement; decide
theorem tbltree : Statement .tbltree := by unfold Statement; decide

end Sys2Proof.Laws.LegalWord
end

