-- ==== Sys2Proof/Laws/Tree.lean ====
section
/-! SUPPORT. The laws of code trees held in NODE: leaves and their paths, and decoding along a path (R13, R159, R191). -/

namespace Sys2Proof.Machine

/-- A held tree with some leaf is at an index that is not NIL. -/
theorem ne_nil_of_codes {nodeAt : NodeIdx → Node} {c : NodeIdx} {T : CodeTree} {a : Symbol × List Bool}
    (h : Holds nodeAt c T) (ha : a ∈ T.codes) : c ≠ Config.nil := by
  cases T with
  | absent => simp [CodeTree.codes] at ha
  | sentinel => simp [CodeTree.codes] at ha
  | leaf x => exact h.1
  | node l r => exact h.1

/-- A code of a held tree is a path to a LEAF of its symbol. -/
theorem path_of_mem_codes {nodeAt : NodeIdx → Node} {x : Symbol} :
    ∀ {T : CodeTree} {c : NodeIdx} {q : List Bool}, Holds nodeAt c T → (x, q) ∈ T.codes →
      ∃ d, IsPath nodeAt c q d ∧ (nodeAt d).kind = .leaf ∧ (nodeAt d).sym = x
  | .absent, _, _, _, hm => by simp [CodeTree.codes] at hm
  | .sentinel, _, _, _, hm => by simp [CodeTree.codes] at hm
  | .leaf y, c, q, h, hm => by
    simp only [CodeTree.codes, List.mem_singleton, Prod.mk.injEq] at hm
    obtain ⟨rfl, rfl⟩ := hm
    exact ⟨c, rfl, h.2.1, h.2.2⟩
  | .node l r, c, q, h, hm => by
    simp only [CodeTree.codes, List.mem_append, List.mem_map, Prod.mk.injEq] at hm
    rcases hm with ⟨a, ha, rfl, rfl⟩ | ⟨a, ha, rfl, rfl⟩
    · obtain ⟨d, h1, h2⟩ := path_of_mem_codes h.2.2.1 ha
      exact ⟨d, ⟨h.2.1, ne_nil_of_codes h.2.2.1 ha, h1⟩, h2⟩
    · obtain ⟨d, h1, h2⟩ := path_of_mem_codes h.2.2.2 ha
      exact ⟨d, ⟨h.2.1, ne_nil_of_codes h.2.2.2 ha, h1⟩, h2⟩

/-- A path to a LEAF is a code of the held tree. -/
theorem mem_codes_of_path {nodeAt : NodeIdx → Node} :
    ∀ {T : CodeTree} {c d : NodeIdx} {q : List Bool}, c ≠ Config.nil → Holds nodeAt c T → IsPath nodeAt c q d →
      (nodeAt d).kind = .leaf → ((nodeAt d).sym, q) ∈ T.codes
  | .absent, _, _, _, hn, h, _, _ => absurd h hn
  | .sentinel, c, d, q, _, h, hp, hk => by
    cases q with
    | nil =>
      obtain rfl : d = c := hp
      rw [h.2] at hk
      cases hk
    | cons b q =>
      have := hp.1
      rw [h.2] at this
      cases this
  | .leaf y, c, d, q, _, h, hp, hk => by
    cases q with
    | nil =>
      obtain rfl : d = c := hp
      simp [CodeTree.codes, h.2.2]
    | cons b q =>
      have := hp.1
      rw [h.2.1] at this
      cases this
  | .node l r, c, d, q, _, h, hp, hk => by
    cases q with
    | nil =>
      obtain rfl : d = c := hp
      rw [h.2.1] at hk
      cases hk
    | cons b q =>
      obtain ⟨-, h2, h3⟩ := hp
      simp only [CodeTree.codes, List.mem_append, List.mem_map]
      cases b
      · exact .inl ⟨_, mem_codes_of_path h2 h.2.2.1 h3 hk, rfl⟩
      · exact .inr ⟨_, mem_codes_of_path h2 h.2.2.2 h3 hk, rfl⟩

/-- No code of a tree is a proper prefix of another, and equal codes are of one symbol (R159). -/
theorem codes_prefix {x y : Symbol} :
    ∀ {T : CodeTree} {p q : List Bool}, (x, p) ∈ T.codes → (y, q) ∈ T.codes → p <+: q → x = y ∧ p = q
  | .absent, _, _, hx, _, _ => by simp [CodeTree.codes] at hx
  | .sentinel, _, _, hx, _, _ => by simp [CodeTree.codes] at hx
  | .leaf z, p, q, hx, hy, _ => by
    simp only [CodeTree.codes, List.mem_singleton, Prod.mk.injEq] at hx hy
    exact ⟨hx.1.trans hy.1.symm, hx.2.trans hy.2.symm⟩
  | .node l r, p, q, hx, hy, hpq => by
    simp only [CodeTree.codes, List.mem_append, List.mem_map, Prod.mk.injEq] at hx hy
    rcases hx with ⟨a, ha, rfl, rfl⟩ | ⟨a, ha, rfl, rfl⟩ <;> rcases hy with ⟨b, hb, rfl, rfl⟩ | ⟨b, hb, rfl, rfl⟩
    · obtain ⟨h1, h2⟩ := codes_prefix ha hb (List.cons_prefix_cons.1 hpq).2
      exact ⟨h1, by rw [h2]⟩
    · exact absurd (List.cons_prefix_cons.1 hpq).1 (by simp)
    · exact absurd (List.cons_prefix_cons.1 hpq).1 (by simp)
    · obtain ⟨h1, h2⟩ := codes_prefix ha hb (List.cons_prefix_cons.1 hpq).2
      exact ⟨h1, by rw [h2]⟩

/-- A code is no longer than the tree is high. -/
theorem length_le_height {x : Symbol} : ∀ {T : CodeTree} {q : List Bool}, (x, q) ∈ T.codes → q.length ≤ T.height
  | .absent, _, h => by simp [CodeTree.codes] at h
  | .sentinel, _, h => by simp [CodeTree.codes] at h
  | .leaf y, q, h => by
    simp only [CodeTree.codes, List.mem_singleton, Prod.mk.injEq] at h
    simp [h.2]
  | .node l r, q, h => by
    simp only [CodeTree.codes, List.mem_append, List.mem_map, Prod.mk.injEq] at h
    simp only [CodeTree.height]
    rcases h with ⟨a, ha, -, rfl⟩ | ⟨a, ha, -, rfl⟩
    · have := length_le_height ha
      simp only [List.length_cons]
      omega
    · have := length_le_height ha
      simp only [List.length_cons]
      omega

/-- The codes of a node are not empty. -/
theorem code_ne_nil {x : Symbol} {l r : CodeTree} {q : List Bool} (h : (x, q) ∈ (CodeTree.node l r).codes) : q ≠ [] := by
  simp only [CodeTree.codes, List.mem_append, List.mem_map, Prod.mk.injEq] at h
  rcases h with ⟨a, -, -, rfl⟩ | ⟨a, -, -, rfl⟩ <;> simp

/-! Paths. -/

/-- The last step of a path. -/
theorem isPath_snoc (nodeAt : NodeIdx → Node) :
    ∀ (q : List Bool) (x c : NodeIdx) (b : Bool), IsPath nodeAt x (q ++ [b]) c ↔
      ∃ d, IsPath nodeAt x q d ∧ (nodeAt d).kind = .internal ∧ childAt nodeAt d b ≠ Config.nil ∧ c = childAt nodeAt d b
  | [], x, c, b => by simp [IsPath]
  | b' :: q, x, c, b => by
    simp only [List.cons_append, IsPath, isPath_snoc nodeAt q]
    constructor
    · rintro ⟨h1, h2, d, h3, h4⟩
      exact ⟨d, ⟨h1, h2, h3⟩, h4⟩
    · rintro ⟨d, ⟨h1, h2, h3⟩, h4⟩
      exact ⟨h1, h2, d, h3, h4⟩

/-- DEC along a path of INTERNAL nodes: deeper by its length, nothing emitted (R191). -/
theorem decodeBits_path (nodeAt : NodeIdx → Node) (root : NodeIdx) :
    ∀ (q : List Bool) (c : NodeIdx) (k : Nat) (d : Cursor), IsPath nodeAt d.cur q c → (nodeAt c).kind = .internal →
      d.depth + q.length ≤ 254 →
      decodeBits nodeAt root q k d = .ok { cur := c, depth := d.depth + q.length, out := d.out }
  | [], c, k, d, h, _, _ => by
    obtain rfl : c = d.cur := h
    rfl
  | b :: q, c, k, d, h, hk, hl => by
    obtain ⟨h1, h2, h3⟩ := h
    simp only [List.length_cons] at hl
    have hki : (nodeAt (childAt nodeAt d.cur b)).kind = .internal := by
      cases q with
      | nil =>
        obtain rfl : c = childAt nodeAt d.cur b := h3
        exact hk
      | cons b' q => exact h3.1
    simp only [decodeBits, decodeBit_internal h2 hki (by omega)]
    rw [decodeBits_path nodeAt root q c _ _ h3 hk (by simp only; omega)]
    simp only [List.length_cons, Except.ok.injEq, Cursor.mk.injEq, true_and, and_true]
    omega

/-- DEC along a codeword: its symbol is emitted and the cursor is at the root again (R191, R192). -/
theorem decodeBits_codeword (nodeAt : NodeIdx → Node) (root : NodeIdx) {q : List Bool} {x : Symbol} (k : Nat)
    {out : List Symbol} (h : IsCodePath nodeAt root q x) (hl : q.length ≤ 255) (ho : out.length < 4096) :
    decodeBits nodeAt root q k { cur := root, depth := 0, out := out } =
      .ok { cur := root, depth := 0, out := out ++ [x] } := by
  obtain ⟨hne, c, hp, hk, hs⟩ := h
  obtain ⟨p, b, rfl⟩ : ∃ p b, q = p ++ [b] := ⟨q.dropLast, q.getLast hne, (List.dropLast_concat_getLast hne).symm⟩
  obtain ⟨d, h1, h2, h3, rfl⟩ := (isPath_snoc nodeAt p root c b).1 hp
  simp only [List.length_append, List.length_singleton] at hl
  rw [decodeBits_append [b] p k _ _ (decodeBits_path nodeAt root p d k _ h1 h2 (by simp only; omega))]
  have hcap : ({ cur := d, depth := 0 + p.length, out := out } : Cursor).out.length ≠ 4096 := by
    simp only
    omega
  simp only [decodeBits, decodeBit_leaf (root := root) h3 hk hcap, hs]

/-! The nodes of a tree by their paths. -/

/-- The paths to the nodes of a tree. -/
def CodeTree.paths : CodeTree → List (List Bool)
  | .absent => []
  | .sentinel => [[]]
  | .leaf _ => [[]]
  | .node l r => [] :: (l.paths.map (false :: ·) ++ r.paths.map (true :: ·))

theorem length_paths : ∀ T : CodeTree, T.paths.length = T.size
  | .absent => rfl
  | .sentinel => rfl
  | .leaf _ => rfl
  | .node l r => by simp [CodeTree.paths, CodeTree.size, length_paths l, length_paths r]; omega

theorem nodup_paths : ∀ T : CodeTree, T.paths.Nodup
  | .absent => by simp [CodeTree.paths]
  | .sentinel => by simp [CodeTree.paths]
  | .leaf _ => by simp [CodeTree.paths]
  | .node l r => by
    rw [CodeTree.paths, List.nodup_cons]
    refine ⟨by simp, List.Nodup.append ?_ ?_ ?_⟩
    · exact (nodup_paths l).map (fun a b h => by simpa using h)
    · exact (nodup_paths r).map (fun a b h => by simpa using h)
    · intro q h1 h2
      obtain ⟨a, -, rfl⟩ := List.mem_map.1 h1
      obtain ⟨b, -, hb⟩ := List.mem_map.1 h2
      simp at hb

theorem nodup_codes : ∀ T : CodeTree, (T.codes.map Prod.snd).Nodup
  | .absent => by simp [CodeTree.codes]
  | .sentinel => by simp [CodeTree.codes]
  | .leaf _ => by simp [CodeTree.codes]
  | .node l r => by
    simp only [CodeTree.codes, List.map_append, List.map_map]
    refine List.Nodup.append ?_ ?_ ?_
    · have := (nodup_codes l).map (f := (false :: ·)) (fun a b h => by simpa using h)
      simpa [Function.comp_def] using this
    · have := (nodup_codes r).map (f := (true :: ·)) (fun a b h => by simpa using h)
      simpa [Function.comp_def] using this
    · intro q h1 h2
      obtain ⟨a, -, rfl⟩ := List.mem_map.1 h1
      obtain ⟨b, -, hb⟩ := List.mem_map.1 h2
      simp at hb

theorem prefix_mem_paths {x : Symbol} :
    ∀ {T : CodeTree} {q p : List Bool}, (x, q) ∈ T.codes → p <+: q → p ∈ T.paths
  | .absent, _, _, h, _ => by simp [CodeTree.codes] at h
  | .sentinel, _, _, h, _ => by simp [CodeTree.codes] at h
  | .leaf y, q, p, h, hp => by
    simp only [CodeTree.codes, List.mem_singleton, Prod.mk.injEq] at h
    rw [h.2, List.prefix_nil] at hp
    simp [CodeTree.paths, hp]
  | .node l r, q, p, h, hp => by
    simp only [CodeTree.codes, List.mem_append, List.mem_map, Prod.mk.injEq, Prod.exists] at h
    rcases p with _ | ⟨b, p⟩
    · simp [CodeTree.paths]
    · rcases h with ⟨a, c, h, rfl, rfl⟩ | ⟨a, c, h, rfl, rfl⟩
      · obtain ⟨rfl, hp2⟩ := List.cons_prefix_cons.1 hp
        have := prefix_mem_paths h hp2
        simp [CodeTree.paths, this]
      · obtain ⟨rfl, hp2⟩ := List.cons_prefix_cons.1 hp
        have := prefix_mem_paths h hp2
        simp [CodeTree.paths, this]

theorem path_of_mem_paths {nodeAt : NodeIdx → Node} :
    ∀ {T : CodeTree} {c : NodeIdx} {q : List Bool}, Holds nodeAt c T → q ∈ T.paths → ∃ d, IsPath nodeAt c q d
  | .absent, _, _, _, h => by simp [CodeTree.paths] at h
  | .sentinel, c, q, _, h => by simp [CodeTree.paths] at h; subst h; exact ⟨c, rfl⟩
  | .leaf _, c, q, _, h => by simp [CodeTree.paths] at h; subst h; exact ⟨c, rfl⟩
  | .node l r, c, q, ⟨h1, h2, h3, h4⟩, h => by
    simp only [CodeTree.paths, List.mem_cons, List.mem_append, List.mem_map] at h
    have hne : ∀ {T : CodeTree} {c : NodeIdx} {q : List Bool}, Holds nodeAt c T → q ∈ T.paths → c ≠ Config.nil := by
      intro T c q hT hq
      cases T with
      | absent => simp [CodeTree.paths] at hq
      | sentinel => exact hT.1
      | leaf _ => exact hT.1
      | node _ _ => exact hT.1
    rcases h with rfl | ⟨p, hp, rfl⟩ | ⟨p, hp, rfl⟩
    · exact ⟨c, rfl⟩
    · obtain ⟨d, hd⟩ := path_of_mem_paths h3 hp
      exact ⟨d, h2, hne h3 hp, hd⟩
    · obtain ⟨d, hd⟩ := path_of_mem_paths h4 hp
      exact ⟨d, h2, hne h4 hp, hd⟩

end Sys2Proof.Machine
end

