-- ==== Sys2Proof/Laws/TblTree.lean ====
section
/-! SUPPORT. What TBLTREE's insertions do: the tree in NODE spells the codewords inserted (R200 to R202). -/

namespace Sys2Proof.Machine

/-- NODE holds a tree whose node at index `i` is reached by the bits `S[i]`; the words `W` lead to leaves, every other
node is INTERNAL. -/
structure Spelled (W : List (Symbol × List Bool)) (S : List (List Bool)) (t : Rebuild) : Prop where
  len : S.length = t.free
  room : t.free ≤ 511
  nodup : S.Nodup
  root : S[0]? = some []
  closed : ∀ q b, q ++ [b] ∈ S → q ∈ S
  word : ∀ x q, (x, q) ∈ W → q ∈ S ∧ q ≠ [] ∧ ∀ b, q ++ [b] ∉ S
  same : ∀ x y q, (x, q) ∈ W → (y, q) ∈ W → x = y
  leaf : ∀ (i : NodeIdx) q x, S[i.toNat]? = some q → (x, q) ∈ W → nodeIn t.nodes i = leafNode x 0#32
  inner : ∀ (i : NodeIdx) q, S[i.toNat]? = some q → (∀ x, (x, q) ∉ W) →
    (nodeIn t.nodes i).kind = .internal ∧ (nodeIn t.nodes i).weight = 0#40 ∧
      ∀ b, (q ++ [b] ∉ S ∧ childOf t.nodes i b = Config.nil) ∨ S[(childOf t.nodes i b).toNat]? = some (q ++ [b])
  blank : ∀ i : NodeIdx, t.free ≤ i.toNat → nodeIn t.nodes i = Node.blank

/-- The root alone. -/
theorem spelled_root : Spelled [] [[]] { nodes := nodePut [] 0#9 hollowNode, free := 1 } where
  len := rfl
  room := by decide
  nodup := by simp
  root := rfl
  closed q b h := by simp at h
  word x q h := by simp at h
  same x y q h := by simp at h
  leaf i q x _ h := by simp at h
  inner i q h _ := by
    have hi : i.toNat = 0 := by
      by_contra hc
      rw [List.getElem?_eq_none (by simp; omega)] at h
      cases h
    obtain rfl : i = 0#9 := BitVec.eq_of_toNat_eq hi
    simp only [nodeIn_nodePut_self, childOf]
    refine ⟨rfl, rfl, fun b => .inl ⟨by simp, ?_⟩⟩
    cases b <;> rfl
  blank i h := by
    show nodeIn (nodePut [] 0#9 hollowNode) i = Node.blank
    rw [nodeIn_nodePut_ne, nodeIn_nil]
    rintro rfl
    simp at h

/-- An entry of NODE after a new node is hung below `cur`. -/
theorem nodeIn_setChild (m : Memory Node) (cur k : NodeIdx) (b : Bool) (n : Node) (hk : cur ≠ k) (i : NodeIdx) :
    nodeIn (setChild (nodePut m k n) cur b k) i =
      if i = cur then (if b then { nodeIn m cur with right := k } else { nodeIn m cur with left := k })
      else if i = k then n else nodeIn m i := by
  rw [setChild, nodeIn_nodePut]
  split
  · rw [nodeIn_nodePut_ne m n hk]
  · rw [nodeIn_nodePut]

/-- The node a new path ends in: a leaf of the symbol, or an INTERNAL node with no child. -/
def grownNode : Option Symbol → Node
  | some x => leafNode x 0#32
  | none => hollowNode

/-- A new node below an INTERNAL node with room there. -/
theorem Spelled.grow {W W' : List (Symbol × List Bool)} {S : List (List Bool)} {t : Rebuild} {cur : NodeIdx} {p : List Bool}
    {b : Bool} {lf : Option Symbol} (h : Spelled W S t) (hcur : S[cur.toNat]? = some p) (hp : ∀ x, (x, p) ∉ W)
    (hb : p ++ [b] ∉ S) (hroom : t.free < 511)
    (hW : ∀ y q, (y, q) ∈ W' ↔ (y, q) ∈ W ∨ (q = p ++ [b] ∧ lf = some y)) :
    Spelled W' (S ++ [p ++ [b]])
      { nodes := setChild (nodePut t.nodes (BitVec.ofNat 9 t.free) (grownNode lf)) cur b (BitVec.ofNat 9 t.free)
        free := t.free + 1 } := by
  have hlen := h.len
  have hk : (BitVec.ofNat 9 t.free).toNat = t.free := by simp; omega
  have hcurlt : cur.toNat < S.length := (List.getElem?_eq_some_iff.1 hcur).1
  have hck : cur ≠ BitVec.ofNat 9 t.free := by
    rintro rfl
    omega
  have hpS : p ∈ S := List.mem_of_getElem? hcur
  have hgetold : ∀ i, i < S.length → (S ++ [p ++ [b]])[i]? = S[i]? := fun i hi => List.getElem?_append_left hi
  have hgetnew : (S ++ [p ++ [b]])[t.free]? = some (p ++ [b]) := by
    rw [List.getElem?_append_right (by omega)]; simp [hlen]
  have hone : ∀ (i : NodeIdx) q, (S ++ [p ++ [b]])[i.toNat]? = some q →
      S[i.toNat]? = some q ∨ (i = BitVec.ofNat 9 t.free ∧ q = p ++ [b]) := fun i q hi => by
    by_cases hlt : i.toNat < S.length
    · exact .inl (by rwa [hgetold _ hlt] at hi)
    · have hi' := (List.getElem?_eq_some_iff.1 hi).1
      simp only [List.length_append, List.length_singleton] at hi'
      have he : i.toNat = t.free := by omega
      rw [he, hgetnew] at hi
      exact .inr ⟨BitVec.eq_of_toNat_eq (by rw [he, hk]), (Option.some.inj hi).symm⟩
  have hnode := nodeIn_setChild t.nodes cur (BitVec.ofNat 9 t.free) b (grownNode lf) hck
  refine ⟨by simp [hlen], by simp; omega, ?_, ?_, ?_, ?_, ?_, ?_, ?_, ?_⟩
  · exact List.Nodup.append h.nodup (by simp) (by simpa using hb)
  · rw [hgetold 0 (by omega)]; exact h.root
  · intro q c hq
    rcases List.mem_append.1 hq with hq | hq
    · exact List.mem_append_left _ (h.closed q c hq)
    · rw [List.mem_singleton] at hq
      obtain ⟨rfl, -⟩ := List.append_inj' hq rfl
      exact List.mem_append_left _ hpS
  · intro x q hx
    rcases (hW x q).1 hx with hx | ⟨rfl, -⟩
    · obtain ⟨h1, h2, h3⟩ := h.word x q hx
      refine ⟨List.mem_append_left _ h1, h2, fun c hc => ?_⟩
      rcases List.mem_append.1 hc with hc | hc
      · exact h3 c hc
      · rw [List.mem_singleton] at hc
        obtain ⟨rfl, -⟩ := List.append_inj' hc rfl
        exact hp x hx
    · refine ⟨by simp, by simp, fun c hc => ?_⟩
      rcases List.mem_append.1 hc with hc | hc
      · exact hb (h.closed _ c hc)
      · rw [List.mem_singleton] at hc
        have := congrArg List.length hc
        simp at this
  · intro x y q hx hy
    rcases (hW x q).1 hx with hx1 | ⟨hq1, hx1⟩
    · rcases (hW y q).1 hy with hy1 | ⟨hq2, -⟩
      · exact h.same x y q hx1 hy1
      · rw [hq2] at hx1; exact absurd (h.word _ _ hx1).1 hb
    · rcases (hW y q).1 hy with hy1 | ⟨-, hy1⟩
      · rw [hq1] at hy1; exact absurd (h.word _ _ hy1).1 hb
      · rw [hx1] at hy1; exact Option.some.inj hy1
  · intro i q x hi hx
    show nodeIn (setChild _ cur b _) i = _
    rw [hnode]
    rcases hone i q hi with hi' | ⟨rfl, rfl⟩
    · have hq : q ∈ S := List.mem_of_getElem? hi'
      rcases (hW x q).1 hx with hx | ⟨rfl, -⟩
      · rw [if_neg, if_neg]
        · exact h.leaf i q x hi' hx
        · rintro rfl
          have := (List.getElem?_eq_some_iff.1 hi').1
          omega
        · rintro rfl
          rw [hcur] at hi'
          rw [← Option.some.inj hi'] at hx
          exact hp x hx
      · exact absurd hq hb
    · rw [if_neg (Ne.symm hck), if_pos rfl]
      rcases (hW x _).1 hx with hx | ⟨-, hx⟩
      · exact absurd (h.word _ _ hx).1 hb
      · rw [hx]; rfl
  · intro i q hi hx
    have hchild : ∀ c, childOf (setChild (nodePut t.nodes (BitVec.ofNat 9 t.free) (grownNode lf)) cur b (BitVec.ofNat 9 t.free)) i c =
        if c then (nodeIn (setChild (nodePut t.nodes (BitVec.ofNat 9 t.free) (grownNode lf)) cur b (BitVec.ofNat 9 t.free)) i).right
        else (nodeIn (setChild (nodePut t.nodes (BitVec.ofNat 9 t.free) (grownNode lf)) cur b (BitVec.ofNat 9 t.free)) i).left :=
      fun c => rfl
    simp only [hchild, hnode]
    rcases hone i q hi with hi' | ⟨rfl, rfl⟩
    · have hilt := (List.getElem?_eq_some_iff.1 hi').1
      have hik : i ≠ BitVec.ofNat 9 t.free := by
        rintro rfl
        omega
      have hxold : ∀ x, (x, q) ∉ W := fun x hc => hx x ((hW x q).2 (.inl hc))
      obtain ⟨h1, h2, h3⟩ := h.inner i q hi' hxold
      -- a child that was there is there still
      have hkeep : ∀ c, q ++ [c] ≠ p ++ [b] →
          (q ++ [c] ∉ S ++ [p ++ [b]] ∧ childOf t.nodes i c = Config.nil) ∨
            (S ++ [p ++ [b]])[(childOf t.nodes i c).toNat]? = some (q ++ [c]) := fun c hne => by
        rcases h3 c with ⟨h4, h5⟩ | h4
        · exact .inl ⟨by simp [h4, hne], h5⟩
        · exact .inr (by rwa [hgetold _ (List.getElem?_eq_some_iff.1 h4).1])
      by_cases hic : i = cur
      · subst hic
        have hqp : q = p := by rw [hcur] at hi'; exact (Option.some.inj hi').symm
        subst hqp
        rw [if_pos rfl]
        refine ⟨by cases b <;> exact h1, by cases b <;> exact h2, fun c => ?_⟩
        by_cases hcb : c = b
        · subst hcb
          refine .inr ?_
          have : (if c = true then (if c = true then { nodeIn t.nodes i with right := BitVec.ofNat 9 t.free }
                else { nodeIn t.nodes i with left := BitVec.ofNat 9 t.free }).right
              else (if c = true then { nodeIn t.nodes i with right := BitVec.ofNat 9 t.free }
                else { nodeIn t.nodes i with left := BitVec.ofNat 9 t.free }).left) = BitVec.ofNat 9 t.free := by
            cases c <;> rfl
          rw [this, hk, hgetnew]
        · have hold : (if c = true then (if b = true then { nodeIn t.nodes i with right := BitVec.ofNat 9 t.free }
                else { nodeIn t.nodes i with left := BitVec.ofNat 9 t.free }).right
              else (if b = true then { nodeIn t.nodes i with right := BitVec.ofNat 9 t.free }
                else { nodeIn t.nodes i with left := BitVec.ofNat 9 t.free }).left) = childOf t.nodes i c := by
            cases c <;> cases b <;> simp_all [childOf]
          rw [hold]
          exact hkeep c (fun he => hcb (by simpa using he))
      · rw [if_neg hic, if_neg hik]
        refine ⟨h1, h2, fun c => hkeep c (fun he => ?_)⟩
        have hqp : q = p := by simpa using (List.append_inj' he rfl).1
        subst hqp
        have := (List.nodup_iff_getElem?_ne_getElem?.1 h.nodup)
        by_cases hlt : i.toNat < cur.toNat
        · exact this _ _ hlt (by omega) (by rw [hi', hcur])
        · have hne : i.toNat ≠ cur.toNat := fun he => hic (BitVec.eq_of_toNat_eq he)
          exact this _ _ (show cur.toNat < i.toNat by omega) (by omega) (by rw [hi', hcur])
    · rw [if_neg (Ne.symm hck), if_pos rfl]
      have hlf : lf = none := by
        cases lf with
        | none => rfl
        | some y => exact absurd ((hW y _).2 (.inr ⟨rfl, rfl⟩)) (hx y)
      subst hlf
      refine ⟨rfl, rfl, fun c => .inl ⟨fun hc => ?_, by cases c <;> rfl⟩⟩
      rcases List.mem_append.1 hc with hc | hc
      · exact hb (h.closed _ c hc)
      · rw [List.mem_singleton] at hc
        have := congrArg List.length hc
        simp at this
  · intro i hi
    simp only at hi
    show nodeIn (setChild _ cur b _) i = _
    rw [hnode, if_neg (by rintro rfl; omega), if_neg (by rintro rfl; omega)]
    exact h.blank i (by omega)

/-! A whole codeword inserted. -/

/-- The node on side `b` of an INTERNAL node with path `p`: there is none, or it is the one with path `p ++ [b]`. -/
theorem Spelled.child {W : List (Symbol × List Bool)} {S : List (List Bool)} {t : Rebuild} (h : Spelled W S t) {cur : NodeIdx}
    {p : List Bool} (hcur : S[cur.toNat]? = some p) (hp : ∀ x, (x, p) ∉ W) (b : Bool) :
    (p ++ [b] ∉ S ∧ childOf t.nodes cur b = Config.nil) ∨
      (p ++ [b] ∈ S ∧ childOf t.nodes cur b ≠ Config.nil ∧ S[(childOf t.nodes cur b).toNat]? = some (p ++ [b])) := by
  obtain ⟨-, -, h3⟩ := h.inner cur p hcur hp
  rcases h3 b with h4 | h4
  · exact .inl h4
  · refine .inr ⟨List.mem_of_getElem? h4, fun hc => ?_, h4⟩
    rw [hc] at h4
    have := (List.getElem?_eq_some_iff.1 h4).1
    have := h.len
    have := h.room
    simp [Config.nil] at *
    omega

/-- The node with path `q` is a LEAF exactly when `q` is a word. -/
theorem Spelled.kind_leaf {W : List (Symbol × List Bool)} {S : List (List Bool)} {t : Rebuild} (h : Spelled W S t) {i : NodeIdx}
    {q : List Bool} (hi : S[i.toNat]? = some q) : (nodeIn t.nodes i).kind = .leaf ↔ ∃ x, (x, q) ∈ W := by
  constructor
  · intro hk
    by_contra hc
    obtain ⟨h1, -, -⟩ := h.inner i q hi (fun x hx => hc ⟨x, hx⟩)
    rw [h1] at hk
    cases hk
  · rintro ⟨x, hx⟩
    rw [h.leaf i q x hi hx]
    rfl

/-- The rest `bs` of the codeword `p ++ bs` inserted from the node with path `p` (R200, R201, R202). It succeeds exactly when
the whole codeword is no path yet, no word is a prefix of it, and there is room; then the paths are the old ones and its
prefixes. -/
theorem insertBits_spec (x : Symbol) :
    ∀ (bs : List Bool) (p : List Bool) (cur : NodeIdx) (t : Rebuild) (W : List (Symbol × List Bool)) (S : List (List Bool)),
      bs ≠ [] → Spelled W S t → S[cur.toNat]? = some p → (∀ y, (y, p) ∉ W) →
      (∀ t', insertBits x bs cur t = .ok t' →
        ∃ S', Spelled ((x, p ++ bs) :: W) S' t' ∧ ∀ q, q ∈ S' ↔ q ∈ S ∨ (p <+: q ∧ q <+: p ++ bs)) ∧
      ((p ++ bs ∉ S) → (∀ y q, (y, q) ∈ W → p <+: q → ¬ q <+: p ++ bs) →
        (∀ S' : List (List Bool), S'.Nodup → (∀ q ∈ S', q ∈ S ∨ (p <+: q ∧ q <+: p ++ bs)) → S'.length ≤ 511) →
        ∃ t', insertBits x bs cur t = .ok t')
  | [], _, _, _, _, _, h, _, _, _ => absurd rfl h
  | [b], p, cur, t, W, S, _, h, hcur, hp => by
    have hpS : p ∈ S := List.mem_of_getElem? hcur
    rw [insertBits]
    rcases h.child hcur hp b with ⟨h1, h2⟩ | ⟨h1, h2, -⟩
    · rw [if_neg (by simp [h2])]
      obtain ⟨hfull, hg⟩ | ⟨hroom, hg⟩ := growChild_cases x cur b (leafNode x 0#32) t
      · refine ⟨fun t' ht => (by rw [hg] at ht; cases ht), fun _ _ hcap => ?_⟩
        have := hcap (S ++ [p ++ [b]]) (List.Nodup.append h.nodup (by simp) (by simpa using h1)) (fun q hq => by
          rcases List.mem_append.1 hq with hq | hq
          · exact .inl hq
          · rw [List.mem_singleton] at hq
            subst hq
            exact .inr ⟨List.prefix_append _ _, List.prefix_refl _⟩)
        have := h.len
        simp at *
        omega
      · refine ⟨fun t' ht => ?_, fun _ _ _ => ⟨_, hg⟩⟩
        rw [hg] at ht
        cases ht
        refine ⟨_, h.grow (lf := some x) hcur hp h1 hroom (fun y q => ?_), fun q => ?_⟩
        · simp only [List.mem_cons, Prod.mk.injEq, Option.some.injEq]
          constructor
          · rintro (⟨rfl, rfl⟩ | hm)
            · exact .inr ⟨rfl, rfl⟩
            · exact .inl hm
          · rintro (hm | ⟨rfl, rfl⟩)
            · exact .inr hm
            · exact .inl ⟨rfl, rfl⟩
        · simp only [List.mem_append, List.mem_singleton]
          constructor
          · rintro (hq | rfl)
            · exact .inl hq
            · exact .inr ⟨List.prefix_append _ _, List.prefix_refl _⟩
          · rintro (hq | ⟨⟨r, rfl⟩, hq⟩)
            · exact .inl hq
            · rw [List.prefix_append_right_inj] at hq
              rcases r with _ | ⟨c, r⟩
              · exact .inl (by simpa using hpS)
              · obtain ⟨rfl, hr⟩ := List.cons_prefix_cons.1 hq
                rw [List.prefix_nil] at hr
                subst hr
                exact .inr rfl
    · rw [if_pos h2]
      exact ⟨fun t' ht => (by cases ht), fun hc => absurd h1 hc⟩
  | b :: c :: bs, p, cur, t, W, S, _, h, hcur, hp => by
    have hpS : p ∈ S := List.mem_of_getElem? hcur
    have hassoc : p ++ [b] ++ (c :: bs) = p ++ (b :: c :: bs) := by simp
    have hmid : ∀ q : List Bool, (p <+: q ∧ q <+: p ++ (b :: c :: bs)) ↔ (q = p ∨ (p ++ [b] <+: q ∧ q <+: p ++ (b :: c :: bs))) := by
      intro q
      constructor
      · rintro ⟨⟨r, rfl⟩, hq⟩
        rw [List.prefix_append_right_inj] at hq
        rcases r with _ | ⟨d, r⟩
        · exact .inl (by simp)
        · obtain ⟨rfl, -⟩ := List.cons_prefix_cons.1 hq
          refine .inr ⟨⟨r, by simp⟩, ?_⟩
          rwa [List.prefix_append_right_inj]
      · rintro (rfl | ⟨h1, h2⟩)
        · exact ⟨List.prefix_refl _, List.prefix_append _ _⟩
        · exact ⟨(List.prefix_append p [b]).trans h1, h2⟩
    have hpre : p ++ [b] <+: p ++ (b :: c :: bs) := ⟨c :: bs, hassoc⟩
    rw [insertBits]
    swap
    · simp
    rcases h.child hcur hp b with ⟨h1, h2⟩ | ⟨h1, h2, h3⟩
    · rw [if_pos h2]
      have hcapS : (∀ S' : List (List Bool), S'.Nodup → (∀ q ∈ S', q ∈ S ∨ (p <+: q ∧ q <+: p ++ (b :: c :: bs))) → S'.length ≤ 511) →
          S.length + 1 ≤ 511 := fun hcap => by
        have := hcap (S ++ [p ++ [b]]) (List.Nodup.append h.nodup (by simp) (by simpa using h1)) (fun q hq => by
          rcases List.mem_append.1 hq with hq | hq
          · exact .inl hq
          · rw [List.mem_singleton] at hq
            subst hq
            exact .inr ⟨List.prefix_append _ _, hpre⟩)
        simpa using this
      have hlen := h.len
      obtain ⟨hfull, hg⟩ | ⟨hroom, hg⟩ := growChild_cases x cur b hollowNode t
      · rw [hg]
        refine ⟨fun t' ht => (by cases ht), fun _ _ hcap => ?_⟩
        have := hcapS hcap
        omega
      · rw [hg]
        have hS := h.grow (W' := W) (lf := none) hcur hp h1 hroom (fun y q => by simp)
        have hk : (BitVec.ofNat 9 t.free).toNat = t.free := by simp; omega
        have hnew : (S ++ [p ++ [b]])[(BitVec.ofNat 9 t.free).toNat]? = some (p ++ [b]) := by
          rw [hk, List.getElem?_append_right (by omega)]; simp [hlen]
        have hpb : ∀ y, (y, p ++ [b]) ∉ W := fun y hy => h1 (h.word _ _ hy).1
        obtain ⟨i1, i2⟩ := insertBits_spec x (c :: bs) (p ++ [b]) (BitVec.ofNat 9 t.free) _ W _ (by simp) hS hnew hpb
        rw [hassoc] at i1 i2
        refine ⟨fun t' ht => ?_, fun hnot hno hcap => i2 ?_ ?_ ?_⟩
        · obtain ⟨S', j1, j2⟩ := i1 t' ht
          refine ⟨S', j1, fun q => ?_⟩
          rw [j2, hmid, List.mem_append, List.mem_singleton]
          constructor
          · rintro ((hq | rfl) | hq)
            · exact .inl hq
            · exact .inr (.inr ⟨List.prefix_refl _, hpre⟩)
            · exact .inr (.inr hq)
          · rintro (hq | rfl | hq)
            · exact .inl (.inl hq)
            · exact .inl (.inl hpS)
            · exact .inr hq
        · intro hm
          rcases List.mem_append.1 hm with hm | hm
          · exact hnot hm
          · have := congrArg List.length (List.mem_singleton.1 hm)
            simp at this
        · exact fun y q hy hq => hno y q hy ((List.prefix_append p [b]).trans hq)
        · intro S' hn hS'
          refine hcap S' hn (fun q hq => ?_)
          rw [hmid]
          rcases hS' q hq with hq | hq
          · rcases List.mem_append.1 hq with hq | hq
            · exact .inl hq
            · rw [List.mem_singleton] at hq
              subst hq
              exact .inr (.inr ⟨List.prefix_refl _, hpre⟩)
          · exact .inr (.inr hq)
    · rw [if_neg h2]
      by_cases hk : (nodeIn t.nodes (childOf t.nodes cur b)).kind = .leaf
      · rw [if_pos hk]
        obtain ⟨y, hy⟩ := (h.kind_leaf h3).1 hk
        exact ⟨fun t' ht => (by cases ht), fun _ hno _ => absurd hpre (hno y _ hy (List.prefix_append _ _))⟩
      · rw [if_neg hk]
        have hpb : ∀ y, (y, p ++ [b]) ∉ W := fun y hy => hk ((h.kind_leaf h3).2 ⟨y, hy⟩)
        obtain ⟨i1, i2⟩ := insertBits_spec x (c :: bs) (p ++ [b]) (childOf t.nodes cur b) t W S (by simp) h h3 hpb
        rw [hassoc] at i1 i2
        refine ⟨fun t' ht => ?_, fun hnot hno hcap => i2 hnot ?_ ?_⟩
        · obtain ⟨S', j1, j2⟩ := i1 t' ht
          refine ⟨S', j1, fun q => ?_⟩
          rw [j2, hmid]
          constructor
          · rintro (hq | hq)
            · exact .inl hq
            · exact .inr (.inr hq)
          · rintro (hq | rfl | hq)
            · exact .inl hq
            · exact .inl hpS
            · exact .inr hq
        · exact fun y q hy hq => hno y q hy ((List.prefix_append p [b]).trans hq)
        · intro S' hn hS'
          refine hcap S' hn (fun q hq => ?_)
          rw [hmid]
          rcases hS' q hq with hq | hq
          · exact .inl hq
          · exact .inr (.inr hq)

/-! The whole table. -/

/-- The paths are the prefixes of the words, and the empty one. -/
def PathsOf (W : List (Symbol × List Bool)) (S : List (List Bool)) : Prop :=
  ∀ q, q ∈ S ↔ q = [] ∨ ∃ y u, (y, u) ∈ W ∧ q <+: u

/-- The words are the codewords of the valid entries of the symbols `P`. -/
def WordsOf (codeAt : Symbol → CodeEntry) (P : Symbol → Prop) (W : List (Symbol × List Bool)) : Prop :=
  ∀ y u, (y, u) ∈ W ↔ P y ∧ (codeAt y).valid = true ∧ u = (codeAt y).codeword

theorem codeword_ne_nil {e : CodeEntry} (h : e.len ≠ 0#8) : e.codeword ≠ [] := fun hc => by
  have := congrArg List.length hc
  rw [length_codeword] at this
  exact h (BitVec.eq_of_toNat_eq (by simpa using this))

/-- One entry inserted (R200). -/
theorem insertEntry_spec {codeAt : Symbol → CodeEntry} {P : Symbol → Prop} {x : Symbol} {t : Rebuild}
    {W : List (Symbol × List Bool)} {S : List (List Bool)} (h : Spelled W S t) (hS : PathsOf W S) (hW : WordsOf codeAt P W)
    (hx : ¬ P x) :
    (∀ t', insertEntry x (codeAt x) t = .ok t' → ((codeAt x).valid = true → (codeAt x).len ≠ 0#8) ∧
      ∃ W' S', Spelled W' S' t' ∧ PathsOf W' S' ∧ WordsOf codeAt (fun y => P y ∨ y = x) W') ∧
    (((codeAt x).valid = true → (codeAt x).len ≠ 0#8) → (∀ y, P y → (codeAt y).valid = true → (codeAt y).usable = true) → PrefixFree codeAt →
      (∀ S' : List (List Bool), S'.Nodup →
        (∀ q ∈ S', q = [] ∨ ∃ y, (codeAt y).valid = true ∧ q <+: (codeAt y).codeword) → S'.length ≤ 511) →
      ∃ t', insertEntry x (codeAt x) t = .ok t') := by
  rw [insertEntry]
  by_cases hv : (codeAt x).valid = true
  · simp only [hv, Bool.not_true, Bool.false_eq_true, if_false]
    by_cases hl : (codeAt x).len = 0#8
    · rw [if_pos hl]
      exact ⟨fun t' ht => (by cases ht), fun hc => absurd hl (hc trivial)⟩
    · rw [if_neg hl]
      have hne := codeword_ne_nil hl
      obtain ⟨i1, i2⟩ := insertBits_spec x (codeAt x).codeword [] 0#9 t W S hne h h.root (fun y hy => (h.word _ _ hy).2.1 rfl)
      rw [List.nil_append] at i1 i2
      refine ⟨fun t' ht => ⟨fun _ => hl, ?_⟩, fun _ hu hpf hcap => i2 ?_ ?_ ?_⟩
      · obtain ⟨S', j1, j2⟩ := i1 t' ht
        refine ⟨_, S', j1, fun q => ?_, fun y u => ?_⟩
        · rw [j2, hS]
          constructor
          · rintro ((hq | ⟨y, u, hy, hq⟩) | ⟨-, hq⟩)
            · exact .inl hq
            · exact .inr ⟨y, u, List.mem_cons_of_mem _ hy, hq⟩
            · exact .inr ⟨x, _, List.mem_cons_self, hq⟩
          · rintro (hq | ⟨y, u, hy, hq⟩)
            · exact .inl (.inl hq)
            · rcases List.mem_cons.1 hy with hy | hy
              · cases hy
                exact .inr ⟨List.nil_prefix, hq⟩
              · exact .inl (.inr ⟨y, u, hy, hq⟩)
        · rw [List.mem_cons, hW, Prod.mk.injEq]
          constructor
          · rintro (⟨rfl, rfl⟩ | ⟨h1, h2, h3⟩)
            · exact ⟨.inr rfl, hv, rfl⟩
            · exact ⟨.inl h1, h2, h3⟩
          · rintro ⟨h1 | rfl, h2, h3⟩
            · exact .inr ⟨h1, h2, h3⟩
            · exact .inl ⟨rfl, h3⟩
      · have hux : (codeAt x).usable = true := by simp [CodeEntry.usable, hv, hl]
        rw [hS]
        rintro (hq | ⟨y, u, hy, hq⟩)
        · exact hne hq
        · obtain ⟨hP, hyv, rfl⟩ := (hW y u).1 hy
          exact hpf x y hux (hu y hP hyv) (fun he => hx (he ▸ hP)) hq
      · have hux : (codeAt x).usable = true := by simp [CodeEntry.usable, hv, hl]
        intro y q hy _ hq
        obtain ⟨hP, hyv, rfl⟩ := (hW y q).1 hy
        exact hpf y x (hu y hP hyv) hux (fun he => hx (he ▸ hP)) hq
      · intro S' hn hS'
        refine hcap S' hn (fun q hq => ?_)
        rcases hS' q hq with hq | ⟨-, hq⟩
        · rcases (hS q).1 hq with hq | ⟨y, u, hy, hq⟩
          · exact .inl hq
          · obtain ⟨-, hyv, rfl⟩ := (hW y u).1 hy
            exact .inr ⟨y, hyv, hq⟩
        · exact .inr ⟨x, hv, hq⟩
  · simp only [hv, Bool.not_false, if_true]
    refine ⟨fun t' ht => ?_, fun _ _ _ _ => ⟨t, rfl⟩⟩
    cases ht
    refine ⟨fun hc => absurd hc (by simp), W, S, h, hS, fun y u => ?_⟩
    rw [hW]
    constructor
    · rintro ⟨h1, h2⟩
      exact ⟨.inl h1, h2⟩
    · rintro ⟨h1 | rfl, h2⟩
      · exact ⟨h1, h2⟩
      · exact absurd h2.1 hv

/-- The entries of the symbols listed, inserted in order (R200). -/
theorem insertEntries_spec {codeAt : Symbol → CodeEntry} :
    ∀ (xs : List Symbol) (P : Symbol → Prop) (t : Rebuild) (W : List (Symbol × List Bool)) (S : List (List Bool)), xs.Nodup →
      Spelled W S t → PathsOf W S → WordsOf codeAt P W → (∀ x ∈ xs, ¬ P x) →
      (∀ t', insertEntries codeAt xs t = .ok t' → (∀ x ∈ xs, (codeAt x).valid = true → (codeAt x).len ≠ 0#8) ∧
        ∃ W' S', Spelled W' S' t' ∧ PathsOf W' S' ∧ WordsOf codeAt (fun y => P y ∨ y ∈ xs) W') ∧
      ((∀ x, (codeAt x).valid = true → (codeAt x).len ≠ 0#8) → (∀ y, P y → (codeAt y).valid = true → (codeAt y).usable = true) →
        PrefixFree codeAt →
        (∀ S' : List (List Bool), S'.Nodup →
          (∀ q ∈ S', q = [] ∨ ∃ y, (codeAt y).valid = true ∧ q <+: (codeAt y).codeword) → S'.length ≤ 511) →
        ∃ t', insertEntries codeAt xs t = .ok t')
  | [], P, t, W, S, _, h, hS, hW, _ => by
    refine ⟨fun t' ht => ?_, fun _ _ _ _ => ⟨t, rfl⟩⟩
    cases ht
    exact ⟨by simp, W, S, h, hS, by simpa using hW⟩
  | x :: xs, P, t, W, S, hn, h, hS, hW, hx => by
    rw [List.nodup_cons] at hn
    obtain ⟨i1, i2⟩ := insertEntry_spec h hS hW (hx x (by simp))
    rw [insertEntries]
    constructor
    · intro t' ht
      split at ht
      · rename_i t1 ht1
        obtain ⟨j1, W1, S1, j2, j3, j4⟩ := i1 t1 ht1
        obtain ⟨k1, W2, S2, k2, k3, k4⟩ := (insertEntries_spec xs _ t1 W1 S1 hn.2 j2 j3 j4 (fun y hy hc => by
          rcases hc with hc | rfl
          · exact hx y (List.mem_cons_of_mem _ hy) hc
          · exact hn.1 hy)).1 t' ht
        refine ⟨fun y hy => ?_, W2, S2, k2, k3, fun y u => ?_⟩
        · rcases List.mem_cons.1 hy with rfl | hy
          · exact j1
          · exact k1 y hy
        · rw [k4]
          simp only [List.mem_cons, or_assoc]
      · cases ht
    · intro hl hu hpf hcap
      obtain ⟨t1, ht1⟩ := i2 (hl x) hu hpf hcap
      obtain ⟨j1, W1, S1, j2, j3, j4⟩ := i1 t1 ht1
      rw [ht1]
      refine (insertEntries_spec xs _ t1 W1 S1 hn.2 j2 j3 j4 (fun y hy hc => by
          rcases hc with hc | rfl
          · exact hx y (List.mem_cons_of_mem _ hy) hc
          · exact hn.1 hy)).2 hl ?_ hpf hcap
      rintro y (hy | rfl)
      · exact hu y hy
      · intro hv
        simp [CodeEntry.usable, hv, hl y hv]

/-- What TBLTREE leaves when it succeeds (R200, R201). -/
theorem rebuildTree_ok {codeAt : Symbol → CodeEntry} {m : Memory Node} {tr : TreeReg} (h : rebuildTree codeAt = .ok (m, tr)) :
    tr = { valid := true, root := 0#9 } ∧ (∃ x, (codeAt x).valid = true) ∧
      (∀ x, (codeAt x).valid = true → (codeAt x).len ≠ 0#8) ∧
      ∃ W S k, Spelled W S { nodes := m, free := k } ∧ PathsOf W S ∧ WordsOf codeAt (fun _ => True) W := by
  rw [rebuildTree] at h
  split at h
  · cases h
  · rename_i hall
    split at h
    · rename_i t ht
      cases h
      obtain ⟨h1, W, S, h2, h3, h4⟩ := (insertEntries_spec allSymbols (fun _ => False) _ [] [[]] allSymbols_nodup spelled_root
        (fun q => by simp) (fun y u => by simp) (by simp)).1 t ht
      refine ⟨rfl, ?_, fun x => h1 x (mem_allSymbols x), W, S, t.free, h2, h3, fun y u => by simpa using h4 y u⟩
      simpa using hall
    · cases h

/-- When TBLTREE succeeds (R200 to R202): some valid entry, none of length 0, a prefix code, and at most 511 paths. -/
theorem rebuildTree_ok_of {codeAt : Symbol → CodeEntry} (h1 : ∃ x, (codeAt x).valid = true)
    (h2 : ∀ x, (codeAt x).valid = true → (codeAt x).len ≠ 0#8) (h3 : PrefixFree codeAt)
    (h4 : ∀ S : List (List Bool), S.Nodup →
      (∀ q ∈ S, q = [] ∨ ∃ y, (codeAt y).valid = true ∧ q <+: (codeAt y).codeword) → S.length ≤ 511) :
    ∃ m, rebuildTree codeAt = .ok (m, { valid := true, root := 0#9 }) := by
  obtain ⟨t, ht⟩ := (insertEntries_spec allSymbols (fun _ => False) _ [] [[]] allSymbols_nodup spelled_root
    (fun q => by simp) (fun y u => by simp) (by simp)).2 h2 (by simp) h3 h4
  refine ⟨t.nodes, ?_⟩
  obtain ⟨x, hx⟩ := h1
  have hall : allSymbols.all (fun x => !(codeAt x).valid) = false := by
    rw [List.all_eq_false]
    exact ⟨x, mem_allSymbols x, by simp [hx]⟩
  rw [rebuildTree, hall, ht]
  rfl

/-! The tree spelled. -/

/-- Every prefix of a path is a path. -/
theorem Spelled.prefix_mem {W : List (Symbol × List Bool)} {S : List (List Bool)} {t : Rebuild} (h : Spelled W S t) :
    ∀ (r q : List Bool), q ++ r ∈ S → q ∈ S
  | [], q, hq => by simpa using hq
  | b :: r, q, hq => h.closed q b (h.prefix_mem r (q ++ [b]) (by simpa using hq))

/-- From the node with path `p` the bits `q` lead to the node with path `p ++ q`, as long as they pass through no word. -/
theorem Spelled.isPath_iff {W : List (Symbol × List Bool)} {S : List (List Bool)} {t : Rebuild} (h : Spelled W S t) :
    ∀ (q p : List Bool) (a c : NodeIdx), S[a.toNat]? = some p →
      (IsPath (nodeIn t.nodes) a q c ↔
        S[c.toNat]? = some (p ++ q) ∧ ∀ r b u, q = r ++ b :: u → ∀ x, (x, p ++ r) ∉ W)
  | [], p, a, c, ha => by
    simp only [IsPath, List.append_nil]
    constructor
    · rintro rfl
      exact ⟨ha, fun r b u hr => by simp at hr⟩
    · rintro ⟨hc, -⟩
      rw [← ha] at hc
      have hlt : c.toNat < S.length := by
        rw [ha] at hc
        exact (List.getElem?_eq_some_iff.1 hc).1
      exact BitVec.eq_of_toNat_eq ((List.getElem?_inj hlt h.nodup).1 hc)
  | b :: q, p, a, c, ha => by
    rw [IsPath]
    constructor
    · rintro ⟨h1, h2, h3⟩
      have hp : ∀ x, (x, p) ∉ W := fun x hx => by
        rw [h.leaf a p x ha hx] at h1
        cases h1
      have hch : childAt (nodeIn t.nodes) a b = childOf t.nodes a b := rfl
      rcases h.child ha hp b with ⟨-, h4⟩ | ⟨-, -, h4⟩
      · exact absurd h4 h2
      · rw [hch] at h3
        obtain ⟨h5, h6⟩ := (h.isPath_iff q _ _ c h4).1 h3
        refine ⟨by simpa using h5, fun r b' u hr x => ?_⟩
        rcases r with _ | ⟨d, r⟩
        · simpa using hp x
        · simp only [List.cons_append, List.cons.injEq] at hr
          obtain ⟨rfl, hr⟩ := hr
          have := h6 r b' u hr x
          simpa using this
    · rintro ⟨h1, h2⟩
      have hp : ∀ x, (x, p) ∉ W := fun x => by simpa using h2 [] b q rfl x
      obtain ⟨hk, -, -⟩ := h.inner a p ha hp
      have hch : childAt (nodeIn t.nodes) a b = childOf t.nodes a b := rfl
      have hmem : p ++ [b] ∈ S := by
        exact h.prefix_mem q _ (by simpa using List.mem_of_getElem? h1)
      rcases h.child ha hp b with ⟨h4, -⟩ | ⟨-, h5, h4⟩
      · exact absurd hmem h4
      · refine ⟨hk, h5, ?_⟩
        rw [hch, h.isPath_iff q _ _ c h4]
        refine ⟨by simpa using h1, fun r b' u hr x => ?_⟩
        have := h2 (b :: r) b' u (by simp [hr]) x
        simpa using this

/-- The words are the paths to leaves. -/
theorem Spelled.isCodePath_iff {W : List (Symbol × List Bool)} {S : List (List Bool)} {t : Rebuild} (h : Spelled W S t)
    (q : List Bool) (x : Symbol) :
    IsCodePath (nodeIn t.nodes) 0#9 q x ↔ (x, q) ∈ W := by
  constructor
  · rintro ⟨hne, c, h1, h2, h3⟩
    obtain ⟨h4, -⟩ := (h.isPath_iff q [] 0#9 c h.root).1 h1
    obtain ⟨y, hy⟩ := (h.kind_leaf h4).1 h2
    rw [h.leaf c _ y h4 hy] at h3
    have : y = x := h3
    subst this
    exact hy
  · intro hx
    obtain ⟨h1, h2, h3⟩ := h.word x q hx
    obtain ⟨i, hi, he⟩ := List.getElem_of_mem h1
    have hlt : i < 512 := by have := h.len; have := h.room; omega
    have hget : S[(BitVec.ofNat 9 i).toNat]? = some q := by
      rw [toNat_idx hlt, List.getElem?_eq_getElem hi, he]
    refine ⟨h2, BitVec.ofNat 9 i, (h.isPath_iff q [] 0#9 _ h.root).2 ⟨by simpa using hget, fun r b u hr y hy => ?_⟩, ?_, ?_⟩
    · have hy' : (y, r) ∈ W := by simpa using hy
      exact (h.word y r hy').2.2 b (h.prefix_mem u _ (by rw [List.append_assoc, List.singleton_append, ← hr]; exact h1))
    · exact (h.kind_leaf hget).2 ⟨x, hx⟩
    · rw [h.leaf _ _ _ hget hx]; rfl

/-- The tree below an index, read out of NODE down to a depth. -/
def treeOf (nodeAt : NodeIdx → Node) : Nat → NodeIdx → CodeTree
  | 0, _ => .absent
  | f + 1, i =>
    if i = Config.nil then .absent
    else match (nodeAt i).kind with
      | .leaf => .leaf (nodeAt i).sym
      | .internal => .node (treeOf nodeAt f (nodeAt i).left) (treeOf nodeAt f (nodeAt i).right)
      | .sentinel => .absent
      | .empty => .absent

/-- What is read out of a spelled tree is held there, is no deeper than the words are long, and has no sentinel. -/
theorem Spelled.holds_treeOf {W : List (Symbol × List Bool)} {S : List (List Bool)} {t : Rebuild} (h : Spelled W S t)
    (hS : PathsOf W S) (h255 : ∀ x q, (x, q) ∈ W → q.length ≤ 255) :
    ∀ (f : Nat) (i : NodeIdx) (p : List Bool), S[i.toNat]? = some p → 256 ≤ p.length + f →
      Holds (nodeIn t.nodes) i (treeOf (nodeIn t.nodes) f i) ∧ (treeOf (nodeIn t.nodes) f i).height + p.length ≤ 255 ∧
      (treeOf (nodeIn t.nodes) f i).sentinels = 0 := by
  intro f
  have hlen : ∀ p, p ∈ S → p.length ≤ 255 := fun p hp => by
    rcases (hS p).1 hp with rfl | ⟨y, u, hy, hq⟩
    · simp
    · exact le_trans hq.length_le (h255 y u hy)
  have hlt : ∀ p, p ∈ S → (∀ x, (x, p) ∉ W) → p.length + 1 ≤ 255 := fun p hp hw => by
    rcases (hS p).1 hp with rfl | ⟨y, u, hy, ⟨r, hr⟩⟩
    · simp
    · rcases r with _ | ⟨b, r⟩
      · rw [List.append_nil] at hr
        exact absurd (hr ▸ hy) (hw y)
      · have := h255 y u hy
        rw [← hr] at this
        simp at this
        omega
  induction f with
  | zero => intro i p hi hp; have := hlen p (List.mem_of_getElem? hi); omega
  | succ f ih =>
    intro i p hi hp
    have hnil : i ≠ Config.nil := by
      rintro rfl
      have := (List.getElem?_eq_some_iff.1 hi).1
      have := h.len
      have := h.room
      simp [Config.nil] at *
      omega
    rw [treeOf, if_neg hnil]
    by_cases hw : ∃ x, (x, p) ∈ W
    · have hk := (h.kind_leaf hi).2 hw
      simp only [hk]
      exact ⟨⟨hnil, hk, rfl⟩, by simpa [CodeTree.height] using hlen p (List.mem_of_getElem? hi), rfl⟩
    · have hw' : ∀ x, (x, p) ∉ W := fun x hx => hw ⟨x, hx⟩
      have hk := (h.inner i p hi hw').1
      simp only [hk]
      have hp1 := hlt p (List.mem_of_getElem? hi) hw'
      have hchild : ∀ b, Holds (nodeIn t.nodes) (childOf t.nodes i b) (treeOf (nodeIn t.nodes) f (childOf t.nodes i b)) ∧
          (treeOf (nodeIn t.nodes) f (childOf t.nodes i b)).height + p.length + 1 ≤ 255 ∧
          (treeOf (nodeIn t.nodes) f (childOf t.nodes i b)).sentinels = 0 := fun b => by
        rcases h.child hi hw' b with ⟨-, h2⟩ | ⟨-, -, h3⟩
        · rw [h2]
          have : treeOf (nodeIn t.nodes) f Config.nil = .absent := by cases f <;> simp [treeOf]
          rw [this]
          exact ⟨rfl, by simp [CodeTree.height]; omega, rfl⟩
        · obtain ⟨a1, a2, a3⟩ := ih _ _ h3 (by simp; omega)
          simp at a2
          exact ⟨a1, by omega, a3⟩
      obtain ⟨l1, l2, l3⟩ := hchild false
      obtain ⟨r1, r2, r3⟩ := hchild true
      simp only [childOf, if_true, Bool.false_eq_true, if_false] at l1 l2 l3 r1 r2 r3
      exact ⟨⟨hnil, hk, l1, r1⟩, by simp only [CodeTree.height]; omega, by simp only [CodeTree.sentinels]; omega⟩

/-! Which fault TBLTREE reports. -/

/-- A proper extension of `p` that is a prefix of `p ++ b :: bs` starts with `p ++ [b]`. -/
theorem snoc_prefix_of {p q bs : List Bool} {b : Bool} (h1 : p <+: q) (h2 : q <+: p ++ b :: bs) (hne : q ≠ p) :
    p ++ [b] <+: q := by
  obtain ⟨r, rfl⟩ := h1
  rw [List.prefix_append_right_inj] at h2
  rcases r with _ | ⟨c, r⟩
  · simp at hne
  · obtain ⟨rfl, -⟩ := List.cons_prefix_cons.1 h2
    exact ⟨r, by simp⟩

/-- The rest `bs` of a codeword meets a conflict exactly when the codeword is a path already or a word is a prefix of it
(R201). -/
theorem insertBits_conflict_iff (x : Symbol) :
    ∀ (bs : List Bool) (p : List Bool) (cur : NodeIdx) (t : Rebuild) (W : List (Symbol × List Bool)) (S : List (List Bool)),
      bs ≠ [] → Spelled W S t → S[cur.toNat]? = some p → (∀ y, (y, p) ∉ W) →
      (insertBits x bs cur t = .error (.tableInvalid x .prefixConflict) ↔
        (p ++ bs ∈ S ∨ ∃ y q, (y, q) ∈ W ∧ p <+: q ∧ q <+: p ++ bs))
  | [], _, _, _, _, _, h, _, _, _ => absurd rfl h
  | [b], p, cur, t, W, S, _, h, hcur, hp => by
    rw [insertBits]
    rcases h.child hcur hp b with ⟨h1, h2⟩ | ⟨h1, h2, -⟩
    · rw [if_neg (by simp [h2])]
      refine iff_of_false (fun he => ?_) ?_
      · have := growChild_error he
        simp [CmdError.tableInvalid, TableReason.number] at this
      · rintro (hS | ⟨y, q, hy, hpq, hq⟩)
        · exact h1 hS
        · have hqp : q ≠ p := fun he => hp y (he ▸ hy)
          exact h1 (h.prefix_mem _ _ ((snoc_prefix_of hpq hq hqp).choose_spec ▸ (h.word y q hy).1))
    · rw [if_pos h2]
      exact iff_of_true rfl (.inl h1)
  | b :: c :: bs, p, cur, t, W, S, _, h, hcur, hp => by
    have hassoc : p ++ [b] ++ (c :: bs) = p ++ (b :: c :: bs) := by simp
    have hsub : ∀ q, p ++ [b] <+: q → p <+: q := fun q hq => (List.prefix_append p [b]).trans hq
    rw [insertBits]
    swap
    · simp
    rcases h.child hcur hp b with ⟨h1, h2⟩ | ⟨h1, h2, h3⟩
    · rw [if_pos h2]
      have hno : ¬ (p ++ (b :: c :: bs) ∈ S ∨ ∃ y q, (y, q) ∈ W ∧ p <+: q ∧ q <+: p ++ (b :: c :: bs)) := by
        rintro (hS | ⟨y, q, hy, hpq, hq⟩)
        · exact h1 (h.prefix_mem (c :: bs) _ (by rwa [hassoc]))
        · have hqp : q ≠ p := fun he => hp y (he ▸ hy)
          exact h1 (h.prefix_mem _ _ ((snoc_prefix_of hpq hq hqp).choose_spec ▸ (h.word y q hy).1))
      obtain ⟨-, hg⟩ | ⟨hroom, hg⟩ := growChild_cases x cur b hollowNode t
      · rw [hg]
        exact iff_of_false (by simp [CmdError.tableInvalid, TableReason.number]) hno
      · rw [hg]
        have hlen := h.len
        have hS := h.grow (W' := W) (lf := none) hcur hp h1 hroom (fun y q => by simp)
        have hk : (BitVec.ofNat 9 t.free).toNat = t.free := toNat_idx (by omega)
        have hnew : (S ++ [p ++ [b]])[(BitVec.ofNat 9 t.free).toNat]? = some (p ++ [b]) := by
          rw [hk, List.getElem?_append_right (by omega)]
          simp [hlen]
        have hpb : ∀ y, (y, p ++ [b]) ∉ W := fun y hy => h1 (h.word _ _ hy).1
        refine iff_of_false (fun he => hno ?_) hno
        have := (insertBits_conflict_iff x (c :: bs) (p ++ [b]) (BitVec.ofNat 9 t.free) _ W _ (by simp) hS hnew hpb).1 he
        rw [hassoc] at this
        rcases this with hm | ⟨y, q, hy, hq1, hq2⟩
        · rcases List.mem_append.1 hm with hm | hm
          · exact .inl hm
          · have := congrArg List.length (List.mem_singleton.1 hm)
            simp at this
        · exact .inr ⟨y, q, hy, hsub q hq1, hq2⟩
    · rw [if_neg h2]
      by_cases hk : (nodeIn t.nodes (childOf t.nodes cur b)).kind = .leaf
      · rw [if_pos hk]
        obtain ⟨y, hy⟩ := (h.kind_leaf h3).1 hk
        exact iff_of_true rfl (.inr ⟨y, _, hy, List.prefix_append _ _, ⟨c :: bs, hassoc⟩⟩)
      · rw [if_neg hk]
        have hpb : ∀ y, (y, p ++ [b]) ∉ W := fun y hy => hk ((h.kind_leaf h3).2 ⟨y, hy⟩)
        rw [insertBits_conflict_iff x (c :: bs) (p ++ [b]) (childOf t.nodes cur b) t W S (by simp) h h3 hpb, hassoc]
        refine or_congr_right ⟨?_, ?_⟩
        · rintro ⟨y, q, hy, hq1, hq2⟩
          exact ⟨y, q, hy, hsub q hq1, hq2⟩
        · rintro ⟨y, q, hy, hq1, hq2⟩
          exact ⟨y, q, hy, snoc_prefix_of hq1 hq2 (fun he => hp y (he ▸ hy)), hq2⟩

theorem insertEntries_append {codeAt : Symbol → CodeEntry} (ys : List Symbol) :
    ∀ (xs : List Symbol) (t : Rebuild), insertEntries codeAt (xs ++ ys) t =
      match insertEntries codeAt xs t with
      | .ok t' => insertEntries codeAt ys t'
      | .error e => .error e
  | [], _ => rfl
  | x :: xs, t => by
    simp only [List.cons_append, insertEntries]
    split
    · exact insertEntries_append ys xs _
    · rfl

theorem insertEntries_congr {codeAt codeAt' : Symbol → CodeEntry} :
    ∀ (xs : List Symbol) (t : Rebuild), (∀ x ∈ xs, codeAt x = codeAt' x) →
      insertEntries codeAt xs t = insertEntries codeAt' xs t
  | [], _, _ => rfl
  | x :: xs, t, h => by
    simp only [insertEntries, h x List.mem_cons_self]
    split
    · exact insertEntries_congr xs _ (fun y hy => h y (List.mem_cons_of_mem _ hy))
    · rfl

/-- The symbols in order: those below `x`, `x`, those above. -/
theorem allSymbols_split (x : Symbol) :
    ∃ below above, allSymbols = below ++ x :: above ∧ below.Nodup ∧ ∀ y, y ∈ below ↔ y.toNat < x.toNat := by
  have hx := x.isLt
  refine ⟨(List.range x.toNat).map (BitVec.ofNat 8), (List.range' (x.toNat + 1) (256 - x.toNat - 1)).map (BitVec.ofNat 8),
    ?_, ?_, fun y => ?_⟩
  · rw [allSymbols, Config.nsym_eq, show 256 = x.toNat + (1 + (256 - x.toNat - 1)) by omega, List.range_eq_range',
      List.range_eq_range', ← List.range'_append_1, List.map_append, ← List.range'_append_1, List.map_append]
    simp
  · refine List.Nodup.map_on (fun a ha b hb h => ?_) List.nodup_range
    rw [List.mem_range] at ha hb
    have := congrArg BitVec.toNat h
    simp only [BitVec.toNat_ofNat] at this
    omega
  · simp only [List.mem_map, List.mem_range]
    constructor
    · rintro ⟨a, ha, rfl⟩
      simp only [BitVec.toNat_ofNat]
      omega
    · intro hy
      exact ⟨y.toNat, hy, by simp⟩

theorem mem_tablePrefixes {codeAt : Symbol → CodeEntry} {q : List Bool} :
    q ∈ tablePrefixes codeAt ↔ ∃ y, (codeAt y).valid = true ∧ q <+: (codeAt y).codeword := by
  simp [tablePrefixes]

/-- The paths of a table: at most one more than its prefixes, and no more once an entry is valid. -/
theorem paths_le_of_fits {codeAt : Symbol → CodeEntry} (h : (tablePrefixes codeAt).length ≤ 511) {S : List (List Bool)}
    (hn : S.Nodup) (hS : ∀ q ∈ S, q = [] ∨ ∃ y, (codeAt y).valid = true ∧ q <+: (codeAt y).codeword) : S.length ≤ 511 := by
  by_cases hx : ∃ x, (codeAt x).valid = true
  · obtain ⟨x, hx⟩ := hx
    refine le_trans (List.subperm_of_subset hn fun q hq => ?_).length_le h
    rw [mem_tablePrefixes]
    rcases hS q hq with rfl | h
    · exact ⟨x, hx, List.nil_prefix⟩
    · exact h
  · have : S ⊆ [[]] := fun q hq => by
      rcases hS q hq with rfl | ⟨y, hy, -⟩
      · simp
      · exact absurd ⟨y, hy⟩ hx
    have := (List.subperm_of_subset hn this).length_le
    simp at this
    omega

/-- TBLTREE, when it comes to a valid entry after entries without fault: what inserting that entry says, if it is an error. -/
theorem rebuildTree_at {codeAt : Symbol → CodeEntry} {x : Symbol} (hf : FitsTree (entriesBelow codeAt x.toNat))
    (hv : (codeAt x).valid = true) :
    ∃ W S t, Spelled W S t ∧ PathsOf W S ∧ WordsOf codeAt (fun y => y.toNat < x.toNat) W ∧
      ∀ e, insertEntry x (codeAt x) t = .error e → rebuildTree codeAt = .error e := by
  obtain ⟨hl, hpf, hcap⟩ := hf
  obtain ⟨below, above, hall, hnd, hmem⟩ := allSymbols_split x
  have heq : ∀ y, y.toNat < x.toNat → entriesBelow codeAt x.toNat y = codeAt y := fun y hy => by simp [entriesBelow, hy]
  have hspec := insertEntries_spec (codeAt := entriesBelow codeAt x.toNat) below (fun _ => False) _ [] [[]] hnd spelled_root
    (fun q => by simp) (fun y u => by simp) (by simp)
  obtain ⟨t, ht⟩ := hspec.2 hl (by simp) hpf (fun S hn hS => paths_le_of_fits hcap hn hS)
  obtain ⟨-, W, S, h1, h2, h3⟩ := hspec.1 t ht
  refine ⟨W, S, t, h1, h2, fun y u => ?_, fun e he => ?_⟩
  · rw [h3]
    simp only [false_or, hmem]
    refine and_congr_right fun hy => ?_
    rw [heq y hy]
  · have hne : allSymbols.all (fun x => !(codeAt x).valid) = false :=
      List.all_eq_false.2 ⟨x, mem_allSymbols x, by simp [hv]⟩
    rw [rebuildTree, hne, hall, insertEntries_append,
      insertEntries_congr below _ (fun y hy => (heq y ((hmem y).1 hy)).symm), ht]
    simp only [insertEntries, he]
    rfl

end Sys2Proof.Machine
end

