-- ==== Sys2Proof/Machine/HostProgram.lean ====
section
/-! DEFINITION. The notation of host programs (R95, R96), as entries of the schedule. A host program's own labels,
assignments and branches make no block access and are not part of the block (R95, D36). -/

namespace Sys2Proof.Machine

/-- A line of a host program that reaches the block, or a checking line (R95, R96). -/
inductive HostLine where
  /-- `WR <target>, <value>`. -/
  | wr (target : Loc) (v : Word)
  /-- `RD <target>`. -/
  | rd (target : Loc)
  /-- `CMD <mnemonic>`. -/
  | cmd (i : Instr)
  /-- `WAIT`, a loop that reads STATUS until BUSY = 0; here it reads it `polls` times before the engine completes and once
  after (R96, R8). -/
  | wait (polls : Nat)
  /-- `RUN <mnemonic>`: `CMD <mnemonic>` and then `WAIT` (R96). -/
  | run (i : Instr) (polls : Nat)
  /-- `EXPECT <target> = <value>`, a checking line for a test, not a host operation (R96). -/
  | expect (target : Loc) (v : Word)
  deriving DecidableEq, Repr

/-- `WR` of a target: the triple (W, offset, value) (R95). -/
def wrInput (l : Loc) (v : Word) : Input := .write l.offset 4 v

/-- `RD` of a target: the pair (R, offset) (R95). -/
def rdInput (l : Loc) : Input := .read l.offset 4

/-- `WAIT` as the accesses it makes around the engine's turn (R96). -/
def waitInputs (polls : Nat) : List Input := List.replicate polls (rdInput .status) ++ [.engine, rdInput .status]

/-- The entries of the schedule a line stands for (R95, R96). -/
def HostLine.inputs : HostLine → List Input
  | .wr l v => [wrInput l v]
  | .rd l => [rdInput l]
  | .cmd i => [wrInput .cmd (encode i)]
  | .wait polls => waitInputs polls
  | .run i polls => wrInput .cmd (encode i) :: waitInputs polls
  | .expect _ _ => []

/-- The entries of the schedule a program stands for, in order. -/
def programInputs (p : List HostLine) : List Input := p.flatMap HostLine.inputs

end Sys2Proof.Machine
end

