-- ==== Sys2Proof/Tests/Slice0.lean ====
section
/-! SUPPORT. The model's own tests: the checks refuse what is ill formed, words written out from the encoding decode, one step
of each command on a value of the spec's vectors (V-...), and for each statement with hypotheses a state that meets them. -/

namespace Sys2Proof.Tests

open Sys2Proof Sys2Proof.Machine

/-! ## The checks refuse what is ill formed -/

/-- RSVD bit 8 set in BUILD's word (R90). -/
theorem test_wellformed_refuses_reserved_bit : WellFormed.commandWord 0x00000110#32 = false := by decide

/-- RSVD bit 31 set in NOP's word (R90). -/
theorem test_wellformed_refuses_top_reserved_bit : WellFormed.commandWord 0x80000000#32 = false := by decide

/-- OPCODE 0x04 is not in the opcode map (R92). -/
theorem test_wellformed_refuses_unlisted_opcode : WellFormed.commandWord 0x00000004#32 = false := by decide

/-- A 16-bit access (R62). -/
theorem test_wellformed_refuses_halfword : WellFormed.accessSize 2 = false := by decide

/-- An access at an offset that is not a multiple of 4 (R62). -/
theorem test_wellformed_refuses_misaligned : WellFormed.accessAligned 0x01002 = false := by decide

/-- An access just above the window (R63). -/
theorem test_wellformed_refuses_above_window : WellFormed.accessInWindow 0x20000 = false := by decide

/-- The last word of the window is a good access. -/
theorem test_wellformed_takes_last_word : WellFormed.access 0x1FFFC 4 = true := by decide

/-- Each of the nine words is well formed (R92). -/
theorem test_wellformed_takes_commands :
    WellFormed.listedOpcodes.all (fun op => WellFormed.commandWord (0#24 ++ op)) = true := by decide

/-! ## Words written out from the encoding: RSVD (24 bits), OPCODE (8 bits) -/

theorem test_decode_nop : decode 0b00000000000000000000000000000000#32 = .ok .nop := by decide
theorem test_decode_clrfreq : decode 0b00000000000000000000000000000001#32 = .ok .clrfreq := by decide
theorem test_decode_clrtree : decode 0b00000000000000000000000000000010#32 = .ok .clrtree := by decide
theorem test_decode_clrtbl : decode 0b00000000000000000000000000000011#32 = .ok .clrtbl := by decide
theorem test_decode_build : decode 0b00000000000000000000000000010000#32 = .ok .build := by decide
theorem test_decode_gen : decode 0b00000000000000000000000000100000#32 = .ok .gen := by decide
theorem test_decode_enc : decode 0b00000000000000000000000000110000#32 = .ok .enc := by decide
theorem test_decode_dec : decode 0b00000000000000000000000001000000#32 = .ok .dec := by decide
theorem test_decode_tbltree : decode 0b00000000000000000000000001010000#32 = .ok .tbltree := by decide

/-- A reserved bit and an unlisted opcode are rejected by name (R94). -/
theorem test_decode_rejects :
    decode 0x00000110#32 = .error (.reservedBitsSet 0x00000110#32) ∧ decode 0x00000011#32 = .error (.unknownOpcode 0x11#8) ∧
      decodeBytes [0x10#8, 0#8, 0#8] = .error (.tooFewBytes 3) := by decide

/-- BUILD's bytes, least significant first (R68), and two bytes left over. -/
theorem test_decode_bytes : decodeBytes [0x10#8, 0#8, 0#8, 0#8, 0xAA#8, 0xBB#8] = .ok (.build, [0xAA#8, 0xBB#8]) := by decide

/-- The opcode table's rows, by their match values (opcode_table.json). -/
theorem test_decode_table_words :
    ([0x00, 0x01, 0x02, 0x03, 0x10, 0x20, 0x30, 0x40, 0x50] : List Nat).map (decodeTableWord 32) =
      [some .nop, some .clrfreq, some .clrtree, some .clrtbl, some .build, some .gen, some .enc, some .dec, some .tbltree] := by
  decide

/-! ## One step of each command -/

/-- The state after the next step, when it is a next state. -/
def nextOf (s : State) : Option State :=
  match step s with
  | .next t => some t
  | .fault _ => none
  | .refused _ => none

/-- The state after the command word `w` is accepted and performed. -/
def after (w : Nat) (s : State) : Option State := nextOf (s.withFetchWord 32 w)

/-- STATUS, ERR_POS, ERR_AUX. -/
def report (s : State) : Word × Word × Word := (s.statusWord, s.errPos, s.errAux)

/-- The four words of NODE entry `i` (R34). -/
def nodeWords (s : State) (i : NodeIdx) : List Word := [0, 1, 2, 3].map (s.nodeAt i).word

/-- Each command runs as the first one after reset. -/
theorem test_first_step_runs :
    ([0x00, 0x01, 0x02, 0x03, 0x10, 0x20, 0x30, 0x40, 0x50] : List Nat).map
      (fun w => (after w State.reset).map State.statusWord) =
      [some 0x00000002#32, some 0x00010002#32, some 0x00020002#32, some 0x00030002#32, some 0x00100206#32,
       some 0x00200706#32, some 0x00300002#32, some 0x00400002#32, some 0x00500206#32] := by decide +kernel

/-- The counts of "aaaabbc" (V-BUILD-1). -/
def counts : State := { State.reset with freq := [(0x61, 4#32), (0x62, 2#32), (0x63, 1#32)] }

def leafOf (x : Symbol) (w : Weight) : Node := { kind := .leaf, sym := x, left := 0#9, right := 0#9, weight := w }

def innerOf (l r : NodeIdx) (w : Weight) : Node := { kind := .internal, sym := 0#8, left := l, right := r, weight := w }

/-- The tree of V-BUILD-1, as the vector lists it. -/
def grown : State :=
  { State.reset with
    node := [(0, leafOf 0x63#8 1#40), (1, leafOf 0x62#8 2#40), (2, leafOf 0x61#8 4#40), (3, innerOf 0#9 1#9 3#40),
             (4, innerOf 3#9 2#9 7#40)]
    tree := { valid := true, root := 4#9 } }

/-- The table of V-GEN-1, as the vector lists it. -/
def table : State :=
  { State.reset with
    code := [(0x61, { valid := true, len := 1#8, cw := 1#256 }), (0x62, { valid := true, len := 2#8, cw := 2#256 }),
             (0x63, { valid := true, len := 2#8, cw := 0#256 })] }

/-- The symbols of "aaaabbc". -/
def text : Memory Symbol := [(0, 0x61#8), (1, 0x61#8), (2, 0x61#8), (3, 0x61#8), (4, 0x62#8), (5, 0x62#8), (6, 0x63#8)]

/-- V-CTL-2: NOP after a failed DEC. -/
theorem test_nop_clears_error :
    (after 0x00 { State.reset with done := true, errcode := .invalidStream, lastop := 0x40#8, errPos := 9#32, errAux := 6#32 }).map
      report = some (0x00000002#32, 0#32, 0#32) := by decide

/-- V-CTL-3, V-CTL-4: illegal words. -/
theorem test_illegal_words :
    (after 0x11 State.reset).map report = some (0x00110106#32, 0x11#32, 0#32) ∧
      (after 0x110 grown).map (fun s => (report s, s.node)) = some ((0x00100106#32, 0x110#32, 0#32), grown.node) := by decide

/-- V-CTL-5. -/
theorem test_clrfreq : (after 0x01 counts).map (fun s => (s.statusWord, s.freq)) = some (0x00010002#32, []) := by decide

/-- V-CTL-6. -/
theorem test_clrtree : (after 0x02 grown).map (fun s => (s.statusWord, s.node, s.tree.word)) = some (0x00020002#32, [], 0#32) := by
  decide

/-- V-CTL-7. -/
theorem test_clrtbl : (after 0x03 table).map (fun s => (s.statusWord, s.code)) = some (0x00030002#32, []) := by decide

/-- V-BUILD-1. -/
theorem test_build_aaaabbc :
    (after 0x10 counts).map (fun s => (s.statusWord, s.tree.word, (List.range 6).map (fun i => nodeWords s (BitVec.ofNat 9 i)))) =
      some (0x00100002#32, 0x80000004#32,
        [[0x6301#32, 0#32, 1#32, 0#32], [0x6201#32, 0#32, 2#32, 0#32], [0x6101#32, 0#32, 4#32, 0#32],
         [2#32, 0x00010000#32, 3#32, 0#32], [2#32, 0x00020003#32, 7#32, 0#32], [0#32, 0#32, 0#32, 0#32]]) := by decide +kernel

/-- V-BUILD-8: the 40-bit weight. -/
theorem test_build_wide_weight :
    (after 0x10 { State.reset with freq := [(0, 0xFFFFFFFF#32), (1, 0xFFFFFFFF#32)] }).map (fun s => nodeWords s 2#9) =
      some [2#32, 0x00010000#32, 0xFFFFFFFE#32, 1#32] := by decide +kernel

/-- V-GEN-1. -/
theorem test_gen_aaaabbc : (after 0x20 grown).map (fun s => (s.statusWord, s.code)) = some (0x00200002#32, table.code) := by
  decide +kernel

/-- V-GEN-11: an EMPTY child; the entry written before the fault is undone. -/
theorem test_gen_empty_child :
    (after 0x20 { State.reset with
      node := [(0, innerOf 1#9 5#9 0#40), (1, leafOf 0x41#8 0#40)], tree := { valid := true, root := 0#9 } }).map
      (fun s => (report s, s.code)) = some ((0x00200506#32, 5#32, 2#32), []) := by decide +kernel

/-- V-ENC-1. -/
theorem test_enc_aaaabbc :
    (after 0x30 { table with symbuf := text, symLen := 7#32 }).map (fun s => (s.statusWord, s.bitLen, s.bitbuf)) =
      some (0x00300002#32, 10#32, [(0, 0x000000AF#32)]) := by decide +kernel

/-- V-ENC-3: an unknown symbol; nothing is written. -/
theorem test_enc_unknown_symbol :
    (after 0x30 { table with symbuf := [(0, 0x61#8), (1, 0x64#8)], symLen := 2#32, bitLen := 77#32,
                             bitbuf := [(0, 0x12345678#32)] }).map (fun s => (report s, s.bitLen, s.bitbuf)) =
      some ((0x00300306#32, 1#32, 0x64#32), 0#32, [(0, 0x12345678#32)]) := by decide +kernel

/-- V-DEC-1. -/
theorem test_dec_aaaabbc :
    (after 0x40 { grown with bitbuf := [(0, 0xAF#32)], bitLen := 10#32 }).map (fun s => (s.statusWord, s.symLen, s.symbuf)) =
      some (0x00400002#32, 7#32, text) := by decide +kernel

/-- V-DEC-2: one bit short. -/
theorem test_dec_truncated :
    (after 0x40 { grown with bitbuf := [(0, 0xAF#32)], bitLen := 9#32, symbuf := text, symLen := 7#32 }).map
      (fun s => (report s, s.symLen, s.symbuf)) = some ((0x00400406#32, 9#32, 6#32), 0#32, text) := by decide +kernel

/-- V-TBL-9. -/
theorem test_tbltree_aaaabbc :
    (after 0x50 table).map (fun s => (s.statusWord, s.tree.word, (List.range 5).map (fun i => nodeWords s (BitVec.ofNat 9 i)))) =
      some (0x00500002#32, 0x80000000#32,
        [[2#32, 0x00010002#32, 0#32, 0#32], [0x6101#32, 0#32, 0#32, 0#32], [2#32, 0x00030004#32, 0#32, 0#32],
         [0x6201#32, 0#32, 0#32, 0#32], [0x6301#32, 0#32, 0#32, 0#32]]) := by decide +kernel

/-- V-TBL-5: equal codewords. -/
theorem test_tbltree_equal_codewords :
    (after 0x50 { State.reset with
      code := [(0x41, { valid := true, len := 2#8, cw := 1#256 }), (0x42, { valid := true, len := 2#8, cw := 1#256 })] }).map
      (fun s => (report s, s.node)) = some ((0x00500606#32, 0x42#32, 2#32), []) := by decide +kernel

/-! ## One host access -/

/-- V-CTL-14: only the named bits of a NODE word are stored. -/
theorem test_write_node_word :
    (nextOf { State.reset with inputs := [.write 0x04000 4 0xFFFFFFFF#32] }).map (fun s => (s.nodeAt 0#9).word 0) =
      some 0x0000FF03#32 := by decide

/-- P2's first write: `CODE[0x61].W0` is at 0x09840. -/
theorem test_write_code_word :
    (nextOf { State.reset with inputs := [.write 0x09840 4 0x00000101#32] }).map (fun s => s.codeAt 0x61#8) =
      some { valid := true, len := 1#8, cw := 0#256 } := by decide

/-- V-CTL-13: a write of FREQ while BUSY is dropped and sets OVERRUN. -/
theorem test_write_while_busy :
    (nextOf { State.reset with engine := .busy 0#32, inputs := [.write 0x01000 4 1#32] }).map
      (fun s => (s.freq, s.overrun)) = some ([], true) := by decide

/-- R63: an access just above the window is refused. -/
theorem test_read_above_window :
    step { State.reset with inputs := [.read 0x20000 4] } = .refused (.accessOutsideWindow 0x20000) := by rfl

/-- R96: the schedule of `RUN NOP` polled twice before completion. -/
theorem test_run_line_inputs :
    (HostLine.run .nop 2).inputs =
      [.write 0x014 4 0#32, .read 0x018 4, .read 0x018 4, .engine, .read 0x018 4] := by decide

/-! ## Every statement's hypotheses can be met

One theorem for each statement with hypotheses (for each clause, where a statement has several), at a boundary value where the
hypotheses have a range. -/

/-- Reset with a schedule. -/
def planned (l : List Input) : State := State.reset.withInputs l

/-- BUSY with the command word `v`, with a schedule. -/
def busyPlanned (v : Word) (l : List Input) : State := (State.reset.accept v).withInputs l

theorem test_meets_StepPerformsAcceptedCommand_scheduled :
    (busyPlanned 0x50#32 [.engine]).engine = .busy 0x50#32 ∧ decode 0x50#32 = .ok .tbltree ∧
      (busyPlanned 0x50#32 [.engine]).inputs = .engine :: [] := by decide

theorem test_meets_StepPerformsAcceptedCommand_unscheduled :
    (busyPlanned 0#32 []).engine = .busy 0#32 ∧ decode 0#32 = .ok .nop ∧ (busyPlanned 0#32 []).inputs = [] := by decide

theorem test_meets_StepPerformsAcceptedCommand_fetched : decode 0x10#32 = .ok .build := by decide

theorem test_meets_StepFailsIllegalWord :
    (busyPlanned 0x100#32 []).engine = .busy 0x100#32 ∧ (∀ i, 0x100#32 ≠ encode i) ∧ (busyPlanned 0x100#32 []).inputs = [] :=
  ⟨rfl, fun i => by cases i <;> decide, rfl⟩

theorem test_meets_StepFailsIllegalWord_scheduled :
    (busyPlanned 0x100#32 [.engine]).engine = .busy 0x100#32 ∧ (∀ i, 0x100#32 ≠ encode i) ∧
      (busyPlanned 0x100#32 [.engine]).inputs = .engine :: [] := ⟨rfl, fun i => by cases i <;> decide, rfl⟩

theorem test_meets_CmdWriteAcceptsWhileIdle :
    (planned [.write 0x014 4 0xFFFFFFFF#32]).engine = .idle ∧ (planned [.write 0x014 4 0xFFFFFFFF#32]).resetHeld = 0 ∧
      (planned [.write 0x014 4 0xFFFFFFFF#32]).inputs = .write 0x014 4 0xFFFFFFFF#32 :: [] := by decide

theorem test_meets_BusyCommandCompletesInTime :
    (busyPlanned 0x10#32 [.read 0x1FFFC 4, .write 0 4 0#32]).engine = .busy 0x10#32 ∧
      (busyPlanned 0x10#32 [.read 0x1FFFC 4, .write 0 4 0#32]).resetHeld = 0 ∧
      ∀ i ∈ (busyPlanned 0x10#32 [.read 0x1FFFC 4, .write 0 4 0#32]).inputs, i.ordinary = true := by decide

theorem test_meets_IdleHoldsState : (planned []).engine = .idle ∧ (planned []).inputs = [] := by decide

/-- The three ways ERRCODE changes: acceptance, completion, reset. -/
theorem test_meets_ErrcodeChangesOnlyByCommands :
    (∃ t, step { State.reset with errcode := .noTree, inputs := [.write 0x014 4 0#32] } = .next t ∧ t.errcode ≠ .noTree) ∧
    (∃ t, step (busyPlanned 0x100#32 []) = .next t ∧ t.errcode ≠ .ok) ∧
    (∃ t, step { State.reset with errcode := .noTree, inputs := [.resetCycle] } = .next t ∧ t.errcode ≠ .noTree) :=
  ⟨⟨_, rfl, by decide⟩, ⟨_, rfl, by decide⟩, ⟨_, rfl, by decide⟩⟩

theorem test_meets_HostReadHasNoSideEffect :
    (planned [.read 0x1FFFC 4]).inputs = .read 0x1FFFC 4 :: [] ∧ (planned [.read 0x1FFFC 4]).resetHeld = 0 ∧
      0x1FFFC % 4 = 0 ∧ 0x1FFFC < 0x20000 := by decide

theorem test_meets_HostReadReturnsWord :
    (planned [.read 0x18FFC 4]).inputs = .read (Loc.bitbuf 1023).offset 4 :: [] ∧ (∀ a, Loc.bitbuf 1023 ≠ .reserved a) ∧
      (planned [.read 0x18FFC 4]).engine = .idle ∧ (planned [.read 0x18FFC 4]).resetHeld = 0 :=
  ⟨rfl, fun a => by simp, rfl, rfl⟩

theorem test_meets_HostReadReturnsWord_busy :
    (busyPlanned 0#32 [.read 0x018 4]).inputs = .read Loc.status.offset 4 :: [] ∧ (∀ a, Loc.status ≠ .reserved a) ∧
      readableBusy .status = true ∧ (busyPlanned 0#32 [.read 0x018 4]).resetHeld = 0 :=
  ⟨rfl, fun a => by simp, rfl, rfl⟩

/-- The first and the last reserved offset, while IDLE and while BUSY. -/
theorem test_meets_HostReadReturnsWord_reserved :
    (planned [.read 0x1FFFC 4]).inputs = .read 0x1FFFC 4 :: [] ∧ (planned [.read 0x1FFFC 4]).resetHeld = 0 ∧
      (∃ a, locOf 0x1FFFC = .reserved a) ∧
      (busyPlanned 0#32 [.read 0x030 4]).inputs = .read 0x030 4 :: [] ∧ (busyPlanned 0#32 [.read 0x030 4]).resetHeld = 0 ∧
      (∃ a, locOf 0x030 = .reserved a) := ⟨rfl, rfl, ⟨0x1FFFC, by decide⟩, rfl, rfl, ⟨0x030, by decide⟩⟩

theorem test_meets_BusyReadReturnsFreeValue :
    (busyPlanned 0#32 [.read 0x01C 4]).inputs = .read Loc.errPos.offset 4 :: [] ∧ (∀ a, Loc.errPos ≠ .reserved a) ∧
      (busyPlanned 0#32 [.read 0x01C 4]).engine = .busy 0#32 ∧ readableBusy .errPos = false ∧
      (busyPlanned 0#32 [.read 0x01C 4]).resetHeld = 0 :=
  ⟨rfl, fun a => by simp, rfl, rfl, rfl⟩

theorem test_meets_HostWriteStoresOneWord :
    (planned [.write 0x18FFC 4 7#32]).inputs = .write (Loc.bitbuf 1023).offset 4 7#32 :: [] ∧
      (planned [.write 0x18FFC 4 7#32]).resetHeld = 0 ∧ (planned [.write 0x18FFC 4 7#32]).engine = .idle ∧
      (Loc.bitbuf 1023).stores = true := by decide

theorem test_meets_ReadOnlyAndReservedIgnoreWrites_register :
    (planned [.write 0x000 4 7#32]).inputs = .write 0x000 4 7#32 :: [] ∧ (locOf 0x000).stores = false ∧
      (planned [.write 0x000 4 7#32]).engine = .idle ∧ (planned [.write 0x000 4 7#32]).resetHeld = 0 := by decide

theorem test_meets_ReadOnlyAndReservedIgnoreWrites_reserved :
    (planned [.write 0x1FFFC 4 7#32]).inputs = .write 0x1FFFC 4 7#32 :: [] ∧ (locOf 0x1FFFC).stores = false ∧
      (planned [.write 0x1FFFC 4 7#32]).engine = .idle ∧ (planned [.write 0x1FFFC 4 7#32]).resetHeld = 0 := by decide

/-- The ends of the apertures, on both sides of the third clause's bounds. -/
theorem test_meets_ReadOnlyAndReservedIgnoreWrites_bounds :
    ([0x030, 0x00FFC, 0x01400, 0x03FFC, 0x06000, 0x07FFC, 0x0C000, 0x0FFFC, 0x14000, 0x17FFC, 0x19000, 0x1FFFC] : List Nat).all
      (fun a => isReserved (locOf a)) = true ∧
    ([0x01000, 0x013FC, 0x04000, 0x05FFC, 0x08000, 0x0BFFC, 0x10000, 0x13FFC, 0x18000, 0x18FFC] : List Nat).all
      (fun a => !isReserved (locOf a)) = true := by decide

theorem test_meets_BusyWriteDroppedWithOverrun :
    (busyPlanned 0#32 [.write 0x1FFFC 4 7#32]).inputs = .write 0x1FFFC 4 7#32 :: [] ∧
      (busyPlanned 0#32 [.write 0x1FFFC 4 7#32]).engine = .busy 0#32 ∧
      (busyPlanned 0#32 [.write 0x1FFFC 4 7#32]).resetHeld = 0 := by decide

theorem test_meets_BusyWriteDroppedWithOverrun_cmd :
    (busyPlanned 0#32 [.write 0x014 4 0x10#32]).engine = .busy 0#32 ∧ (busyPlanned 0#32 [.write 0x014 4 0x10#32]).resetHeld = 0 ∧
      (busyPlanned 0#32 [.write 0x014 4 0x10#32]).inputs = .write 0x014 4 0x10#32 :: [] := by decide

theorem test_meets_CtrlAndStatusWritesAct :
    (busyPlanned 0#32 [.write 0x010 4 1#32]).inputs = .write 0x010 4 1#32 :: [] ∧
      (busyPlanned 0#32 [.write 0x010 4 1#32]).resetHeld = 0 ∧
      (planned [.write 0x018 4 0xA#32]).inputs = .write 0x018 4 0xA#32 :: [] ∧
      (planned [.write 0x018 4 0xA#32]).resetHeld = 0 := by decide

theorem test_meets_IrqFollowsDoneAndEnable :
    (∃ t, exec .nop { State.reset with irqEn := true } = .next t ∧ t.irq = true) ∧
      (∃ t, execIllegal 0x100#32 { State.reset with irqEn := true } = .next t ∧ t.irq = true) ∧ (2#32).getLsbD 1 = true ∧
      (0#32).getLsbD 0 = false ∧ (1#32).getLsbD 0 = true := ⟨⟨_, rfl, by decide⟩, ⟨_, rfl, by decide⟩, by decide⟩

theorem test_meets_ResetAbandonsCommand :
    (busyPlanned 0x10#32 [.resetCycle]).inputs = .resetCycle :: [] ∧ (busyPlanned 0x10#32 [.resetCycle]).engine = .busy 0x10#32 := by
  decide

/-- The end of a reset that is not held, and of one held just long enough. -/
theorem test_meets_ResetAbandonsCommand_end :
    (planned [.resetEnd]).inputs = .resetEnd :: [] ∧ (planned [.resetEnd]).resetHeld = 0 ∧
      ({ State.reset with resetHeld := Config.resetHoldCycles, inputs := [.resetEnd] } : State).inputs = .resetEnd :: [] ∧
      Config.resetHoldCycles ≤
        ({ State.reset with resetHeld := Config.resetHoldCycles, inputs := [.resetEnd] } : State).resetHeld :=
  ⟨rfl, rfl, rfl, Nat.le_refl _⟩

/-- DEC's two clauses after CLRTREE: an empty stream, and the longest that is not too long. -/
theorem test_meets_ClrtreeEmptiesTree :
    State.reset.bitLen = 0#32 ∧ (32768#32) ≠ 0#32 ∧ (32768#32).toNat ≤ 32768 := by decide

/-- ENC's two clauses after CLRTBL: a length of 0, and the greatest length that is not too long. -/
theorem test_meets_ClrtblEmptiesTable :
    State.reset.symLen = 0#32 ∧ (4096#32) ≠ 0#32 ∧ (4096#32).toNat ≤ 4096 := by decide

theorem test_meets_BuildFailsOnNoCounts : ∀ x, State.reset.freqAt x = 0#32 := fun _ => rfl

/-- One symbol, the last, with the greatest count. -/
def oneCount : State := { State.reset with freq := [(255, 0xFFFFFFFF#32)] }

theorem test_meets_BuildWrapsSingleSymbol :
    oneCount.freqAt 255#8 ≠ 0#32 ∧ ∀ y, y ≠ 255#8 → oneCount.freqAt y = 0#32 := by decide +kernel

theorem test_meets_BuildLaysOutTree_three : 3 = (liveSymbols counts.freqAt).length := by decide +kernel

/-- All 256 counts 1 (V-BUILD-7): the greatest tree. -/
def allCounts : State := { State.reset with freq := (List.range 256).map (fun i => (i, 1#32)) }

theorem test_meets_BuildLaysOutTree_all : 256 = (liveSymbols allCounts.freqAt).length := by decide +kernel

theorem test_meets_BuildMergesTwoLeast :
    3 = (liveSymbols counts.freqAt).length ∧ (∃ t, exec .build counts = .next t) ∧ 3 ≤ 4 ∧ 4 ≤ 2 * 3 - 2 :=
  ⟨test_meets_BuildLaysOutTree_three, ⟨_, rfl⟩, by decide, by decide⟩

theorem test_meets_BuildWritesStrictTree : ∃ x, counts.freqAt x ≠ 0#32 := ⟨0x61#8, by decide⟩

/-- The tree of V-BUILD-1 as a tree. -/
def grownTree : CodeTree := .node (.node (.leaf 0x63#8) (.leaf 0x62#8)) (.leaf 0x61#8)

theorem grown_holds : grown.holdsTree grownTree := by
  refine ⟨rfl, ?_⟩
  simp only [grownTree, Holds]
  decide

theorem grownTree_acceptable : grownTree.acceptable := by
  simp only [grownTree, CodeTree.acceptable]
  decide

theorem build_counts : ∃ t, exec .build counts = .next t ∧ t.errcode = .ok ∧ t.tree = grown.tree ∧ t.node = grown.node := by
  refine ⟨(counts.withTree grown.node grown.tree).complete, ?_, rfl, rfl, rfl⟩
  exact exec_build_ok (by decide +kernel)

theorem test_meets_BuildWeightCorrectness :
    ∃ t, exec .build counts = .next t ∧ t.errcode = .ok ∧ t.holdsTree grownTree ∧ (0x61#8, [true]) ∈ grownTree.codes ∧
      (0x63#8, [false, false]) ∈ grownTree.codes ∧ (counts.freqAt 0x63#8).toNat < (counts.freqAt 0x61#8).toNat := by
  obtain ⟨t, h1, h2, h3, h4⟩ := build_counts
  refine ⟨t, h1, h2, ?_, by decide, by decide, by decide⟩
  have hn : t.nodeAt = grown.nodeAt := by
    funext i
    simp only [State.nodeAt, h4]
  simp only [State.holdsTree, h3, hn]
  exact grown_holds

theorem test_meets_GenFailsWithoutRoot :
    State.reset.tree.valid = false ∧ ({ grown with tree := { valid := true, root := 0x1FF#9 } } : State).tree.root = 0x1FF#9 ∧
      (grown.nodeAt 0#9).kind ≠ .internal := by decide

theorem test_meets_GenWritesLeafPaths : grown.holdsTree grownTree ∧ grownTree.acceptable := ⟨grown_holds, grownTree_acceptable⟩

theorem gen_grown : ∃ t, exec .gen grown = .next t ∧ t.errcode = .ok ∧ t.code = table.code := by
  refine ⟨(grown.withCode table.code).complete, ?_, rfl, rfl⟩
  exact exec_gen_ok (by decide +kernel)

theorem test_meets_GenSucceedsOnlyOnTrees : ∃ t, exec .gen grown = .next t ∧ t.errcode = .ok := by
  obtain ⟨t, h1, h2, -⟩ := gen_grown
  exact ⟨t, h1, h2⟩

theorem test_meets_GenTableIsPrefixCode :
    ∃ t, exec .gen grown = .next t ∧ t.errcode = .ok ∧ (t.codeAt 0x61#8).usable = true ∧ (t.codeAt 0x64#8).usable = false := by
  obtain ⟨t, h1, h2, h3⟩ := gen_grown
  refine ⟨t, h1, h2, ?_⟩
  simp only [State.codeAt, h3]
  decide

theorem test_meets_GenAcceptsBuiltTree : ∃ x, counts.freqAt x ≠ 0#32 := ⟨0x62#8, by decide⟩

/-- Two states that agree on BUILD's operand and differ elsewhere; the same for GEN, ENC, DEC and TBLTREE. -/
theorem test_meets_CommandsDependOnlyOnOperands :
    ((∀ x, counts.freqAt x = ({ counts with symLen := 5#32 } : State).freqAt x) ∧ (∃ t, exec .build counts = .next t) ∧
      ∃ t, exec .build { counts with symLen := 5#32 } = .next t) ∧
    (grown.tree = ({ grown with bitLen := 5#32 } : State).tree ∧
      (∀ i, grown.nodeAt i = ({ grown with bitLen := 5#32 } : State).nodeAt i) ∧ (∃ t, exec .gen grown = .next t) ∧
      ∃ t, exec .gen { grown with bitLen := 5#32 } = .next t) ∧
    ((∀ k < table.symLen.toNat, table.symbufAt k = ({ table with bitLen := 5#32 } : State).symbufAt k) ∧
      (∀ x, table.codeAt x = ({ table with bitLen := 5#32 } : State).codeAt x) ∧ (∃ t, exec .enc table = .next t) ∧
      ∃ t, exec .enc { table with bitLen := 5#32 } = .next t) ∧
    ((∀ k < grown.bitLen.toNat, grown.streamBit k = ({ grown with symLen := 5#32 } : State).streamBit k) ∧
      grown.tree = ({ grown with symLen := 5#32 } : State).tree ∧
      (∀ i, grown.nodeAt i = ({ grown with symLen := 5#32 } : State).nodeAt i) ∧ (∃ t, exec .dec grown = .next t) ∧
      ∃ t, exec .dec { grown with symLen := 5#32 } = .next t) ∧
    ((∀ x, table.codeAt x = ({ table with symLen := 5#32 } : State).codeAt x) ∧ (∃ t, exec .tbltree table = .next t) ∧
      ∃ t, exec .tbltree { table with symLen := 5#32 } = .next t) :=
  ⟨⟨fun _ => rfl, ⟨_, rfl⟩, ⟨_, rfl⟩⟩, ⟨rfl, fun _ => rfl, ⟨_, rfl⟩, ⟨_, rfl⟩⟩, ⟨fun _ _ => rfl, fun _ => rfl, ⟨_, rfl⟩, ⟨_, rfl⟩⟩,
    ⟨fun _ _ => rfl, rfl, fun _ => rfl, ⟨_, rfl⟩, ⟨_, rfl⟩⟩, ⟨fun _ => rfl, ⟨_, rfl⟩, ⟨_, rfl⟩⟩⟩

/-- "aaaabbc" in SYMBUF, with its table. -/
def texted : State := { table with symbuf := text, symLen := 7#32 }

theorem test_meets_EncConcatenatesCodewords :
    texted.symLen.toNat ≤ 4096 ∧ (∀ k < texted.symLen.toNat, (texted.codeAt (texted.symbufAt k)).usable = true) ∧
      [true, true, true, true, false, true, false, true, false, false] =
        (texted.symbols texted.symLen.toNat).flatMap (fun x => (texted.codeAt x).codeword) := by decide +kernel

theorem test_meets_EncOfNothingIsEmpty : State.reset.symLen = 0#32 := by decide

/-- V-ENC-3: the second symbol has no entry. -/
theorem test_meets_EncFailsAtFirstBadSymbol_unknown :
    let s : State := { table with symbuf := [(0, 0x61#8), (1, 0x64#8)], symLen := 2#32 }
    s.symLen.toNat ≤ 4096 ∧ 1 < s.symLen.toNat ∧ (∀ j < 1, (s.codeAt (s.symbufAt j)).usable = true) ∧
      ((s.symbols 1).map (fun x => (s.codeAt x).len.toNat)).sum ≤ 32768 ∧ (s.codeAt (s.symbufAt 1)).valid = false := by
  decide +kernel

/-- V-ENC-4: the first symbol has LEN 0. -/
theorem test_meets_EncFailsAtFirstBadSymbol_zero_length :
    let s : State := { State.reset with code := [(0x61, { valid := true, len := 0#8, cw := 0#256 })], symbuf := [(0, 0x61#8)],
                                        symLen := 1#32 }
    s.symLen.toNat ≤ 4096 ∧ 0 < s.symLen.toNat ∧ ((s.symbols 0).map (fun x => (s.codeAt x).len.toNat)).sum ≤ 32768 ∧
      (s.codeAt (s.symbufAt 0)).valid = true ∧ (s.codeAt (s.symbufAt 0)).len = 0#8 := by
  decide +kernel

/-- Codewords of 255 bits: the 129th does not fit. -/
def longTexted : State :=
  { State.reset with
    code := [(0, { valid := true, len := 255#8, cw := 0#256 })]
    symbuf := (List.range 129).map (fun i => (i, 0#8))
    symLen := 129#32 }

theorem test_meets_EncFailsAtFirstBadSymbol_overflow :
    longTexted.symLen.toNat ≤ 4096 ∧ 128 < longTexted.symLen.toNat ∧
      (∀ j < 128, (longTexted.codeAt (longTexted.symbufAt j)).usable = true) ∧
      ((longTexted.symbols 128).map (fun x => (longTexted.codeAt x).len.toNat)).sum ≤ 32768 ∧
      (longTexted.codeAt (longTexted.symbufAt 128)).usable = true ∧
      32768 < ((longTexted.symbols 128).map (fun x => (longTexted.codeAt x).len.toNat)).sum +
        (longTexted.codeAt (longTexted.symbufAt 128)).len.toNat := by decide +kernel

theorem test_meets_LengthAboveCapacityFails : 4096 < (4097#32).toNat ∧ 32768 < (32769#32).toNat := by decide

/-- V-GEN-11's tree with a SENTINEL and a NIL besides: `00` leads to no child, `01` to the sentinel, `10` to an EMPTY node,
`11` to a leaf. -/
def branched : State :=
  { State.reset with
    node := [(0, innerOf 1#9 2#9 0#40), (1, innerOf 0x1FF#9 3#9 0#40), (2, innerOf 5#9 4#9 0#40),
             (3, { kind := .sentinel, sym := 0#8, left := 0#9, right := 0#9, weight := 0#40 }), (4, leafOf 0x41#8 0#40)]
    tree := { valid := true, root := 0#9 }
    bitbuf := [(0, 0x3#32)] }

theorem branched_code : IsCodePath branched.nodeAt 0#9 [true, true] 0x41#8 :=
  ⟨by decide, 4#9, by simp only [IsPath]; decide, by decide, by decide⟩

theorem test_meets_DecEmitsLeafSymbols :
    let s : State := { branched with bitLen := 2#32 }
    s.tree.valid = true ∧ s.tree.root ≠ Config.nil ∧ (s.nodeAt s.tree.root).kind = .internal ∧
      (∀ c ∈ [([true, true], 0x41#8)], IsCodePath s.nodeAt s.tree.root c.1 c.2 ∧ c.1.length ≤ 255) ∧
      s.streamBits s.bitLen.toNat = ([([true, true], 0x41#8)].map Prod.fst).flatten := by
  refine ⟨by decide, by decide, by decide, fun c hc => ?_, by decide⟩
  rw [List.mem_singleton] at hc
  subst hc
  exact ⟨branched_code, by decide⟩

theorem test_meets_DecFailsMidCode :
    let s : State := { branched with bitLen := 3#32 }
    s.tree.valid = true ∧ s.tree.root ≠ Config.nil ∧
      (∀ c ∈ [([true, true], 0x41#8)], IsCodePath s.nodeAt s.tree.root c.1 c.2 ∧ c.1.length ≤ 255) ∧
      IsPath s.nodeAt s.tree.root [false] 1#9 ∧ (s.nodeAt 1#9).kind = .internal ∧
      s.streamBits s.bitLen.toNat = ([([true, true], 0x41#8)].map Prod.fst).flatten ++ [false] := by
  refine ⟨by decide, by decide, fun c hc => ?_, by simp only [IsPath]; decide, by decide, by decide⟩
  rw [List.mem_singleton] at hc
  subst hc
  exact ⟨branched_code, by decide⟩

/-- The hypotheses of DecFailsOnDeadPath on a state and a path from the root, with nothing decoded before. -/
def DeadPathFrom (s : State) (q : List Bool) (c : NodeIdx) (b : Bool) : Prop :=
  s.tree.valid = true ∧ s.tree.root ≠ Config.nil ∧ s.bitLen.toNat ≤ 32768 ∧ q.length ≤ 254 ∧ IsPath s.nodeAt s.tree.root q c ∧
    (s.nodeAt c).kind = .internal ∧ s.streamBits s.bitLen.toNat = q ++ b :: []

theorem test_meets_DecFailsOnDeadPath_nil :
    DeadPathFrom { branched with bitLen := 2#32, bitbuf := [(0, 0#32)] } [false] 1#9 false ∧
      childAt branched.nodeAt 1#9 false = Config.nil :=
  ⟨⟨by decide, by decide, by decide, by decide, by simp only [IsPath]; decide, by decide, by decide⟩, by decide⟩

theorem test_meets_DecFailsOnDeadPath_sentinel :
    DeadPathFrom { branched with bitLen := 2#32, bitbuf := [(0, 2#32)] } [false] 1#9 true ∧
      childAt branched.nodeAt 1#9 true ≠ Config.nil ∧ (branched.nodeAt (childAt branched.nodeAt 1#9 true)).kind = .sentinel :=
  ⟨⟨by decide, by decide, by decide, by decide, by simp only [IsPath]; decide, by decide, by decide⟩, by decide⟩

theorem test_meets_DecFailsOnDeadPath_empty :
    DeadPathFrom { branched with bitLen := 2#32, bitbuf := [(0, 1#32)] } [true] 2#9 false ∧
      childAt branched.nodeAt 2#9 false ≠ Config.nil ∧ (branched.nodeAt (childAt branched.nodeAt 2#9 false)).kind = .empty :=
  ⟨⟨by decide, by decide, by decide, by decide, by simp only [IsPath]; decide, by decide, by decide⟩, by decide⟩

/-- V-GEN-12's cycle, with 129 zero words of stream: node 0 is its own left child, and its right child is a leaf. -/
def looped : State :=
  { State.reset with
    node := [(0, innerOf 0#9 1#9 0#40), (1, leafOf 0x41#8 0#40)]
    tree := { valid := true, root := 0#9 }
    bitbuf := (List.range 129).map (fun i => (i, 0#32)) }

theorem looped_path : ∀ n, IsPath looped.nodeAt 0#9 (List.replicate n false) 0#9
  | 0 => rfl
  | n + 1 => ⟨by decide, by decide, looped_path n⟩

theorem test_meets_DecFailsOnDeadPath_too_deep :
    DeadPathFrom { looped with bitLen := 255#32 } (List.replicate 254 false) 0#9 false ∧
      childAt looped.nodeAt 0#9 false ≠ Config.nil ∧ (looped.nodeAt (childAt looped.nodeAt 0#9 false)).kind = .internal ∧
      (List.replicate 254 false).length = 254 :=
  ⟨⟨by decide, by decide, by decide, by rw [List.length_replicate], looped_path 254, by decide, by decide +kernel⟩, by decide,
    by decide, List.length_replicate⟩

/-- The hypotheses of GenSucceedsOnlyOnTrees's second clause: the descent `e`, after the quiet ones `before`. -/
def DescentAfter (s : State) (before after : List Descent) (e : Descent) : Prop :=
  s.tree.valid = true ∧ s.tree.root ≠ 0x1FF#9 ∧ (s.nodeAt s.tree.root).kind = .internal ∧
    descents s.nodeAt 255 s.tree.root [] = before ++ e :: after ∧ quietDescents s.nodeAt [] before = true

theorem cut_at {α : Type} {l : List α} {k : Nat} {a : α} (h : l[k]? = some a) : l = l.take k ++ a :: l.drop (k + 1) := by
  obtain ⟨hk, rfl⟩ := List.getElem?_eq_some_iff.1 h
  rw [← List.drop_eq_getElem_cons hk, List.take_append_drop]

theorem test_meets_GenSucceedsOnlyOnTrees_empty :
    DescentAfter branched [⟨1#9, [false]⟩, ⟨3#9, [false, true]⟩, ⟨2#9, [true]⟩] [⟨4#9, [true, true]⟩] ⟨5#9, [true, false]⟩ ∧
      (branched.nodeAt 5#9).kind = .empty :=
  ⟨⟨by decide, by decide, by decide, by decide +kernel, by decide +kernel⟩, by decide⟩

def sentinelNode : Node := { kind := .sentinel, sym := 0#8, left := 0#9, right := 0#9, weight := 0#40 }

/-- V-GEN-15: two sentinels. -/
def twoSentinels : State := { branched with node := [(0, innerOf 1#9 2#9 0#40), (1, sentinelNode), (2, sentinelNode)] }

theorem test_meets_GenSucceedsOnlyOnTrees_sentinel :
    DescentAfter twoSentinels [⟨1#9, [false]⟩] [] ⟨2#9, [true]⟩ ∧ (twoSentinels.nodeAt 2#9).kind = .sentinel ∧
      ∃ a ∈ [(⟨1#9, [false]⟩ : Descent)], (twoSentinels.nodeAt a.child).kind = .sentinel :=
  ⟨⟨by decide, by decide, by decide, by decide +kernel, by decide +kernel⟩, by decide⟩

/-- V-GEN-14: two leaves of one symbol. -/
def twoLeaves : State := { branched with node := [(0, innerOf 1#9 2#9 0#40), (1, leafOf 0x41#8 0#40), (2, leafOf 0x41#8 0#40)] }

theorem test_meets_GenSucceedsOnlyOnTrees_symbol :
    DescentAfter twoLeaves [⟨1#9, [false]⟩] [] ⟨2#9, [true]⟩ ∧ (twoLeaves.nodeAt 2#9).kind = .leaf ∧
      ∃ a ∈ [(⟨1#9, [false]⟩ : Descent)],
        (twoLeaves.nodeAt a.child).kind = .leaf ∧ (twoLeaves.nodeAt a.child).sym = (twoLeaves.nodeAt 2#9).sym :=
  ⟨⟨by decide, by decide, by decide, by decide +kernel, by decide +kernel⟩, by decide⟩

/-- V-GEN-12's cycle, on the left side alone: the 255th descent is into node 0 at depth 255. -/
theorem test_meets_GenSucceedsOnlyOnTrees_deep :
    let all := descents looped.nodeAt 255 0#9 []
    DescentAfter looped (all.take 254) (all.drop 255) ⟨0#9, List.replicate 255 false⟩ ∧ (all.take 254).length < 510 ∧
      (looped.nodeAt 0#9).kind = .internal ∧ (List.replicate 255 false).length = 255 :=
  ⟨⟨by decide, by decide, by decide, cut_at (by decide +kernel),
      quietDescents_of_internal _ _ [] (by decide +kernel) (by rw [List.length_take, List.length_nil]; omega)⟩,
    by rw [List.length_take]; omega, by decide, List.length_replicate⟩

/-- V-GEN-13: each node `k < 9` has node `k + 1` on both sides, and node 9 has no child. -/
def braided : State :=
  { branched with
    node := (List.range 9).map (fun k => (k, innerOf (BitVec.ofNat 9 (k + 1)) (BitVec.ofNat 9 (k + 1)) 0#40))
      ++ [(9, innerOf 0x1FF#9 0x1FF#9 0#40)] }

theorem test_meets_GenSucceedsOnlyOnTrees_visits :
    let all := descents braided.nodeAt 255 0#9 []
    DescentAfter braided (all.take 510) (all.drop 511) ⟨9#9, false :: List.replicate 8 true⟩ ∧
      (all.take 510).length = 510 :=
  ⟨⟨by decide, by decide, by decide, cut_at (by decide +kernel),
    quietDescents_of_internal _ _ [] (by decide +kernel) (by rw [List.length_take, List.length_nil]; omega)⟩, by decide +kernel⟩

/-- V-DEC-12's stream: a leaf on one side and 4097 zero bits. -/
def fullDecode : State :=
  { looped with node := [(0, innerOf 1#9 1#9 0#40), (1, leafOf 0x41#8 0#40)], bitLen := 4097#32 }

theorem fullDecode_stream : fullDecode.streamBits 4097 = List.replicate 4097 false := by
  have hw : ∀ w < 129, fullDecode.bitbufAt w = 0#32 := by decide +kernel
  refine List.ext_getElem (by rw [State.streamBits, List.length_map, List.length_range, List.length_replicate])
    (fun k h1 h2 => ?_)
  rw [List.length_replicate] at h2
  simp only [State.streamBits, List.getElem_map, List.getElem_range, List.getElem_replicate, State.streamBit]
  rw [hw (k / 32) (by omega), BitVec.getLsbD_zero]

theorem test_meets_DecFailsOnDeadPath_overflow :
    let cs := List.replicate 4096 ([false], 0x41#8)
    fullDecode.tree.valid = true ∧ fullDecode.tree.root ≠ Config.nil ∧ fullDecode.bitLen.toNat ≤ 32768 ∧ cs.length = 4096 ∧
      (∀ c ∈ cs, IsCodePath fullDecode.nodeAt fullDecode.tree.root c.1 c.2 ∧ c.1.length ≤ 255) ∧
      IsPath fullDecode.nodeAt fullDecode.tree.root [] 0#9 ∧ (fullDecode.nodeAt 0#9).kind = .internal ∧
      fullDecode.streamBits fullDecode.bitLen.toNat = (cs.map Prod.fst).flatten ++ [] ++ false :: [] ∧
      childAt fullDecode.nodeAt 0#9 false ≠ Config.nil ∧
      (fullDecode.nodeAt (childAt fullDecode.nodeAt 0#9 false)).kind = .leaf := by
  refine ⟨by decide, by decide, by decide, List.length_replicate, fun c hc => ?_, rfl, by decide, ?_, by decide, by decide⟩
  · rw [List.eq_of_mem_replicate hc]
    exact ⟨⟨by decide, 1#9, by simp only [IsPath]; decide, by decide, by decide⟩, by decide⟩
  · rw [List.map_replicate, List.flatten_replicate_singleton, List.append_nil, ← List.replicate_succ']
    exact fullDecode_stream

theorem test_meets_DecWithoutTree :
    State.reset.tree.valid = false ∧ State.reset.bitLen = 0#32 ∧ (32768#32) ≠ 0#32 ∧ (32768#32).toNat ≤ 32768 := by decide

theorem test_meets_TbltreeFailsOnEmptyTable : ∀ x, (State.reset.codeAt x).valid = false := fun _ => rfl

/-- DEC with a root that is NIL, one that is EMPTY and one that is a leaf; an empty stream and the longest. -/
theorem test_meets_DecWithoutTree_bad_root :
    (let s : State := { grown with tree := { valid := true, root := 0x1FF#9 } };
      s.tree.valid = true ∧ s.tree.root = 0x1FF#9 ∧ s.bitLen = 0#32) ∧
    (let s : State := { State.reset with tree := { valid := true, root := 0#9 }, bitLen := 32768#32 };
      s.tree.valid = true ∧ (s.nodeAt s.tree.root).kind ≠ .internal ∧ s.bitLen.toNat ≤ 32768) ∧
    (let s : State := { grown with tree := { valid := true, root := 0#9 } };
      s.tree.valid = true ∧ (s.nodeAt s.tree.root).kind ≠ .internal ∧ s.bitLen = 0#32) := by decide

/-- The table of V-TBL-6: one codeword, `0`. -/
def oneCode : State := { State.reset with code := [(0x61, { valid := true, len := 1#8, cw := 0#256 })] }

theorem oneCode_fits : FitsTree oneCode.codeAt := by
  have h : ∀ x, (oneCode.codeAt x).usable = true → x = 0x61#8 := by decide +kernel
  refine ⟨by decide +kernel, fun x y hx hy hne => ?_, by decide +kernel⟩
  exact absurd ((h x hx).trans (h y hy).symm) hne

theorem test_meets_TbltreeTreeSpellsTable : (∃ x, (oneCode.codeAt x).valid = true) ∧ FitsTree oneCode.codeAt :=
  ⟨⟨0x61#8, by decide⟩, oneCode_fits⟩

/-- Symbol 0 has LEN 0: nothing is inserted before it. -/
def zeroLength : State := { State.reset with code := [(0, { valid := true, len := 0#8, cw := 0#256 })] }

theorem test_meets_TbltreeSucceedsExactlyOnPrefixCodes_zero_length :
    FitsTree (entriesBelow zeroLength.codeAt (0#8).toNat) ∧ (zeroLength.codeAt 0#8).valid = true ∧
      (zeroLength.codeAt 0#8).len = 0#8 :=
  ⟨⟨by decide +kernel, fun _ _ h => by simp [entriesBelow, CodeEntry.usable, CodeEntry.blank] at h, by decide +kernel⟩, by decide⟩

/-- V-TBL-5's equal codewords. -/
def equalCodes : State :=
  { State.reset with
    code := [(0x41, { valid := true, len := 2#8, cw := 1#256 }), (0x42, { valid := true, len := 2#8, cw := 1#256 })] }

theorem test_meets_TbltreeSucceedsExactlyOnPrefixCodes_conflict :
    FitsTree (entriesBelow equalCodes.codeAt (0x42#8).toNat) ∧ (equalCodes.codeAt 0x42#8).valid = true ∧
      (equalCodes.codeAt 0x42#8).len ≠ 0#8 ∧
      ∃ y, y.toNat < (0x42#8).toNat ∧ (equalCodes.codeAt y).usable = true ∧
        ((equalCodes.codeAt y).codeword <+: (equalCodes.codeAt 0x42#8).codeword ∨
          (equalCodes.codeAt 0x42#8).codeword <+: (equalCodes.codeAt y).codeword) := by
  have h : ∀ x, (entriesBelow equalCodes.codeAt 0x42 x).usable = true → x = 0x41#8 := by decide +kernel
  refine ⟨⟨by decide +kernel, fun x y hx hy hne => ?_, by decide +kernel⟩, by decide, by decide, 0x41#8, by decide⟩
  exact absurd ((h x hx).trans (h y hy).symm) hne

/-- V-TBL-8: two codewords of 255 bits make 511 nodes, and `01` one more. -/
def longCodes : State :=
  { State.reset with
    code := [(0, { valid := true, len := 255#8, cw := 0#256 }),
             (1, { valid := true, len := 255#8, cw := BitVec.ofNat 256 (2 ^ 255 - 1) }),
             (2, { valid := true, len := 2#8, cw := 2#256 })] }

theorem longCodes_codewords :
    (longCodes.codeAt 0#8).codeword = List.replicate 255 false ∧ (longCodes.codeAt 1#8).codeword = List.replicate 255 true ∧
      (longCodes.codeAt 2#8).codeword = [false, true] := by decide +kernel

/-- The prefixes of V-TBL-8's table, but for `01`. -/
def longPaths : List (List Bool) :=
  (List.range 256).map (List.replicate · false) ++ (List.range 255).map (fun n => List.replicate (n + 1) true)

theorem longCodes_fits : FitsTree (entriesBelow longCodes.codeAt 2) := by
  have h : ∀ x, (entriesBelow longCodes.codeAt 2 x).valid = true → x = 0#8 ∨ x = 1#8 := by decide +kernel
  have e0 : (entriesBelow longCodes.codeAt 2 0#8).codeword = List.replicate 255 false := longCodes_codewords.1
  have e1 : (entriesBelow longCodes.codeAt 2 1#8).codeword = List.replicate 255 true := longCodes_codewords.2.1
  refine ⟨by decide +kernel, fun x y hx hy hne hp => ?_, ?_⟩
  · rw [CodeEntry.usable, Bool.and_eq_true] at hx hy
    obtain rfl | rfl := h x hx.1 <;> obtain rfl | rfl := h y hy.1 <;>
      first | exact hne rfl | (simp only [e0, e1] at hp; exact absurd hp (by decide))
  · have hsub : tablePrefixes (entriesBelow longCodes.codeAt 2) ⊆ longPaths := by
      intro q hq
      obtain ⟨y, hy, hp⟩ := mem_tablePrefixes.1 hq
      obtain rfl | rfl := h y hy
      · rw [e0, List.prefix_replicate_iff] at hp
        rw [longPaths, List.mem_append, hp.2]
        exact .inl (List.mem_map.2 ⟨q.length, List.mem_range.2 (by omega), rfl⟩)
      · rw [e1, List.prefix_replicate_iff] at hp
        rw [longPaths, List.mem_append, hp.2]
        rcases hl : q.length with _ | n
        · exact .inl (List.mem_map.2 ⟨0, by decide, rfl⟩)
        · exact .inr (List.mem_map.2 ⟨n, List.mem_range.2 (by omega), rfl⟩)
    have hle := (List.subperm_of_subset (List.nodup_dedup _) hsub).length_le
    rw [longPaths, List.length_append, List.length_map, List.length_map, List.length_range, List.length_range] at hle
    exact hle

theorem longPaths_nodup : ([false, true] :: longPaths).Nodup := by
  have hinj : ∀ b : Bool, Function.Injective (fun n => List.replicate n b) := fun b m n h => by
    simpa using congrArg List.length h
  refine List.nodup_cons.2 ⟨fun h => ?_, List.nodup_append.2 ⟨List.nodup_range.map (hinj false),
    List.nodup_range.map ((hinj true).comp (Nat.succ_injective)), fun p hp q hq h => ?_⟩⟩
  · rw [longPaths, List.mem_append, List.mem_map, List.mem_map] at h
    obtain ⟨n, -, hn⟩ | ⟨n, -, hn⟩ := h
    · exact absurd (List.eq_of_mem_replicate (hn ▸ (by decide : true ∈ [false, true]))) (by decide)
    · exact absurd (List.eq_of_mem_replicate (hn ▸ (by decide : false ∈ [false, true]))) (by decide)
  · rw [List.mem_map] at hp hq
    obtain ⟨m, -, rfl⟩ := hp
    obtain ⟨n, -, rfl⟩ := hq
    exact absurd (List.eq_of_mem_replicate (h ▸ List.mem_replicate.2 ⟨by omega, rfl⟩ : true ∈ List.replicate m false))
      (by decide)

theorem longCodes_overflows : 511 < (tablePrefixes (entriesBelow longCodes.codeAt 3)).length := by
  have e0 : (entriesBelow longCodes.codeAt 3 0#8).codeword = List.replicate 255 false := longCodes_codewords.1
  have e1 : (entriesBelow longCodes.codeAt 3 1#8).codeword = List.replicate 255 true := longCodes_codewords.2.1
  have e2 : (entriesBelow longCodes.codeAt 3 2#8).codeword = [false, true] := longCodes_codewords.2.2
  have hsub : [false, true] :: longPaths ⊆ tablePrefixes (entriesBelow longCodes.codeAt 3) := by
    intro q hq
    rw [mem_tablePrefixes]
    rw [longPaths, List.mem_cons, List.mem_append, List.mem_map, List.mem_map] at hq
    obtain rfl | ⟨n, hn, rfl⟩ | ⟨n, hn, rfl⟩ := hq
    · exact ⟨2#8, by decide, by rw [e2]⟩
    · refine ⟨0#8, by decide, ?_⟩
      rw [List.mem_range] at hn
      rw [e0, List.prefix_replicate_iff, List.length_replicate]
      exact ⟨by omega, rfl⟩
    · refine ⟨1#8, by decide, ?_⟩
      rw [List.mem_range] at hn
      rw [e1, List.prefix_replicate_iff, List.length_replicate]
      exact ⟨by omega, rfl⟩
  have hle := (List.subperm_of_subset longPaths_nodup hsub).length_le
  rw [List.length_cons, longPaths, List.length_append, List.length_map, List.length_map, List.length_range,
    List.length_range] at hle
  omega

theorem test_meets_TbltreeSucceedsExactlyOnPrefixCodes_nodes :
    FitsTree (entriesBelow longCodes.codeAt (2#8).toNat) ∧ (longCodes.codeAt 2#8).valid = true ∧
      (longCodes.codeAt 2#8).len ≠ 0#8 ∧
      (¬ ∃ y, y.toNat < (2#8).toNat ∧ (longCodes.codeAt y).usable = true ∧
        ((longCodes.codeAt y).codeword <+: (longCodes.codeAt 2#8).codeword ∨
          (longCodes.codeAt 2#8).codeword <+: (longCodes.codeAt y).codeword)) ∧
      511 < (tablePrefixes (entriesBelow longCodes.codeAt ((2#8).toNat + 1))).length := by
  refine ⟨longCodes_fits, by decide, by decide, fun ⟨y, hy, _, hp⟩ => ?_, longCodes_overflows⟩
  obtain ⟨h0, h1, h2⟩ := longCodes_codewords
  have h : y = 0#8 ∨ y = 1#8 := by
    have : y.toNat = 0 ∨ y.toNat = 1 := by simp at hy; omega
    exact this.imp (fun h => BitVec.eq_of_toNat_eq h) (fun h => BitVec.eq_of_toNat_eq h)
  obtain rfl | rfl := h <;> simp only [h0, h1, h2] at hp <;> exact absurd hp (by decide)

theorem tbltree_oneCode : ∃ t, exec .tbltree oneCode = .next t ∧ t.errcode = .ok :=
  ⟨(oneCode.withTree [(0, innerOf 1#9 0x1FF#9 0#40), (1, leafOf 0x61#8 0#40)] { valid := true, root := 0#9 }).complete,
    exec_tbltree_ok (by decide +kernel), rfl⟩

theorem test_meets_TbltreeThenGenWritesTableBack : ∃ t, exec .tbltree oneCode = .next t ∧ t.errcode = .ok := tbltree_oneCode

/-- Both sides of the equivalence are met: three zero bits are three symbols. -/
theorem test_meets_DecMatchesGreedyMatching :
    (∃ t, exec .tbltree { oneCode with bitbuf := [(0, 0#32)], bitLen := 3#32 } = .next t ∧ t.errcode = .ok) ∧
      (3#32).toNat ≤ 32768 ∧ greedyDecode oneCode.codeAt [] [false, false, false] = some [0x61#8, 0x61#8, 0x61#8] ∧
      greedyDecode oneCode.codeAt [] [false, true] = none :=
  ⟨⟨_, exec_tbltree_ok (m := [(0, innerOf 1#9 0x1FF#9 0#40), (1, leafOf 0x61#8 0#40)])
    (t := { valid := true, root := 0#9 }) (by decide +kernel), rfl⟩, by decide +kernel⟩

/-- The tree of V-BUILD-1 with "aaaabbc" in SYMBUF. -/
def grownTexted : State := { grown with symbuf := text, symLen := 7#32 }

theorem test_meets_DecodeRecoversEncodedSymbols :
    ∃ s1 s2, exec .gen grownTexted = .next s1 ∧ s1.errcode = .ok ∧ exec .enc s1 = .next s2 ∧ s2.errcode = .ok :=
  ⟨(grownTexted.withCode table.code).complete,
    ((grownTexted.withCode table.code).complete.withStream [(0, 0xAF#32)] 10#32).complete,
    exec_gen_ok (by decide +kernel), rfl,
    exec_enc_ok (stream := [true, true, true, true, false, true, false, true, false, false]) (by decide +kernel), rfl⟩

theorem test_meets_RoundTripFromCounts :
    let s : State := { counts with symbuf := text, symLen := 7#32 }
    (∃ x, s.freqAt x ≠ 0#32) ∧ s.symLen.toNat ≤ 4096 ∧ ∀ k < s.symLen.toNat, s.freqAt (s.symbufAt k) ≠ 0#32 :=
  ⟨⟨0x61#8, by decide⟩, by decide, by decide⟩

theorem test_meets_ErrorsLeaveOutputEmpty :
    (∃ t, execIllegal 0x100#32 State.reset = .next t) ∧ ∃ t, exec .build State.reset = .next t ∧ t.errcode ≠ .ok :=
  ⟨⟨_, rfl⟩, ⟨_, exec_build_error (e := .emptyInput) (by decide +kernel), by decide⟩⟩

theorem test_meets_ErrorsByCommand : ∃ t, exec .dec State.reset = .next t := ⟨_, rfl⟩

theorem test_meets_CommandsLeaveOtherRegisters : ∃ t, exec .nop State.reset = .next t ∧ t.errcode = .ok := ⟨_, rfl, rfl⟩

/-- The first byte below and the first byte above what CLRFREQ stores to. -/
theorem test_meets_CommandsLeaveOtherBytes :
    (∃ t, exec .clrfreq counts = .next t) ∧
      ¬ ((storedBytes .clrfreq counts).1 ≤ 0x00FFF ∧ 0x00FFF < (storedBytes .clrfreq counts).2) ∧
      ¬ ((storedBytes .clrfreq counts).1 ≤ 0x01400 ∧ 0x01400 < (storedBytes .clrfreq counts).2) := ⟨⟨_, rfl⟩, by decide⟩

theorem reset_meets_inv : State.reset.memoriesWf = true ∧ State.reset.engine = .idle ∧ State.reset.errPos = 0#32 := by decide

theorem test_meets_StepKeepsInvariant : (planned [.engine]).Inv ∧ ∃ t, step (planned [.engine]) = .next t :=
  ⟨⟨by decide, fun v h => (by cases h), fun _ => ⟨rfl, rfl⟩, fun _ => rfl⟩, ⟨_, rfl⟩⟩

end Sys2Proof.Tests
end

/-! PROOFS. The constant registers (R21 to R23), the tree BUILD writes (R43) and the table GEN writes (R44, R159). -/

namespace Sys2Proof.Machine

/-! The counts and the seeds. -/

/-- Symbols with count 0 add nothing to a sum of counts. -/
theorem countsOf_filter_ne_zero (freq : Symbol → Count) (l : List Symbol) :
    countsOf freq (l.filter (fun x => freq x != 0#32)) = countsOf freq l := by
  induction l with
  | nil => rfl
  | cons x l ih =>
    by_cases hx : freq x = 0#32 <;> simpa [countsOf, hx] using ih

/-- The seeds carry the whole of the counts (R139). -/
theorem countsOf_seedOrder (freq : Symbol → Count) : countsOf freq (seedOrder freq) = countSum freq :=
  (countsOf_perm freq (seedOrder_perm freq)).trans (countsOf_filter_ne_zero freq allSymbols)

theorem seedOrder_ne_nil {freq : Symbol → Count} {x : Symbol} (h : freq x ≠ 0#32) : seedOrder freq ≠ [] :=
  List.ne_nil_of_mem ((seedOrder_perm freq).mem_iff.2 ((mem_liveSymbols freq x).2 h))

theorem seedOrder_nodup (freq : Symbol → Count) : (seedOrder freq).Nodup :=
  (seedOrder_perm freq).nodup_iff.2 (liveSymbols_nodup freq)

/-! The tree BUILD writes. -/

/-- A strict tree without sentinels over 2 to 256 distinct symbols is one the generator accepts (R155 to R157). -/
theorem CodeTree.acceptable_of_strict {T : CodeTree} (hs : T.strict) (h0 : T.sentinels = 0) (hn : T.leaves.Nodup)
    (h2 : 2 ≤ T.leaves.length) (h256 : T.leaves.length ≤ 256) : T.acceptable := by
  obtain ⟨hsize, hheight⟩ := CodeTree.strict_size hs h0
  cases T with
  | node l r => exact ⟨by simp only [Config.maxNodes_eq]; omega, by simp only [Config.maxCodeLen_eq]; omega, hn, by omega⟩
  | absent => exact hs.elim
  | sentinel => simp [CodeTree.sentinels] at h0
  | leaf x => simp at h2

/-- NODE and TREE hold a strict tree that the generator accepts, over exactly the seeds, its root's weight the sum of all
counts (R43). -/
structure GrownFrom (freq : Symbol → Count) (m : Memory Node) (t : TreeReg) (T : CodeTree) : Prop where
  valid : t.valid = true
  holds : Holds (nodeIn m) t.root T
  strict : T.strict
  acceptable : T.acceptable
  leaves : T.leaves.Perm (seedOrder freq)
  weight : (nodeIn m t.root).weight.toNat = countSum freq

/-- BUILD of one symbol: its leaf on the left, the sentinel on the right (R135). -/
theorem buildTree_one_grown {freq : Symbol → Count} {x : Symbol} (h : seedOrder freq = [x]) :
    ∃ m t, buildTree freq = .ok (m, t) ∧ GrownFrom freq m t (.node (.leaf x) .sentinel) := by
  have hsum := countsOf_seedOrder freq
  have hlt : (freq x).toNat < 2 ^ 40 := (freq x).isLt.trans (by decide)
  have hweight : ((freq x).setWidth 40).toNat = countSum freq := by
    rw [← hsum, h]
    simpa [countsOf] using Nat.mod_eq_of_lt hlt
  refine ⟨_, _, buildTree_one h, rfl, ?_, ⟨trivial, trivial⟩, ?_, ?_, ?_⟩
  · simp [Holds, nodeIn_nodePut, internalNode, leafNode, sentinelNode, Config.nil]
  · simp [CodeTree.acceptable, CodeTree.size, CodeTree.height, CodeTree.codes, CodeTree.sentinels]
  · rw [h]
    exact .refl _
  · rw [nodeIn_nodePut_self]
    exact hweight

/-- BUILD of two symbols or more: the one tree left in the queue (R134). -/
theorem buildTree_many_grown {freq : Symbol → Count} (h : 2 ≤ (seedOrder freq).length) :
    ∃ m t T, buildTree freq = .ok (m, t) ∧ GrownFrom freq m t T := by
  obtain ⟨m, hbuild, hm⟩ := buildTree_many h
  obtain ⟨T, hholds, hstrict, hnone, hperm, hweight⟩ := hm.tree
  have hlen := hperm.length_eq
  have hacc : T.acceptable := CodeTree.acceptable_of_strict hstrict hnone (hperm.nodup_iff.2 (seedOrder_nodup freq))
    (by omega) (hlen ▸ length_seedOrder_le freq)
  exact ⟨m, _, T, hbuild, rfl, hholds, hstrict, hacc, hperm, hweight.trans (countsOf_seedOrder freq)⟩

/-- BUILD of any table that is not empty grows a tree over its seeds (R43, R136). -/
theorem buildTree_grown {freq : Symbol → Count} (h : seedOrder freq ≠ []) :
    ∃ m t T, buildTree freq = .ok (m, t) ∧ GrownFrom freq m t T := by
  match hs : seedOrder freq with
  | [] => exact absurd hs h
  | [x] =>
    obtain ⟨m, t, hbuild, hgrown⟩ := buildTree_one_grown hs
    exact ⟨m, t, _, hbuild, hgrown⟩
  | x :: y :: l => exact buildTree_many_grown (by simp [hs])

/-! The table GEN writes. -/

/-- A code of an acceptable tree has 1 to 255 bits (R155). -/
theorem codes_length_of_acceptable {T : CodeTree} {x : Symbol} {q : List Bool} (ha : T.acceptable) (h : (x, q) ∈ T.codes) :
    q ≠ [] ∧ q.length ≤ 255 := by
  cases T with
  | node l r => exact ⟨code_ne_nil h, (length_le_height h).trans ha.2.1⟩
  | absent => exact ha.elim
  | sentinel => exact ha.elim
  | leaf y => exact ha.elim

/-- The symbols of an acceptable tree are distinct (R157). -/
theorem symbols_nodup_of_acceptable {T : CodeTree} (ha : T.acceptable) : (T.codes.map Prod.fst).Nodup := by
  cases T with
  | node l r => exact ha.2.2.1
  | absent => exact ha.elim
  | sentinel => exact ha.elim
  | leaf y => exact ha.elim

/-- The entry of a path of 1 to 255 bits is usable. -/
theorem usable_ofPath {q : List Bool} (hne : q ≠ []) (hl : q.length ≤ 255) : (CodeEntry.ofPath q).usable = true := by
  have hpos := List.length_pos_iff.2 hne
  have hlen : BitVec.ofNat 8 q.length ≠ 0#8 := fun hc => by
    have := congrArg BitVec.toNat hc
    simp at this
    omega
  simp [CodeEntry.usable, CodeEntry.ofPath, hlen]

/-- Each entry GEN writes for an acceptable tree is that of its symbol's path, or all zero when the symbol is on no leaf
(R153). -/
theorem tableEntry_cases {T : CodeTree} (ha : T.acceptable) (x : Symbol) :
    (∃ q, (x, q) ∈ T.codes ∧ codeIn (putCodes [] [] T.codes) x = .ofPath q) ∨
      ((∀ q, (x, q) ∉ T.codes) ∧ codeIn (putCodes [] [] T.codes) x = .blank) := by
  by_cases hx : x ∈ T.codes.map Prod.fst
  · obtain ⟨⟨_, q⟩, hq, rfl⟩ := List.mem_map.1 hx
    exact .inl ⟨q, hq, codeIn_putCodes_of_mem [] _ q _ [] (symbols_nodup_of_acceptable ha) hq⟩
  · exact .inr ⟨fun q hq => hx (List.mem_map_of_mem hq), codeIn_putCodes_of_not_mem [] x _ [] hx⟩

/-- A usable entry's codeword is a code of the tree. -/
theorem mem_codes_of_usable {T : CodeTree} (ha : T.acceptable) {x : Symbol}
    (hu : (codeIn (putCodes [] [] T.codes) x).usable = true) :
    (x, (codeIn (putCodes [] [] T.codes) x).codeword) ∈ T.codes := by
  obtain ⟨q, hq, he⟩ | ⟨-, he⟩ := tableEntry_cases ha x
  · rwa [he, codeword_ofPath (codes_length_of_acceptable ha hq).2]
  · rw [he] at hu
    cases hu

/-- An entry that is not usable is all zero. -/
theorem blank_of_not_usable {T : CodeTree} (ha : T.acceptable) {x : Symbol}
    (hu : (codeIn (putCodes [] [] T.codes) x).usable = false) : codeIn (putCodes [] [] T.codes) x = .blank := by
  obtain ⟨q, hq, he⟩ | ⟨-, he⟩ := tableEntry_cases ha x
  · obtain ⟨hne, hl⟩ := codes_length_of_acceptable ha hq
    rw [he, usable_ofPath hne hl] at hu
    cases hu
  · exact he

/-- No usable codeword of an acceptable tree's table begins another's (R159). -/
theorem prefixFree_of_acceptable {T : CodeTree} (ha : T.acceptable) : PrefixFree (codeIn (putCodes [] [] T.codes)) :=
  fun _ _ hx hy hne hp => hne (codes_prefix (mem_codes_of_usable ha hx) (mem_codes_of_usable ha hy) hp).1

/-- A code of the tree that TREE names is a path from its root to a leaf of its symbol (R153). -/
theorem isCodePath_of_mem_codes {s : State} {T : CodeTree} {x : Symbol} {q : List Bool} (h : s.holdsTree T)
    (ha : T.acceptable) (hq : (x, q) ∈ T.codes) : IsCodePath s.nodeAt s.tree.root q x :=
  ⟨(codes_length_of_acceptable ha hq).1, path_of_mem_codes h.2 hq⟩

/-- GEN ends without error only on an acceptable tree, and then CODE is that tree's table (R151, R153). -/
theorem exec_gen_success {s t : State} (h : exec .gen s = .next t) (hok : t.errcode = .ok) :
    ∃ T, s.holdsTree T ∧ T.acceptable ∧ t = (s.withCode (putCodes [] [] T.codes)).complete := by
  cases hg : generateTable s.tree s.nodeAt with
  | error e =>
    rw [exec_gen_error hg] at h
    cases h
    rw [State.raise, State.recordError_errcode] at hok
    rcases generateTable_error hg with hc | hc <;> rw [hc] at hok <;> cases hok
  | ok m =>
    obtain ⟨T, hT, ha⟩ := holds_of_generateTable hg
    rw [exec_gen_ok (generateTable_of_holds hT ha)] at h
    cases h
    exact ⟨T, hT, ha, rfl⟩

end Sys2Proof.Machine

namespace Sys2Proof.Proofs

open Sys2Proof.Machine

/-- Settles O15: each of the four offsets names a register whose word is a constant. -/
theorem constantRegistersRead : Obligations.ConstantRegistersRead := by
  intro s
  have hid : locOf 0x000 = .id := rfl
  have hparam0 : locOf 0x004 = .param0 := rfl
  have hparam1 : locOf 0x008 = .param1 := rfl
  have hparam2 : locOf 0x00C = .param2 := rfl
  rw [hid, hparam0, hparam1, hparam2]
  exact ⟨rfl, rfl, rfl, rfl⟩

/-- Settles O32, from the tree grown over the seeds, which are the symbols with a non-zero count. -/
theorem buildWritesStrictTree : Obligations.BuildWritesStrictTree := by
  rintro s ⟨x, hx⟩
  obtain ⟨m, t, T, hbuild, hT⟩ := buildTree_grown (seedOrder_ne_nil hx)
  exact ⟨_, T, exec_build_ok hbuild, rfl, ⟨hT.valid, hT.holds⟩, hT.strict, hT.acceptable,
    hT.leaves.trans (seedOrder_perm s.freqAt), hT.weight⟩

/-- Settles O37, from the tree GEN walked: its codes are the codewords, and no code of a tree begins another. -/
theorem genTableIsPrefixCode : Obligations.GenTableIsPrefixCode := by
  intro s t h hok
  obtain ⟨T, hT, ha, rfl⟩ := exec_gen_success h hok
  exact ⟨prefixFree_of_acceptable ha, fun x hu => isCodePath_of_mem_codes hT ha (mem_codes_of_usable ha hu),
    fun x hu => blank_of_not_usable ha hu⟩

end Sys2Proof.Proofs

/-! PROOFS. The control commands (R114, R116 to R118), the illegal command word (R115), and a write while BUSY (R111). -/

namespace Sys2Proof.Machine

/-! One step, by who has the turn (log 1). -/

theorem step_of_inputs_nil {s : State} (h : s.inputs = []) : step s = engineTurn s := by
  simp only [step, nextTurn, h]

theorem step_of_inputs_cons {s : State} {i : Input} {rest : List Input} (h : s.inputs = i :: rest) :
    step s = perform i (s.withInputs rest) := by
  simp only [step, nextTurn, h]

/-! Illegal command words. -/

/-- The opcode map gives a command to its own OPCODE only (R92). -/
theorem eq_opcodeOf_of_lookup {b : Byte} {i : Instr} (h : opcodeMap.lookup b = some i) : b = opcodeOf i := by
  obtain ⟨l, r, hmap, -⟩ := List.lookup_eq_some_iff.1 h
  have hown : ∀ c ∈ opcodeMap, c.1 = opcodeOf c.2 := by decide
  exact hown (b, i) (by simp [hmap])

/-- A command word is RSVD above OPCODE (R90). -/
theorem rsvdField_append_opcodeField (w : Word) : rsvdField w ++ opcodeField w = w :=
  (BitVec.extractLsb'_append_extractLsb'_eq_extractLsb' rfl).trans BitVec.extractLsb'_eq_self

/-- A word that decodes to a command is that command's encoding (R92, R94). -/
theorem eq_encode_of_decode {w : Word} {i : Instr} (h : decode w = .ok i) : w = encode i := by
  unfold decode at h
  split at h
  · rename_i hrsvd
    split at h
    · rename_i hop
      cases h
      rw [encode, ← eq_opcodeOf_of_lookup hop, ← hrsvd, rsvdField_append_opcodeField]
    · cases h
  · cases h

/-- The engine's turn on a word that encodes no command (R115). -/
theorem engineTurn_illegal {s : State} {v : Word} (hbusy : s.engine = .busy v) (hv : ∀ i, v ≠ encode i) :
    engineTurn s = .next (s.raise none (.illegalCmd v)) := by
  cases hd : decode v with
  | ok i => exact absurd (eq_encode_of_decode hd) (hv i)
  | error e => simp only [engineTurn, hbusy, hd, execIllegal]

/-! Writes while BUSY. -/

/-- Of the registers, only words 4 and 6 take a write while BUSY (R69 c). -/
theorem writableBusy_registerAt {n : Nat} (hctrl : n ≠ 4) (hstatus : n ≠ 6) : writableBusy (registerAt n) = false := by
  unfold registerAt
  split
  case h_5 => exact absurd rfl hctrl
  case h_7 => exact absurd rfl hstatus
  all_goals rfl

/-- An aligned offset other than that of CTRL and STATUS takes no write while BUSY; no aperture word does (R69 c, d, e). -/
theorem writableBusy_locOf {addr : Nat} (ha : addr % 4 = 0) (hctrl : addr ≠ 0x010) (hstatus : addr ≠ 0x018) :
    writableBusy (locOf addr) = false := by
  by_cases hreg : addr < 0x00030
  · rw [locOf, if_pos hreg]
    exact writableBusy_registerAt (by omega) (by omega)
  · simp only [locOf, if_neg hreg, apply_ite writableBusy]
    simp only [writableBusy, ite_self]

/-- A write while BUSY to a word other than CTRL and STATUS only sets OVERRUN (R69 d, e, R111). -/
theorem writeLoc_dropped {s : State} {l : Loc} (v : Word) (hbusy : s.busy = true) (hl : writableBusy l = false) :
    writeLoc l v s = { s with overrun := true } := by
  simp only [writeLoc, hbusy, hl, Bool.not_false, Bool.and_self, if_true]

theorem hostWrite_admitted {s : State} {addr : Nat} (v : Word) (hr : s.resetHeld = 0) (ha : addr % 4 = 0)
    (hlt : addr < 0x20000) : hostWrite addr 4 v s = .next (writeLoc (locOf addr) v s) := by
  simp only [hostWrite, accessRefusal_word hr ha hlt]

/-! The control commands. -/

theorem exec_nop (s : State) : exec .nop s = .next s.complete := rfl

theorem exec_clrfreq (s : State) : exec .clrfreq s = .next (s.withFreq []).complete := rfl

theorem exec_clrtree (s : State) : exec .clrtree s = .next (s.withTree [] .zero).complete := rfl

theorem exec_clrtbl (s : State) : exec .clrtbl s = .next (s.withCode []).complete := rfl

/-- No command is refused (R112). -/
theorem exec_next (i : Instr) (s : State) : ∃ t, exec i s = .next t := by
  obtain ⟨u, hu, -⟩ | ⟨e, -, he⟩ := exec_cases i s
  · exact ⟨_, hu⟩
  · exact ⟨_, he⟩

/-! The commands on what the control commands have emptied. -/

theorem seedOrder_eq_nil {freq : Symbol → Count} (h : ∀ x, freq x = 0#32) : seedOrder freq = [] := by
  have hlive : liveSymbols freq = [] := List.filter_eq_nil_iff.2 (fun x _ => by simp [h x])
  exact (hlive ▸ seedOrder_perm freq).eq_nil

/-- BUILD with every count 0 (R136). -/
theorem exec_build_no_counts {s : State} (h : ∀ x, s.freqAt x = 0#32) :
    exec .build s = .next (s.raise (some .build) .emptyInput) :=
  exec_build_error (buildTree_none (seedOrder_eq_nil h))

/-- GEN with TREE not valid (R150). -/
theorem exec_gen_no_tree {s : State} (h : s.tree.valid = false) : exec .gen s = .next (s.raise (some .gen) .noTree) :=
  exec_gen_error (by simp [generateTable, h])

/-- DEC of an empty stream with TREE not valid (R196). -/
theorem exec_dec_no_tree_empty {s : State} (h : s.tree.valid = false) (hn : s.bitLen = 0#32) :
    exec .dec s = .next (s.withSymbols s.symbuf 0#32).complete :=
  exec_dec_ok (out := []) (by simp [decodeStream, h, hn])

/-- DEC of a stream that is not empty with TREE not valid (R196). -/
theorem exec_dec_no_tree {s : State} (h : s.tree.valid = false) (hn : s.bitLen ≠ 0#32) (hcap : s.bitLen.toNat ≤ 32768) :
    exec .dec s = .next (s.raise (some .dec) (.invalidStream 0 0)) :=
  exec_dec_error (by simp [decodeStream, h, hn, Nat.not_lt.2 hcap])

theorem State.symbols_succ (s : State) (n : Nat) : ∃ xs, s.symbols (n + 1) = s.symbufAt 0 :: xs :=
  ⟨_, by rw [State.symbols, List.range_succ_eq_map, List.map_cons]⟩

/-- ENC of no symbol emits no bit, whatever CODE holds (R174). -/
theorem exec_enc_empty {s : State} (h : s.symLen = 0#32) :
    exec .enc s = .next (s.withStream s.bitbuf 0#32).complete :=
  exec_enc_ok (stream := []) (by simp [encodeStream, h, State.symbols, encodeCheck, encodeEmit])

/-- ENC of symbols of which the first has no codeword (R170). -/
theorem exec_enc_unknown_first {s : State} (hn : s.symLen ≠ 0#32) (hcap : s.symLen.toNat ≤ 4096)
    (hx : (s.codeAt (s.symbufAt 0)).valid = false) :
    exec .enc s = .next (s.raise (some .enc) (.unknownSymbol 0 (s.symbufAt 0))) := by
  obtain ⟨n, hlen⟩ := Nat.exists_eq_succ_of_ne_zero (fun h => hn (BitVec.eq_of_toNat_eq h))
  obtain ⟨xs, hxs⟩ := s.symbols_succ n
  refine exec_enc_error ?_
  rw [encodeStream, if_neg (Nat.not_lt.2 hcap), hlen, hxs]
  simp [encodeCheck, hx]

/-- TBLTREE with no valid entry (R203). -/
theorem exec_tbltree_no_codes {s : State} (h : ∀ x, (s.codeAt x).valid = false) :
    exec .tbltree s = .next (s.raise (some .tbltree) .emptyInput) :=
  exec_tbltree_error (by simp [rebuildTree, h])

end Sys2Proof.Machine

namespace Sys2Proof.Proofs

open Sys2Proof.Machine

/-- Settles O5: a word that encodes no command does not decode, so the engine's turn raises ILLEGAL_CMD. -/
theorem stepFailsIllegalWord : Obligations.StepFailsIllegalWord := by
  intro s v hbusy hv
  refine ⟨fun hnil => ?_, fun rest hcons => ?_⟩
  · rw [step_of_inputs_nil hnil, engineTurn_illegal hbusy hv]
    rfl
  · rw [step_of_inputs_cons hcons]
    exact engineTurn_illegal (s := s.withInputs rest) hbusy hv

/-- Settles O18: an offset other than that of CTRL and STATUS names no word that takes a write while BUSY. -/
theorem busyWriteDroppedWithOverrun : Obligations.BusyWriteDroppedWithOverrun := by
  intro s c addr v rest hinputs hreset hengine ha hlt hctrl hstatus
  have hbusy : (s.withInputs rest).busy = true := by simp [hengine]
  calc step s = hostWrite addr 4 v (s.withInputs rest) := step_of_inputs_cons hinputs
    _ = .next (writeLoc (locOf addr) v (s.withInputs rest)) := hostWrite_admitted v hreset ha hlt
    _ = .next { s.withInputs rest with overrun := true } := by
      rw [writeLoc_dropped v hbusy (writableBusy_locOf ha hctrl hstatus)]

/-- Settles O24: NOP completes, and the acceptance before it has cleared ERR_POS and ERR_AUX. -/
theorem nopOnlyCompletes : Obligations.NopOnlyCompletes := by
  refine ⟨exec_nop, fun s => ?_⟩
  rw [exec_nop]
  rfl

/-- Settles O25: CLRFREQ leaves every count 0, so BUILD has no seed. -/
theorem clrfreqZeroesCounts : Obligations.ClrfreqZeroesCounts := by
  intro s
  have hzero : ∀ x, (s.withFreq []).complete.freqAt x = 0#32 := fun x => by simp [State.freqAt]
  exact ⟨_, exec_clrfreq s, hzero, rfl, _, exec_build_no_counts hzero, rfl⟩

/-- Settles O26: CLRTREE leaves TREE not valid, on which GEN fails and DEC decodes only the empty stream. -/
theorem clrtreeEmptiesTree : Obligations.ClrtreeEmptiesTree := by
  intro s
  have hblank : ∀ i, (s.withTree [] .zero).complete.nodeAt i = Node.blank := fun i => by simp [State.nodeAt]
  have htree : (s.withTree [] .zero).complete.tree.valid = false := rfl
  refine ⟨_, exec_clrtree s, hblank, rfl, rfl, ⟨_, exec_gen_no_tree htree, rfl⟩, ?_⟩
  obtain ⟨u, hu⟩ := exec_next .dec (s.withTree [] .zero).complete
  refine ⟨u, hu, fun hn => ?_, fun hn hcap => ?_⟩
  · cases hu.symm.trans (exec_dec_no_tree_empty htree hn)
    exact ⟨rfl, rfl⟩
  · cases hu.symm.trans (exec_dec_no_tree htree hn hcap)
    exact ⟨rfl, rfl, rfl⟩

/-- Settles O27: CLRTBL leaves no valid entry, on which ENC fails at the first symbol and TBLTREE has no entry to insert. -/
theorem clrtblEmptiesTable : Obligations.ClrtblEmptiesTable := by
  intro s
  have hblank : ∀ x, (s.withCode []).complete.codeAt x = CodeEntry.blank := fun x => by simp [State.codeAt]
  have hvalid : ∀ x, ((s.withCode []).complete.codeAt x).valid = false := fun x => by rw [hblank, CodeEntry.blank]
  refine ⟨_, exec_clrtbl s, hblank, rfl, ?_, _, exec_tbltree_no_codes hvalid, rfl⟩
  obtain ⟨u, hu⟩ := exec_next .enc (s.withCode []).complete
  refine ⟨u, hu, fun hn => ?_, fun hn hcap => ?_⟩
  · cases hu.symm.trans (exec_enc_empty hn)
    rfl
  · cases hu.symm.trans (exec_enc_unknown_first hn hcap (hvalid _))
    exact ⟨rfl, rfl⟩

end Sys2Proof.Proofs

/-! PROOFS. What BUILD leaves for no symbol (R136), for one (R135), and for two or more (R131 to R134). -/

namespace Sys2Proof.Machine

/-! The seeds. -/

theorem length_seedOrder (freq : Symbol → Count) : (seedOrder freq).length = (liveSymbols freq).length :=
  (seedOrder_perm freq).length_eq

theorem mem_seedOrder (freq : Symbol → Count) (x : Symbol) : x ∈ seedOrder freq ↔ freq x ≠ 0#32 :=
  (seedOrder_perm freq).mem_iff.trans (mem_liveSymbols freq x)

/-- A table of one symbol has that symbol as its only seed (R135). -/
theorem seedOrder_eq_singleton {freq : Symbol → Count} {x : Symbol} (hx : freq x ≠ 0#32)
    (hrest : ∀ y, y ≠ x → freq y = 0#32) : seedOrder freq = [x] := by
  have hmem : ∀ y, y ∈ seedOrder freq ↔ y ∈ [x] := fun y => by
    rw [mem_seedOrder, List.mem_singleton]
    exact ⟨fun hy => by_contra fun hne => hy (hrest y hne), fun he => he ▸ hx⟩
  exact List.perm_singleton.1 ((List.perm_ext_iff_of_nodup (seedOrder_nodup freq) (List.nodup_singleton x)).2 hmem)

/-- The seed order's comparison as the pair compared (R131). -/
theorem seedBefore_iff (freq : Symbol → Count) (a b : Symbol) :
    seedBefore freq a b = true ↔
      (freq a).toNat < (freq b).toNat ∨ (freq a = freq b ∧ a.toNat < b.toNat) := by
  simp [seedBefore]

/-! One symbol. -/

/-- BUILD of one symbol: its three nodes, and a tree that the generator accepts (R135). -/
theorem exec_build_one {s : State} {x : Symbol} (h : seedOrder s.freqAt = [x]) :
    ∃ m, exec .build s = .next (s.withTree m { valid := true, root := 2#9 }).complete ∧
      m = nodePut (nodePut (nodePut [] 0#9 (leafNode x (s.freqAt x))) 1#9 sentinelNode) 2#9
        (internalNode 0#9 1#9 (leafNode x (s.freqAt x)).weight) ∧
      GrownFrom s.freqAt m { valid := true, root := 2#9 } (.node (.leaf x) .sentinel) := by
  obtain ⟨m, t, hbuild, hgrown⟩ := buildTree_one_grown h
  cases hbuild.symm.trans (buildTree_one h)
  exact ⟨_, exec_build_ok hbuild, rfl, hgrown⟩

/-- GEN on a tree that the generator accepts (R150, R153). -/
theorem exec_gen_of_holdsTree {s : State} {T : CodeTree} (h : s.holdsTree T) (ha : T.acceptable) :
    exec .gen s = .next (s.withCode (putCodes [] [] T.codes)).complete :=
  exec_gen_ok (generateTable_of_holds h ha)

/-! Two symbols or more. -/

/-- BUILD of two symbols or more (R130, R134). -/
theorem exec_build_many {s : State} (h : 2 ≤ (seedOrder s.freqAt).length) :
    ∃ m, exec .build s =
        .next (s.withTree m { valid := true, root := BitVec.ofNat 9 (2 * (seedOrder s.freqAt).length - 2) }).complete ∧
      Built s.freqAt m := by
  obtain ⟨m, hbuild, hm⟩ := buildTree_many h
  exact ⟨m, exec_build_ok hbuild, hm⟩

/-- The symbol of a leaf BUILD placed is the seed of its index (R131). -/
theorem Built.sym_leaf {freq : Symbol → Count} {m : Memory Node} (hm : Built freq m) {i : Nat}
    (hi : i < (seedOrder freq).length) : (nodeIn m (BitVec.ofNat 9 i)).sym = (seedOrder freq)[i] := by
  rw [hm.leaves i hi]
  rfl

/-- A merged node is INTERNAL, and no child of it is NIL, since both were made before it (R134). -/
theorem MergedAt.no_nil {nodeAt : NodeIdx → Node} {n k : Nat} (hk : MergedAt nodeAt n k) (hlt : k < 512) :
    (nodeAt (BitVec.ofNat 9 k)).kind = .internal ∧ (nodeAt (BitVec.ofNat 9 k)).left ≠ Config.nil ∧
      (nodeAt (BitVec.ofNat 9 k)).right ≠ Config.nil := by
  have hchild : ∀ c : NodeIdx, c.toNat < k → c ≠ Config.nil := by
    rintro c hc rfl
    have hnil : Config.nil.toNat = 511 := rfl
    omega
  obtain ⟨l, r, w, hshape⟩ := hk.shape
  exact ⟨by rw [hshape]; rfl, hchild _ hk.left.1, hchild _ hk.right.1⟩

end Sys2Proof.Machine

namespace Sys2Proof.Proofs

open Sys2Proof.Machine

/-- Settles O28: with every count 0 BUILD has no seed, and its error empties NODE and TREE. -/
theorem buildFailsOnNoCounts : Obligations.BuildFailsOnNoCounts := by
  intro s h
  exact ⟨_, exec_build_no_counts h, rfl, rfl, rfl, fun i => nodeIn_nil i, rfl⟩

/-- Settles O29: the symbol is the only seed, and the tree over its leaf and the sentinel has the one code `0`. -/
theorem buildWrapsSingleSymbol : Obligations.BuildWrapsSingleSymbol := by
  intro s x hx hrest
  obtain ⟨m, hbuild, hm, hgrown⟩ := exec_build_one (seedOrder_eq_singleton hx hrest)
  have hgen := exec_gen_of_holdsTree (s := (s.withTree m { valid := true, root := 2#9 }).complete)
    ⟨hgrown.valid, hgrown.holds⟩ hgrown.acceptable
  refine ⟨_, hbuild, rfl, rfl, ?_, ?_, ?_, fun i hi => ?_, _, hgen, rfl, ?_, fun y hy => ?_⟩
  · show nodeIn m 0#9 = leafNode x (s.freqAt x)
    simp [hm, nodeIn_nodePut]
  · show nodeIn m 1#9 = sentinelNode
    simp [hm, nodeIn_nodePut]
  · show nodeIn m 2#9 = internalNode 0#9 1#9 (leafNode x (s.freqAt x)).weight
    rw [hm, nodeIn_nodePut_self]
  · show nodeIn m i = Node.blank
    have h0 : i ≠ 0#9 := by rintro rfl; simp at hi
    have h1 : i ≠ 1#9 := by rintro rfl; simp at hi
    have h2 : i ≠ 2#9 := by rintro rfl; simp at hi
    rw [hm, nodeIn_nodePut_ne _ _ h2, nodeIn_nodePut_ne _ _ h1, nodeIn_nodePut_ne _ _ h0, nodeIn_nil]
  · show codeIn (codePut [] x (.ofPath [false])) x = .ofPath [false]
    exact codeIn_codePut_self [] x _
  · show codeIn (codePut [] x (.ofPath [false])) y = .blank
    rw [codeIn_codePut_ne _ _ hy, codeIn_nil]

/-- Settles O30: the leaves are the seeds in their sorted order, and each node above them is a merge of earlier ones. -/
theorem buildLaysOutTree : Obligations.BuildLaysOutTree := by
  intro s n hn h2
  rw [← length_seedOrder] at hn
  subst hn
  have h256 := length_seedOrder_le s.freqAt
  obtain ⟨m, hbuild, hm⟩ := exec_build_many h2
  refine ⟨_, hbuild, rfl, rfl, fun i hi => ?_, fun i j hij hj => ?_, fun x hx => ?_, fun k h1 hk => ?_, fun k h1 hk => ?_⟩
  · exact ⟨_, (mem_seedOrder _ _).1 (List.getElem_mem hi), hm.leaves i hi⟩
  · have hi := hij.trans hj
    have hbefore := List.pairwise_iff_getElem.1 (seedOrder_sorted s.freqAt) i j hi hj hij
    rw [← hm.sym_leaf hi, ← hm.sym_leaf hj] at hbefore
    exact (seedBefore_iff _ _ _).1 hbefore
  · obtain ⟨i, hi, rfl⟩ := List.getElem_of_mem ((mem_seedOrder _ x).2 hx)
    exact ⟨i, hi, hm.sym_leaf hi⟩
  · exact (hm.merged k h1 hk).no_nil (by omega)
  · exact hm.rest _ (by rwa [toNat_idx hk])

/-- Settles O31, from the loop's invariant: each node was merged from the two that came first out of the queue, and the sum
of their weights did not wrap. -/
theorem buildMergesTwoLeast : Obligations.BuildMergesTwoLeast := by
  intro s t n hn h2 ht k h1 hk
  rw [← length_seedOrder] at hn
  subst hn
  obtain ⟨m, hbuild, hm⟩ := exec_build_many h2
  cases ht.symm.trans hbuild
  have hmerged := hm.merged k h1 hk
  refine ⟨hmerged.left, hmerged.right, hmerged.differ, hmerged.leftFirst, hmerged.rightNext, ?_⟩
  simp only [BitVec.ofNat_toNat, BitVec.setWidth_eq]
  exact hm.exact k h1 hk

end Sys2Proof.Proofs

/-! PROOFS. GEN without a root it can walk from (R150, R151), and the leaves' entries it writes (R153). -/

namespace Sys2Proof.Machine

/-! A root that no walk starts from. -/

/-- The roots that no walk starts from: NIL, and a node that is not INTERNAL (R151). -/
theorem rootUsable_eq_false_iff (nodeAt : NodeIdx → Node) (r : NodeIdx) :
    rootUsable nodeAt r = false ↔ r = Config.nil ∨ (nodeAt r).kind ≠ .internal := by
  rw [rootUsable, Bool.and_eq_false_iff, bne_eq_false_iff_eq, beq_eq_false_iff_ne]

/-- GEN with TREE valid and a root that no walk starts from (R151). -/
theorem exec_gen_bad_root {s : State} (hv : s.tree.valid = true) (hr : rootUsable s.nodeAt s.tree.root = false) :
    exec .gen s = .next (s.raise (some .gen) (.treeInvalid s.tree.root .badRoot)) :=
  exec_gen_error (by simp [generateTable, hv, hr])

/-- An error of GEN leaves every CODE entry all zero (R150, R230). -/
theorem codeAt_raise_gen (s : State) (e : CmdError) (x : Symbol) : (s.raise (some .gen) e).codeAt x = .blank :=
  codeIn_nil x

/-! The leaves' entries. -/

/-- A leaf's symbol has the entry of the leaf's path (R153). -/
theorem tableEntry_of_mem {T : CodeTree} (ha : T.acceptable) {x : Symbol} {q : List Bool} (h : (x, q) ∈ T.codes) :
    codeIn (putCodes [] [] T.codes) x = .ofPath q :=
  codeIn_putCodes_of_mem [] x q _ [] (symbols_nodup_of_acceptable ha) h

/-- A symbol on no leaf has no codeword (R150). -/
theorem tableEntry_of_not_mem {T : CodeTree} (ha : T.acceptable) {x : Symbol} (h : ∀ q, (x, q) ∉ T.codes) :
    codeIn (putCodes [] [] T.codes) x = .blank :=
  ((tableEntry_cases ha x).resolve_left fun ⟨q, hq, _⟩ => h q hq).2

end Sys2Proof.Machine

namespace Sys2Proof.Proofs

open Sys2Proof.Machine

/-- Settles O35: the walk puts each leaf's entry in an empty table, where no two leaves share a symbol and a path of at most
255 bits is read back from its entry. -/
theorem genWritesLeafPaths : Obligations.GenWritesLeafPaths := by
  intro s T hT ha
  refine ⟨_, exec_gen_of_holdsTree hT ha, rfl, fun x q hq => ?_, fun x hx => tableEntry_of_not_mem ha hx⟩
  have hentry : (s.withCode (putCodes [] [] T.codes)).complete.codeAt x = .ofPath q := tableEntry_of_mem ha hq
  obtain ⟨hne, hlen⟩ := codes_length_of_acceptable ha hq
  exact ⟨hentry, by rw [hentry, codeword_ofPath hlen], hne⟩

/-- Settles O34: without a root to walk from GEN raises its error at once, and that error empties CODE. -/
theorem genFailsWithoutRoot : Obligations.GenFailsWithoutRoot := by
  refine ⟨fun s hv => ?_, fun s hv hroot => ?_⟩
  · exact ⟨_, exec_gen_no_tree hv, rfl, rfl, rfl, codeAt_raise_gen s _⟩
  · have hr : rootUsable s.nodeAt s.tree.root = false := (rootUsable_eq_false_iff _ _).2 hroot
    exact ⟨_, exec_gen_bad_root hv hr, rfl, rfl, rfl, codeAt_raise_gen s _⟩

end Sys2Proof.Proofs

/-! PROOFS. ENC of symbols that all have usable entries (R170 to R172), and of none (R174). -/

namespace Sys2Proof.Machine

theorem State.mem_symbols {s : State} {n : Nat} {x : Symbol} : x ∈ s.symbols n ↔ ∃ k < n, s.symbufAt k = x := by
  simp only [State.symbols, List.mem_map, List.mem_range]

/-- BITBUF after a stream is written there: the words it fills are the stream's, every later word is as before (R67, R172). -/
theorem bitbufAt_withStream (s : State) (stream : List Bool) (n : Word) (w : Nat) :
    (s.withStream (Memory.writeFrom none s.bitbuf 0 (streamWords stream)) n).complete.bitbufAt w =
      if w < (stream.length + 31) / 32 then streamWord stream w else s.bitbufAt w :=
  read_streamWords _ s.bitbuf stream w

/-- The bits of the words a stream fills: the stream's own, and 0 past its end (R66, R67). -/
theorem streamBit_withStream (s : State) (stream : List Bool) (n : Word) {k : Nat}
    (hk : k < 32 * ((stream.length + 31) / 32)) :
    (s.withStream (Memory.writeFrom none s.bitbuf 0 (streamWords stream)) n).complete.streamBit k = stream.getD k false := by
  have hw : k / 32 < (stream.length + 31) / 32 := Nat.div_lt_of_lt_mul hk
  rw [State.streamBit, bitbufAt_withStream, if_pos hw, getLsbD_streamWord _ _ _ (Nat.mod_lt k (by decide)), Nat.div_add_mod]

/-- ENC of at most 4096 symbols with usable entries and at most 32768 bits in all writes their codewords in order (R170 to
R172). -/
theorem exec_enc_of_usable {s : State} (hn : s.symLen.toNat ≤ 4096)
    (hu : ∀ k < s.symLen.toNat, (s.codeAt (s.symbufAt k)).usable = true)
    (hl : (encodeEmit s.codeAt (s.symbols s.symLen.toNat)).length ≤ 32768) :
    exec .enc s =
      .next (s.withStream (Memory.writeFrom none s.bitbuf 0 (streamWords (encodeEmit s.codeAt (s.symbols s.symLen.toNat))))
        (BitVec.ofNat 32 (encodeEmit s.codeAt (s.symbols s.symLen.toNat)).length)).complete := by
  refine exec_enc_ok (encodeStream_ok_of hn (fun x hx => ?_) hl)
  obtain ⟨k, hk, rfl⟩ := State.mem_symbols.1 hx
  exact hu k hk

end Sys2Proof.Machine

namespace Sys2Proof.Proofs

open Sys2Proof.Machine

/-- Settles O40: ENC's check passes, so BITBUF takes the codewords' stream, whose words are read back bit by bit. -/
theorem encConcatenatesCodewords : Obligations.EncConcatenatesCodewords := by
  rintro s stream hn hu rfl hl
  refine ⟨_, exec_enc_of_usable hn hu hl, rfl, ?bitLen, streamBits_withStream s _ _, fun k hk hlt => ?padding, fun w hw => ?later⟩
  case bitLen => exact (BitVec.toNat_ofNat _ 32).trans (Nat.mod_eq_of_lt (hl.trans_lt (by decide)))
  case padding => exact (streamBit_withStream s _ _ hlt).trans (List.getD_eq_default _ _ hk)
  case later => exact (bitbufAt_withStream s _ _ w).trans (if_neg (Nat.not_lt.2 hw))

/-- Settles O41: with no symbol the stream is empty, and an empty stream fills no word. -/
theorem encOfNothingIsEmpty : Obligations.EncOfNothingIsEmpty := fun _ h => exec_enc_empty h

end Sys2Proof.Proofs

/-! PROOFS. DEC over whole codewords and the bits after them (R191 to R195), DEC without a tree (R196), and TBLTREE of an
empty table (R203). -/

namespace Sys2Proof.Machine

/-! One stream bit at fault (R193). -/

/-- The node DEC steps to is the child on the bit's side (R13, R191). -/
theorem ite_eq_childAt (nodeAt : NodeIdx → Node) (x : NodeIdx) (b : Bool) :
    (if b then (nodeAt x).right else (nodeAt x).left) = childAt nodeAt x b := rfl

section DeadBit

variable {nodeAt : NodeIdx → Node} {root : NodeIdx} {k : Nat} {b : Bool} {d : Cursor}

/-- A bit that leads to no child is no part of a codeword (R193 a). -/
theorem decodeBit_nil (hn : childAt nodeAt d.cur b = Config.nil) :
    decodeBit nodeAt root k b d = .error (.invalidStream k d.out.length) := by
  simp only [decodeBit, ite_eq_childAt, hn, if_true]

/-- A bit that leads to the SENTINEL is no part of a codeword (R193 b). -/
theorem decodeBit_sentinel (hn : childAt nodeAt d.cur b ≠ Config.nil)
    (hk : (nodeAt (childAt nodeAt d.cur b)).kind = .sentinel) :
    decodeBit nodeAt root k b d = .error (.invalidStream k d.out.length) := by
  simp only [decodeBit, ite_eq_childAt, hn, hk, if_false]

/-- A bit that leads to an EMPTY node shows a tree at fault (R193 c). -/
theorem decodeBit_empty (hn : childAt nodeAt d.cur b ≠ Config.nil)
    (hk : (nodeAt (childAt nodeAt d.cur b)).kind = .empty) :
    decodeBit nodeAt root k b d = .error (.treeInvalid (childAt nodeAt d.cur b) .emptyChild) := by
  simp only [decodeBit, ite_eq_childAt, hn, hk, if_false]

/-- A bit that leads to an INTERNAL node at depth 255 shows a tree at fault (R193 d). -/
theorem decodeBit_tooDeep (hn : childAt nodeAt d.cur b ≠ Config.nil)
    (hk : (nodeAt (childAt nodeAt d.cur b)).kind = .internal) (hl : d.depth = 254) :
    decodeBit nodeAt root k b d = .error (.treeInvalid (childAt nodeAt d.cur b) .tooDeep) := by
  simp only [decodeBit, ite_eq_childAt, hn, hk, if_false, hl, Config.maxCodeLen_eq, if_true]

/-- A bit that completes the 4097th symbol has no room for it (R191). -/
theorem decodeBit_overflow (hn : childAt nodeAt d.cur b ≠ Config.nil)
    (hk : (nodeAt (childAt nodeAt d.cur b)).kind = .leaf) (hl : d.out.length = 4096) :
    decodeBit nodeAt root k b d = .error (.bufferOverflow k) := by
  simp only [decodeBit, ite_eq_childAt, hn, hk, if_false, hl, Config.symbufCap_eq, if_true]

end DeadBit

/-! DEC over codewords, and where the stream ends. -/

/-- Each of the bit lists leads from the root to a LEAF of the symbol beside it, in at most 255 bits (R153, R155). -/
def CodePaths (nodeAt : NodeIdx → Node) (root : NodeIdx) (cs : List (List Bool × Symbol)) : Prop :=
  ∀ c ∈ cs, IsCodePath nodeAt root c.1 c.2 ∧ c.1.length ≤ 255

/-- DEC along codewords one after another: their symbols are emitted in order (R192). -/
theorem decodeBits_codewords (nodeAt : NodeIdx → Node) (root : NodeIdx) :
    ∀ (cs : List (List Bool × Symbol)) (k : Nat) (out : List Symbol), CodePaths nodeAt root cs →
      out.length + cs.length ≤ 4096 →
      decodeBits nodeAt root (cs.map Prod.fst).flatten k { cur := root, depth := 0, out := out } =
        .ok { cur := root, depth := 0, out := out ++ cs.map Prod.snd }
  | [], _, out, _, _ => by simp [decodeBits]
  | c :: cs, k, out, h, hlen => by
    obtain ⟨hc, hl⟩ := h c List.mem_cons_self
    rw [List.length_cons] at hlen
    have hfirst := decodeBits_codeword nodeAt root k hc hl (show out.length < 4096 by omega)
    rw [List.map_cons, List.flatten_cons, decodeBits_append _ _ _ _ _ hfirst,
      decodeBits_codewords nodeAt root cs _ _ (fun a ha => h a (List.mem_cons_of_mem c ha))
        (by rw [List.length_append, List.length_singleton]; omega)]
    simp

/-- A path that ends at an INTERNAL node begins at one. -/
theorem kind_internal_of_isPath {nodeAt : NodeIdx → Node} {x c : NodeIdx} {q : List Bool} (h : IsPath nodeAt x q c)
    (hc : (nodeAt c).kind = .internal) : (nodeAt x).kind = .internal := by
  cases q with
  | nil =>
    obtain rfl : c = x := h
    exact hc
  | cons b q => exact h.1

/-- DEC has a tree to start from and a stream within the capacity, and the bits take its cursor from the root to `d`
(R191). -/
structure State.DecodesTo (s : State) (bs : List Bool) (d : Cursor) : Prop where
  valid : s.tree.valid = true
  root : rootUsable s.nodeAt s.tree.root = true
  cap : s.bitLen.toNat ≤ 32768
  bits : decodeBits s.nodeAt s.tree.root bs 0 { cur := s.tree.root, depth := 0, out := [] } = .ok d

/-- Codewords, then a path to an INTERNAL node: the codewords' symbols are emitted and the cursor is at that node. -/
theorem decodesTo_of_codePaths {s : State} {cs : List (List Bool × Symbol)} {q : List Bool} {c : NodeIdx}
    (hv : s.tree.valid = true) (hroot : s.tree.root ≠ Config.nil) (hcap : s.bitLen.toNat ≤ 32768)
    (hlen : cs.length ≤ 4096) (hcs : CodePaths s.nodeAt s.tree.root cs) (hq : q.length ≤ 254)
    (hpath : IsPath s.nodeAt s.tree.root q c) (hc : (s.nodeAt c).kind = .internal) :
    s.DecodesTo ((cs.map Prod.fst).flatten ++ q) { cur := c, depth := q.length, out := cs.map Prod.snd } where
  valid := hv
  root := by simp [rootUsable, hroot, kind_internal_of_isPath hpath hc]
  cap := hcap
  bits := by
    have hwords := decodeBits_codewords s.nodeAt s.tree.root cs 0 [] hcs (by simpa using hlen)
    rw [decodeBits_append q _ _ _ _ hwords, decodeBits_path _ _ q c _ _ hpath hc (by simpa using hq)]
    simp

section StreamEnds

variable {s : State} {bs : List Bool} {d : Cursor} (h : s.DecodesTo bs d)
include h

/-- A stream that ends at the root is decoded whole (R191, R195). -/
theorem State.DecodesTo.exec_at_root (hbits : s.streamBits s.bitLen.toNat = bs) (hd : d.depth = 0) :
    exec .dec s =
      .next (s.withSymbols (Memory.writeFrom none s.symbuf 0 d.out) (BitVec.ofNat 32 d.out.length)).complete :=
  exec_dec_ok (by simp [decodeStream, h.valid, h.root, Nat.not_lt.2 h.cap, hbits, h.bits, hd])

/-- A stream that ends in MID_CODE is an INVALID_STREAM of its whole length (R194). -/
theorem State.DecodesTo.exec_mid_code (hbits : s.streamBits s.bitLen.toNat = bs) (hd : d.depth ≠ 0) :
    exec .dec s = .next (s.raise (some .dec) (.invalidStream s.bitLen.toNat d.out.length)) :=
  exec_dec_error (by simp [decodeStream, h.valid, h.root, Nat.not_lt.2 h.cap, hbits, h.bits, hd])

/-- A bit at fault ends DEC at once, whatever follows it (R193). -/
theorem State.DecodesTo.exec_dead_bit {b : Bool} {more : List Bool} {e : CmdError}
    (hbits : s.streamBits s.bitLen.toNat = bs ++ b :: more)
    (he : decodeBit s.nodeAt s.tree.root bs.length b d = .error e) :
    exec .dec s = .next (s.raise (some .dec) e) := by
  have hstop : decodeBits s.nodeAt s.tree.root (bs ++ b :: more) 0 { cur := s.tree.root, depth := 0, out := [] } =
      .error e := by
    rw [decodeBits_append _ _ _ _ _ h.bits, Nat.zero_add]
    simp only [decodeBits, he]
  exact exec_dec_error (by simp [decodeStream, h.valid, h.root, Nat.not_lt.2 h.cap, hbits, hstop])

end StreamEnds

/-- DEC of codewords one after another and nothing else: their symbols, in order (R192, R195). -/
theorem exec_dec_of_codePaths {s : State} {cs : List (List Bool × Symbol)} (hv : s.tree.valid = true)
    (hroot : s.tree.root ≠ Config.nil) (hk : (s.nodeAt s.tree.root).kind = .internal) (hcap : s.bitLen.toNat ≤ 32768)
    (hlen : cs.length ≤ 4096) (hcs : CodePaths s.nodeAt s.tree.root cs)
    (hbits : s.streamBits s.bitLen.toNat = (cs.map Prod.fst).flatten) :
    exec .dec s = .next (s.withSymbols (Memory.writeFrom none s.symbuf 0 (cs.map Prod.snd))
      (BitVec.ofNat 32 (cs.map Prod.snd).length)).complete := by
  have hend := decodesTo_of_codePaths hv hroot hcap hlen hcs (q := []) (Nat.zero_le _) rfl hk
  exact hend.exec_at_root (by rw [hbits, List.append_nil]) rfl

/-- DEC with TREE valid and a root that no decoding starts from (R191). -/
theorem exec_dec_bad_root {s : State} (hv : s.tree.valid = true) (hr : rootUsable s.nodeAt s.tree.root = false)
    (hcap : s.bitLen.toNat ≤ 32768) :
    exec .dec s = .next (s.raise (some .dec) (.treeInvalid s.tree.root .badRoot)) :=
  exec_dec_error (by simp [decodeStream, hv, hr, Nat.not_lt.2 hcap])

/-! SYMBUF after DEC. -/

/-- SYMBUF after symbols are written there: the symbols, and every later entry as before (R195). -/
theorem symbufAt_withSymbols (s : State) (out : List Symbol) (n : Word) (j : Nat) :
    (s.withSymbols (Memory.writeFrom none s.symbuf 0 out) n).complete.symbufAt j = out.getD j (s.symbufAt j) := by
  show Memory.read _ (Memory.writeFrom none s.symbuf 0 out) j = _
  rw [Memory.read_writeFrom_none]
  by_cases hj : j < out.length
  · simp [hj]
  · simp [hj, State.symbufAt]

/-- The symbols read back are those written. -/
theorem symbols_withSymbols (s : State) (out : List Symbol) (n : Word) :
    (s.withSymbols (Memory.writeFrom none s.symbuf 0 out) n).complete.symbols out.length = out := by
  refine List.ext_getElem (by simp [State.symbols]) fun j h1 h2 => ?_
  simp only [State.symbols, List.getElem_map, List.getElem_range, symbufAt_withSymbols]
  exact List.getD_eq_getElem out _ h2

end Sys2Proof.Machine

namespace Sys2Proof.Proofs

open Sys2Proof.Machine

/-- Settles O47: DEC looks at VALID and at the root before any stream bit. -/
theorem decWithoutTree : Obligations.DecWithoutTree :=
  ⟨fun _ hv hn => exec_dec_no_tree_empty hv hn, fun _ hv hn hcap => exec_dec_no_tree hv hn hcap,
    fun _ hv hroot hcap => exec_dec_bad_root hv ((rootUsable_eq_false_iff _ _).2 hroot) hcap⟩

/-- Settles O48: with no entry to insert TBLTREE raises EMPTY_INPUT, and that error empties NODE and TREE. -/
theorem tbltreeFailsOnEmptyTable : Obligations.TbltreeFailsOnEmptyTable := by
  intro s h
  exact ⟨_, exec_tbltree_no_codes h, rfl, rfl, rfl, fun i => nodeIn_nil i, rfl⟩

/-- Settles O44: the codewords bring the cursor back to the root with their symbols emitted, and SYMBUF is written from
index 0 up. -/
theorem decEmitsLeafSymbols : Obligations.DecEmitsLeafSymbols := by
  intro s cs hv hroot hk hcap hlen hcs hbits
  have hmap : (cs.map Prod.snd).length = cs.length := List.length_map _
  refine ⟨_, exec_dec_of_codePaths hv hroot hk hcap hlen hcs hbits, rfl, ?symLen, ?symbols, fun j hj => ?above⟩
  case symLen =>
    show (BitVec.ofNat 32 (cs.map Prod.snd).length).toNat = cs.length
    rw [hmap, BitVec.toNat_ofNat, Nat.mod_eq_of_lt (hlen.trans_lt (by decide))]
  case symbols =>
    rw [← hmap]
    exact symbols_withSymbols s _ _
  case above =>
    rw [symbufAt_withSymbols]
    exact List.getD_eq_default _ _ (hmap ▸ hj)

/-- Settles O45: after the codewords the cursor is at an INTERNAL node below the root when the stream ends. -/
theorem decFailsMidCode : Obligations.DecFailsMidCode := by
  intro s cs q c hv hroot hcap hlen hcs hne hq hpath hc hbits
  have hstop := decodesTo_of_codePaths hv hroot hcap hlen hcs hq hpath hc
  have hpos : BitVec.ofNat 32 s.bitLen.toNat = s.bitLen := by rw [BitVec.ofNat_toNat, BitVec.setWidth_eq]
  rw [hstop.exec_mid_code hbits (mt List.length_eq_zero_iff.1 hne), List.length_map, CmdError.invalidStream, hpos]
  rfl

/-- Settles O46: after the codewords and the path the cursor is at an INTERNAL node, and the next bit is at fault. -/
theorem decFailsOnDeadPath : Obligations.DecFailsOnDeadPath := by
  intro s cs q c b more hv hroot hcap hlen hcs hq hpath hc hbits
  have hstop := decodesTo_of_codePaths hv hroot hcap hlen hcs hq hpath hc
  have hcount : (cs.map Prod.snd).length = cs.length := List.length_map _
  refine ⟨fun hn => ?nil, fun hn hk => ?sentinel, fun hn hk => ?empty, fun hn hk hdeep => ?tooDeep,
    fun hn hk hfull => ?overflow⟩
  case nil => rw [hstop.exec_dead_bit hbits (decodeBit_nil hn), List.length_append, hcount]; rfl
  case sentinel => rw [hstop.exec_dead_bit hbits (decodeBit_sentinel hn hk), List.length_append, hcount]; rfl
  case empty => exact hstop.exec_dead_bit hbits (decodeBit_empty hn hk)
  case tooDeep => exact hstop.exec_dead_bit hbits (decodeBit_tooDeep hn hk hdeep)
  case overflow =>
    rw [hstop.exec_dead_bit hbits (decodeBit_overflow hn hk (hcount.trans hfull)), List.length_append]; rfl

end Sys2Proof.Proofs

/-! PROOFS. The round trip: BUILD, GEN, ENC, DEC, and with TBLTREE before DEC (R198). -/

namespace Sys2Proof.Machine

/-! A tree that spells a table, and a state that holds a stream. -/

/-- TREE names a tree on which each usable entry's codeword leads from the root to a LEAF of its symbol (R44, R204). -/
structure State.SpellsTable (s : State) (codeAt : Symbol → CodeEntry) : Prop where
  valid : s.tree.valid = true
  root : s.tree.root ≠ Config.nil
  internal : (s.nodeAt s.tree.root).kind = .internal
  path : ∀ x, (codeAt x).usable = true → IsCodePath s.nodeAt s.tree.root (codeAt x).codeword x

/-- BIT_LEN and BITBUF hold the stream (R66). -/
structure State.HoldsStream (s : State) (stream : List Bool) : Prop where
  cap : stream.length ≤ 32768
  len : s.bitLen.toNat = stream.length
  bits : s.streamBits stream.length = stream

/-- NODE and TREE have no part in the stream. -/
theorem State.HoldsStream.withTree {s : State} {stream : List Bool} (h : s.HoldsStream stream) (m : Memory Node)
    (t : TreeReg) : (s.withTree m t).complete.HoldsStream stream :=
  ⟨h.cap, h.len, h.bits⟩

/-- The tree GEN walked spells the table it wrote (R153). -/
theorem spellsTable_of_holdsTree {s : State} {T : CodeTree} (h : s.holdsTree T) (ha : T.acceptable) :
    s.SpellsTable (codeIn (putCodes [] [] T.codes)) := by
  have hpath := fun x hu => isCodePath_of_mem_codes h ha (mem_codes_of_usable (x := x) ha hu)
  obtain ⟨hv, hT⟩ := h
  cases T with
  | node l r => exact ⟨hv, hT.1, hT.2.1, hpath⟩
  | absent => exact ha.elim
  | sentinel => exact ha.elim
  | leaf _ => exact ha.elim

/-- The tree TBLTREE rebuilds spells the table it was rebuilt from (R200). -/
theorem spellsTable_of_rebuildTree {codeAt : Symbol → CodeEntry} {m : Memory Node} {t : TreeReg}
    (h : rebuildTree codeAt = .ok (m, t)) (s : State) : (s.withTree m t).complete.SpellsTable codeAt := by
  obtain ⟨rfl, -, -, W, S, k, hspelled, -, hwords⟩ := rebuildTree_ok h
  have hroot : ∀ x, (x, []) ∉ W := fun x hx => (hspelled.word x [] hx).2.1 rfl
  refine ⟨rfl, by simp [Config.nil], (hspelled.inner 0#9 [] hspelled.root hroot).1, fun x hu => ?_⟩
  have hv : (codeAt x).valid = true := by
    rw [CodeEntry.usable, Bool.and_eq_true] at hu
    exact hu.1
  exact (hspelled.isCodePath_iff _ x).2 ((hwords x _).2 ⟨trivial, hv, rfl⟩)

/-! TBLTREE of the table of an acceptable tree. -/

/-- The prefixes of an acceptable tree's codewords are paths of the tree, so there are at most 511 of them (R156, R202). -/
theorem CodeTree.prefixes_length_le {T : CodeTree} (ha : T.acceptable) {S : List (List Bool)} (hn : S.Nodup)
    (hS : ∀ q ∈ S, q = [] ∨ ∃ x p, (x, p) ∈ T.codes ∧ q <+: p) : S.length ≤ 511 := by
  have hsize : T.size ≤ 511 ∧ [] ∈ T.paths := by
    cases T with
    | node l r => exact ⟨ha.1, by simp [CodeTree.paths]⟩
    | absent => exact ha.elim
    | sentinel => exact ha.elim
    | leaf _ => exact ha.elim
  have hsub : S ⊆ T.paths := fun q hq => by
    obtain rfl | ⟨x, p, hp, hqp⟩ := hS q hq
    · exact hsize.2
    · exact prefix_mem_paths hp hqp
  calc S.length ≤ T.paths.length := (List.subperm_of_subset hn hsub).length_le
    _ = T.size := length_paths T
    _ ≤ 511 := hsize.1

/-- A valid entry of an acceptable tree's table is usable (R153). -/
theorem usable_of_valid {T : CodeTree} (ha : T.acceptable) {x : Symbol}
    (hv : (codeIn (putCodes [] [] T.codes) x).valid = true) : (codeIn (putCodes [] [] T.codes) x).usable = true := by
  by_contra hu
  rw [blank_of_not_usable ha (Bool.eq_false_iff.2 hu)] at hv
  cases hv

/-- A symbol on a leaf of an acceptable tree has a usable entry in the tree's table (R153). -/
theorem usable_of_mem {T : CodeTree} (ha : T.acceptable) {x : Symbol} (hx : x ∈ T.codes.map Prod.fst) :
    (codeIn (putCodes [] [] T.codes) x).usable = true :=
  usable_of_valid ha ((valid_putCodes [] x T.codes []).2 (.inr hx))

/-- TBLTREE rebuilds a tree from the table of any acceptable tree that has a leaf (R204). -/
theorem rebuildTree_of_acceptable {T : CodeTree} (ha : T.acceptable) {x : Symbol} (hx : x ∈ T.codes.map Prod.fst) :
    ∃ m, rebuildTree (codeIn (putCodes [] [] T.codes)) = .ok (m, { valid := true, root := 0#9 }) := by
  refine rebuildTree_ok_of ⟨x, (valid_putCodes [] x T.codes []).2 (.inr hx)⟩ (fun y hv => ?_) (prefixFree_of_acceptable ha)
    fun S hn hS => T.prefixes_length_le ha hn fun q hq => ?_
  · have hu := usable_of_valid ha hv
    rw [CodeEntry.usable, Bool.and_eq_true, bne_iff_ne] at hu
    exact hu.2
  · exact (hS q hq).imp_right fun ⟨y, hv, hqy⟩ => ⟨y, _, mem_codes_of_usable ha (usable_of_valid ha hv), hqy⟩

/-! DEC reads back what ENC emits. -/

/-- The symbols with their codewords. -/
def codedSymbols (codeAt : Symbol → CodeEntry) (xs : List Symbol) : List (List Bool × Symbol) :=
  xs.map fun x => ((codeAt x).codeword, x)

@[simp] theorem codedSymbols_snd (codeAt : Symbol → CodeEntry) (xs : List Symbol) :
    (codedSymbols codeAt xs).map Prod.snd = xs := by
  simp [codedSymbols, Function.comp_def]

/-- The codewords of the symbols, one after another, are what ENC emits (R171). -/
@[simp] theorem flatten_codedSymbols_fst (codeAt : Symbol → CodeEntry) (xs : List Symbol) :
    ((codedSymbols codeAt xs).map Prod.fst).flatten = encodeEmit codeAt xs := by
  simp [codedSymbols, encodeEmit, List.flatMap_def, Function.comp_def]

/-- On a tree that spells the table, the codewords of symbols with usable entries are paths to their leaves. -/
theorem State.SpellsTable.codePaths {s : State} {codeAt : Symbol → CodeEntry} (h : s.SpellsTable codeAt) {xs : List Symbol}
    (hu : ∀ x ∈ xs, (codeAt x).usable = true) : CodePaths s.nodeAt s.tree.root (codedSymbols codeAt xs) := fun c hc => by
  obtain ⟨x, hx, rfl⟩ := List.mem_map.1 hc
  have hlt := (codeAt x).len.isLt
  exact ⟨h.path x (hu x hx), by rw [length_codeword]; omega⟩

/-- DEC, on a tree that spells a table, of the stream ENC computes from SYMBUF with that table: the symbols (R198). -/
theorem exec_dec_recovers {s u : State} {codeAt : Symbol → CodeEntry} (hspells : s.SpellsTable codeAt)
    (hn : u.symLen.toNat ≤ 4096) (hu : ∀ k < u.symLen.toNat, (codeAt (u.symbufAt k)).usable = true)
    (hstream : s.HoldsStream (encodeEmit codeAt (u.symbols u.symLen.toNat))) :
    ∃ t, exec .dec s = .next t ∧ t.errcode = .ok ∧ t.symLen = u.symLen ∧
      ∀ k < u.symLen.toNat, t.symbufAt k = u.symbufAt k := by
  have hxs : (u.symbols u.symLen.toNat).length = u.symLen.toNat := by simp [State.symbols]
  have husable : ∀ x ∈ u.symbols u.symLen.toNat, (codeAt x).usable = true := fun x hx => by
    obtain ⟨k, hk, rfl⟩ := State.mem_symbols.1 hx
    exact hu k hk
  have hdec := exec_dec_of_codePaths hspells.valid hspells.root hspells.internal (hstream.len ▸ hstream.cap)
    (by rw [codedSymbols, List.length_map, hxs]; exact hn) (hspells.codePaths husable)
    (by rw [hstream.len, hstream.bits, flatten_codedSymbols_fst])
  rw [codedSymbols_snd] at hdec
  refine ⟨_, hdec, rfl, ?_, fun k hk => ?_⟩
  · show BitVec.ofNat 32 _ = u.symLen
    rw [hxs, BitVec.ofNat_toNat, BitVec.setWidth_eq]
  · rw [symbufAt_withSymbols, List.getD_eq_getElem _ _ (hk.trans_eq hxs.symm)]
    simp [State.symbols]

/-- ENC of at most 4096 symbols with usable entries and at most 32768 bits in all leaves BIT_LEN and BITBUF holding their
codewords, and changes no other memory or length (R170 to R172). -/
theorem exec_enc_holdsStream {s : State} (hn : s.symLen.toNat ≤ 4096)
    (hu : ∀ k < s.symLen.toNat, (s.codeAt (s.symbufAt k)).usable = true)
    (hl : (encodeEmit s.codeAt (s.symbols s.symLen.toNat)).length ≤ 32768) :
    ∃ m n, exec .enc s = .next (s.withStream m n).complete ∧
      (s.withStream m n).complete.HoldsStream (encodeEmit s.codeAt (s.symbols s.symLen.toNat)) :=
  ⟨_, _, exec_enc_of_usable hn hu hl, hl, (BitVec.toNat_ofNat _ 32).trans (Nat.mod_eq_of_lt (hl.trans_lt (by decide))),
    streamBits_withStream s _ _⟩

end Sys2Proof.Machine

namespace Sys2Proof.Proofs

open Sys2Proof.Machine

/-- Settles O54: BUILD's tree spells the table GEN writes from it, and so does the tree TBLTREE rebuilds from that table, so on
either of them DEC reads ENC's stream back. -/
theorem roundTripFromCounts : Obligations.RoundTripFromCounts := by
  rintro s ⟨x, hx⟩ hn hlive
  obtain ⟨m, t, T, hbuild, hT⟩ := buildTree_grown (seedOrder_ne_nil hx)
  have ha := hT.acceptable
  have hholds : (s.withTree m t).complete.holdsTree T := ⟨hT.valid, hT.holds⟩
  have hleaf : ∀ y, s.freqAt y ≠ 0#32 → y ∈ T.codes.map Prod.fst := fun y hy =>
    hT.leaves.mem_iff.2 ((mem_seedOrder s.freqAt y).2 hy)
  have hu : ∀ k < s.symLen.toNat, (codeIn (putCodes [] [] T.codes) (s.symbufAt k)).usable = true := fun k hk =>
    usable_of_mem ha (hleaf _ (hlive k hk))
  refine ⟨_, _, exec_build_ok hbuild, rfl, exec_gen_of_holdsTree hholds ha, rfl, fun hl => ?_⟩
  rw [← length_encodeEmit] at hl
  obtain ⟨b, n, henc, hstream⟩ := exec_enc_holdsStream (s := ((s.withTree m t).complete.withCode _).complete) hn hu hl
  refine ⟨_, henc, rfl, ?built, ?rebuilt⟩
  case built => exact exec_dec_recovers (u := s) (spellsTable_of_holdsTree hholds ha) hn hu hstream
  case rebuilt =>
    obtain ⟨m', hm'⟩ := rebuildTree_of_acceptable ha (hleaf x hx)
    obtain ⟨u, hdec, hrecovers⟩ :=
      exec_dec_recovers (u := s) (spellsTable_of_rebuildTree hm' _) hn hu (hstream.withTree m' _)
    exact ⟨_, u, exec_tbltree_ok hm', rfl, hdec, hrecovers⟩

end Sys2Proof.Proofs

/-! PROOFS. What an error leaves of each command's output (R230), and the interrupt output (R240, R241). -/

namespace Sys2Proof.Machine

/-! Errors. -/

/-- The output effects of an error, field by field: each command empties its own output and nothing else (R230). -/
theorem errorEffects_some (i : Instr) (s : State) :
    errorEffects (some i) s =
      { s with
        node := if i = .build ∨ i = .tbltree then [] else s.node
        tree := if i = .build ∨ i = .tbltree then .zero else s.tree
        code := if i = .gen then [] else s.code
        bitLen := if i = .enc then 0#32 else s.bitLen
        symLen := if i = .dec then 0#32 else s.symLen } := by
  cases i <;> rfl

/-- The output effects of an error leave CTRL alone (R93, R230). -/
@[simp] theorem errorEffects_irqEn (cmd : Option Instr) (s : State) : (errorEffects cmd s).irqEn = s.irqEn := by
  cases cmd with
  | none => rfl
  | some i => rw [errorEffects_some]

/-- A command that ends with ERRCODE other than OK has raised its error (R112). -/
theorem exec_raises {i : Instr} {s t : State} (h : exec i s = .next t) (herr : t.errcode ≠ .ok) :
    ∃ e, t = s.raise (some i) e := by
  obtain ⟨u, hu, -⟩ | ⟨e, -, he⟩ := exec_cases i s
  · cases h.symm.trans hu
    exact absurd u.complete_errcode herr
  · cases h.symm.trans he
    exact ⟨e, rfl⟩

/-! The interrupt output. -/

theorem State.complete_irq (s : State) : s.complete.irq = s.irqEn := by
  rw [State.irq, State.complete_irqEn, State.complete_done, Bool.and_true]

/-- An error sets DONE as a success does, so it interrupts too (R240, R242). -/
theorem State.raise_irq (cmd : Option Instr) (e : CmdError) (s : State) : (s.raise cmd e).irq = s.irqEn := by
  rw [State.raise, State.irq, State.recordError_irqEn, State.recordError_done, errorEffects_irqEn, Bool.and_true]

/-- However a command ends, `irq` is then IRQ_EN (R240). -/
theorem exec_irq {i : Instr} {s t : State} (h : exec i s = .next t) : t.irq = s.irqEn := by
  obtain ⟨u, hu, heffect⟩ | ⟨e, -, he⟩ := exec_cases i s
  · cases h.symm.trans hu
    have hirqEn : u.irqEn = s.irqEn := by
      obtain rfl | rfl | ⟨_, _, rfl⟩ | ⟨_, rfl⟩ | ⟨_, _, rfl⟩ | ⟨_, _, rfl⟩ := heffect <;> rfl
    rw [u.complete_irq, hirqEn]
  · cases h.symm.trans he
    exact s.raise_irq _ e

/-- A write of 1 to STATUS bit 1 clears DONE, and with it `irq` (R26, R241). -/
theorem State.writeStatus_irq {v : Word} (s : State) (hv : v.getLsbD 1 = true) : (s.writeStatus v).irq = false := by
  simp [State.irq, hv]

/-- After a write to CTRL, `irq` is the IRQ_EN written and DONE (R24, R240). -/
theorem State.storeWord_ctrl_irq (s : State) (v : Word) : (s.storeWord v .ctrl).irq = (v.getLsbD 0 && s.done) := rfl

/-- Acceptance of a command clears DONE, and with it `irq` (R110, R241). -/
theorem State.accept_irq (s : State) (v : Word) : (s.accept v).irq = false := by
  rw [State.irq, State.accept_done, Bool.and_false]

end Sys2Proof.Machine

namespace Sys2Proof.Proofs

open Sys2Proof.Machine

/-- Settles O55: a command that fails ends in the state its error raises, which differs from the one before in the error
recorded and in the command's own output, emptied. -/
theorem errorsLeaveOutputEmpty : Obligations.ErrorsLeaveOutputEmpty := by
  refine ⟨fun v s t h => ?illegal, fun i s t h herr => ?command⟩
  case illegal =>
    cases h
    rfl
  case command =>
    obtain ⟨e, rfl⟩ := exec_raises h herr
    exact congrArg (State.recordError e) (errorEffects_some i s)

/-- Settles O21: completion sets DONE whether or not there is an error, and each of the three stores clears a factor of
`irq`. -/
theorem irqFollowsDoneAndEnable : Obligations.IrqFollowsDoneAndEnable := by
  refine ⟨fun _ => rfl, fun _ _ _ => exec_irq, fun v s t h => ?illegal, fun s _ hv => s.writeStatus_irq hv,
    fun s v hv => ?disable, fun s v hv => ?enable, State.accept_irq⟩
  case illegal =>
    cases h
    exact s.raise_irq none _
  case disable => rw [s.storeWord_ctrl_irq, hv, Bool.false_and]
  case enable => rw [s.storeWord_ctrl_irq, hv, Bool.true_and]

end Sys2Proof.Proofs

/-! PROOFS. What a state reads as when its registers and memories hold their reset values (R260). -/

namespace Sys2Proof.Machine

/-! Registers computed from fields. -/

/-- STATUS reads 0 when the engine is IDLE, no flag is set, there is no error, and LASTOP is 0 (R26). -/
theorem State.statusWord_eq_zero {s : State} (hengine : s.engine = .idle) (hdone : s.done = false)
    (hoverrun : s.overrun = false) (herrcode : s.errcode = .ok) (hlastop : s.lastop = 0#8) : s.statusWord = 0#32 := by
  have hbusy : s.busy = false := by rw [State.busy_eq_isBusy, hengine, Engine.isBusy_idle]
  have herr : s.err = false := by rw [State.err, herrcode]; rfl
  rw [State.statusWord, hlastop, herrcode, hoverrun, herr, hdone, hbusy]
  rfl

theorem TreeReg.word_zero : TreeReg.zero.word = 0#32 := rfl

/-- `irq` is 0 while DONE is 0 (R240). -/
theorem State.irq_eq_false {s : State} (hdone : s.done = false) : s.irq = false := by
  rw [State.irq, hdone, Bool.and_false]

/-! Memories in which nothing is listed. -/

theorem State.freqAt_eq_zero {s : State} (h : s.freq = []) (x : Symbol) : s.freqAt x = 0#32 := by
  rw [State.freqAt, h, Memory.read_nil]

theorem State.nodeAt_eq_blank {s : State} (h : s.node = []) (i : NodeIdx) : s.nodeAt i = Node.blank := by
  rw [State.nodeAt, h, nodeIn_nil]

theorem State.codeAt_eq_blank {s : State} (h : s.code = []) (x : Symbol) : s.codeAt x = CodeEntry.blank := by
  rw [State.codeAt, h, codeIn_nil]

end Sys2Proof.Machine

namespace Sys2Proof.Proofs

open Sys2Proof.Machine

/-- Settles O22: the constant registers read as in every state, STATUS, TREE and `irq` are computed from fields that are 0,
and FREQ, NODE and CODE list no entry. -/
theorem resetStateIsStated : Obligations.ResetStateIsStated := by
  obtain ⟨hid, hparam0, hparam1, hparam2⟩ := constantRegistersRead State.reset
  have hctrl : State.reset.wordAt .ctrl = 0#32 := rfl
  have hstatus : State.reset.wordAt .status = 0#32 := State.statusWord_eq_zero rfl rfl rfl rfl rfl
  have hirq : State.reset.irq = false := State.irq_eq_false rfl
  exact ⟨rfl, hid, hparam0, hparam1, hparam2, hctrl, hstatus, rfl, rfl, TreeReg.word_zero, rfl, rfl,
    State.freqAt_eq_zero rfl, State.nodeAt_eq_blank rfl, State.codeAt_eq_blank rfl, hirq⟩

end Sys2Proof.Proofs

/-! PROOFS. What a command has computed, from the state it answers (R112). -/

namespace Sys2Proof.Machine

/-- BUILD: its tree written, or its error raised (R130, R136). -/
theorem exec_build_cases {s t : State} (h : exec .build s = .next t) :
    (∃ m t', buildTree s.freqAt = .ok (m, t') ∧ t = (s.withTree m t').complete) ∨
      ∃ e, e.code ≠ .ok ∧ buildTree s.freqAt = .error e ∧ t = s.raise (some .build) e := by
  cases hc : buildTree s.freqAt with
  | ok r =>
    cases h.symm.trans (exec_build_ok hc)
    exact .inl ⟨_, _, rfl, rfl⟩
  | error e =>
    cases h.symm.trans (exec_build_error hc)
    exact .inr ⟨e, by rw [buildTree_error hc]; decide, rfl, rfl⟩

/-- GEN: its table written, or its error raised (R150). -/
theorem exec_gen_cases {s t : State} (h : exec .gen s = .next t) :
    (∃ m, generateTable s.tree s.nodeAt = .ok m ∧ t = (s.withCode m).complete) ∨
      ∃ e, e.code ≠ .ok ∧ generateTable s.tree s.nodeAt = .error e ∧ t = s.raise (some .gen) e := by
  cases hc : generateTable s.tree s.nodeAt with
  | ok r =>
    cases h.symm.trans (exec_gen_ok hc)
    exact .inl ⟨_, rfl, rfl⟩
  | error e =>
    cases h.symm.trans (exec_gen_error hc)
    exact .inr ⟨e, by rcases generateTable_error hc with he | he <;> rw [he] <;> decide, rfl, rfl⟩

/-- ENC: its stream written, or its error raised (R170). -/
theorem exec_enc_cases {s t : State} (h : exec .enc s = .next t) :
    (∃ stream, encodeStream s.symLen s.symbols s.codeAt = .ok stream ∧
      t = (s.withStream (Memory.writeFrom none s.bitbuf 0 (streamWords stream)) (BitVec.ofNat 32 stream.length)).complete) ∨
      ∃ e, e.code ≠ .ok ∧ encodeStream s.symLen s.symbols s.codeAt = .error e ∧ t = s.raise (some .enc) e := by
  cases hc : encodeStream s.symLen s.symbols s.codeAt with
  | ok r =>
    cases h.symm.trans (exec_enc_ok hc)
    exact .inl ⟨_, rfl, rfl⟩
  | error e =>
    cases h.symm.trans (exec_enc_error hc)
    exact .inr ⟨e, by rcases encodeStream_error hc with he | he | he | he <;> rw [he] <;> decide, rfl, rfl⟩

/-- DEC: its symbols written, or its error raised (R191, R195). -/
theorem exec_dec_cases {s t : State} (h : exec .dec s = .next t) :
    (∃ out, decodeStream s.bitLen s.streamBits s.tree s.nodeAt = .ok out ∧
      t = (s.withSymbols (Memory.writeFrom none s.symbuf 0 out) (BitVec.ofNat 32 out.length)).complete) ∨
      ∃ e, e.code ≠ .ok ∧ decodeStream s.bitLen s.streamBits s.tree s.nodeAt = .error e ∧ t = s.raise (some .dec) e := by
  cases hc : decodeStream s.bitLen s.streamBits s.tree s.nodeAt with
  | ok r =>
    cases h.symm.trans (exec_dec_ok hc)
    exact .inl ⟨_, rfl, rfl⟩
  | error e =>
    cases h.symm.trans (exec_dec_error hc)
    exact .inr ⟨e, by rcases decodeStream_error hc with he | he | he | he <;> rw [he] <;> decide, rfl, rfl⟩

/-- TBLTREE: its tree written, or its error raised (R200). -/
theorem exec_tbltree_cases {s t : State} (h : exec .tbltree s = .next t) :
    (∃ m t', rebuildTree s.codeAt = .ok (m, t') ∧ t = (s.withTree m t').complete) ∨
      ∃ e, e.code ≠ .ok ∧ rebuildTree s.codeAt = .error e ∧ t = s.raise (some .tbltree) e := by
  cases hc : rebuildTree s.codeAt with
  | ok r =>
    cases h.symm.trans (exec_tbltree_ok hc)
    exact .inl ⟨_, _, rfl, rfl⟩
  | error e =>
    cases h.symm.trans (exec_tbltree_error hc)
    exact .inr ⟨e, by rcases rebuildTree_error hc with he | he <;> rw [he] <;> decide, rfl, rfl⟩

/-- A command that ends without error leaves ERR_POS and ERR_AUX (R29, R112). -/
theorem exec_ok_errors {i : Instr} {s t : State} (h : exec i s = .next t) (hok : t.errcode = .ok) :
    t.errPos = s.errPos ∧ t.errAux = s.errAux := by
  obtain ⟨u, hu, heffect⟩ | ⟨e, hcode, he⟩ := exec_cases i s
  · cases h.symm.trans hu
    obtain rfl | rfl | ⟨_, _, rfl⟩ | ⟨_, rfl⟩ | ⟨_, _, rfl⟩ | ⟨_, _, rfl⟩ := heffect <;> exact ⟨rfl, rfl⟩
  · cases h.symm.trans he
    exact absurd hok hcode

end Sys2Proof.Machine

/-! PROOFS. Command words and their bytes (R90 to R94). -/

namespace Sys2Proof.Machine

theorem decode_encode (i : Instr) : decode (encode i) = .ok i := by cases i <;> rfl

/-- A word decodes to a command exactly when it is that command's encoding (R92, R94). -/
theorem decode_eq_ok_iff (w : Word) (i : Instr) : decode w = .ok i ↔ w = encode i :=
  ⟨eq_encode_of_decode, fun h => h ▸ decode_encode i⟩

/-- The four bytes of a word show that word (R68). -/
theorem bytesWord_wordBytes (w : Word) :
    bytesWord (w.extractLsb' 0 8) (w.extractLsb' 8 8) (w.extractLsb' 16 8) (w.extractLsb' 24 8) = w := by
  have h16 : w.extractLsb' 24 8 ++ w.extractLsb' 16 8 = w.extractLsb' 16 16 :=
    BitVec.extractLsb'_append_extractLsb'_eq_extractLsb' rfl
  have h24 : w.extractLsb' 16 16 ++ w.extractLsb' 8 8 = w.extractLsb' 8 24 :=
    BitVec.extractLsb'_append_extractLsb'_eq_extractLsb' rfl
  rw [bytesWord, h16, h24]
  exact rsvdField_append_opcodeField w

/-- Decoding from the bytes of a legal word reads that word and leaves what follows it (R90). -/
theorem decodeBytes_wordBytes {w : Word} {i : Instr} (h : decode w = .ok i) (rest : List Byte) :
    decodeBytes (wordBytes w ++ rest) = .ok (i, rest) := by
  simp only [wordBytes, List.cons_append, List.nil_append, decodeBytes, bytesWord_wordBytes, h]

end Sys2Proof.Machine

namespace Sys2Proof.Proofs

open Sys2Proof.Machine

/-- Settles O1: each of the nine words is the encoding of its command. -/
theorem nineWordsDecode : Obligations.NineWordsDecode :=
  ⟨decode_encode .nop, decode_encode .clrfreq, decode_encode .clrtree, decode_encode .clrtbl, decode_encode .build,
    decode_encode .gen, decode_encode .enc, decode_encode .dec, decode_encode .tbltree⟩

/-- Settles O2: RSVD and OPCODE make up the whole word, and the opcode map gives a command to its own OPCODE only. -/
theorem decodeInvertsEncode : Obligations.DecodeInvertsEncode :=
  ⟨decode_eq_ok_iff, fun i rest => decodeBytes_wordBytes (decode_encode i) rest⟩

end Sys2Proof.Proofs

/-! PROOFS. The tree TBLTREE rebuilds: which tables have one and which entry is at fault (R200 to R202), GEN and DEC on it
(R197, R204), and DEC of what ENC encoded with GEN's table. -/

namespace Sys2Proof.Machine

/-! The words of the rebuilt tree. -/

/-- A word that begins another is the same symbol's (R201). -/
theorem Spelled.eq_of_begins {W : List (Symbol × List Bool)} {S : List (List Bool)} {t : Rebuild} (h : Spelled W S t)
    {x y : Symbol} {p q : List Bool} (hx : (x, p) ∈ W) (hy : (y, q) ∈ W) (hpq : p <+: q) : x = y := by
  obtain ⟨r, rfl⟩ := hpq
  cases r with
  | nil => exact h.same x y p hx (by simpa using hy)
  | cons b r =>
    have hq : p ++ [b] ++ r ∈ S := by simpa using (h.word y _ hy).1
    exact absurd (h.prefix_mem r _ hq) ((h.word x p hx).2.2 b)

/-- Every node of a spelled tree has weight 0 (R200). -/
theorem Spelled.weight_eq_zero {W : List (Symbol × List Bool)} {S : List (List Bool)} {t : Rebuild} (h : Spelled W S t)
    (i : NodeIdx) : (nodeIn t.nodes i).weight = 0#40 := by
  by_cases hi : i.toNat < t.free
  · have hget : S[i.toNat]? = some (S[i.toNat]'(h.len ▸ hi)) := List.getElem?_eq_getElem _
    by_cases hw : ∃ x, (x, S[i.toNat]'(h.len ▸ hi)) ∈ W
    · obtain ⟨x, hx⟩ := hw
      rw [h.leaf i _ x hget hx]
      rfl
    · exact (h.inner i _ hget (fun x hx => hw ⟨x, hx⟩)).2.1
  · rw [h.blank i (Nat.le_of_not_lt hi)]
    rfl

/-- What a successful TBLTREE leaves in NODE: a tree from index 0 whose nodes have the paths `S` and whose leaves are the
usable entries' codewords `W` (R200). -/
structure Rebuilt (codeAt : Symbol → CodeEntry) (m : Memory Node) (W : List (Symbol × List Bool)) (S : List (List Bool))
    (k : Nat) : Prop where
  spelled : Spelled W S { nodes := m, free := k }
  paths : PathsOf W S
  words : ∀ x q, (x, q) ∈ W ↔ (codeAt x).usable = true ∧ (codeAt x).codeword = q

theorem CodeEntry.valid_of_usable {e : CodeEntry} (h : e.usable = true) : e.valid = true := by
  rw [CodeEntry.usable, Bool.and_eq_true] at h
  exact h.1

theorem CodeEntry.usable_of_len_ne {e : CodeEntry} (hv : e.valid = true) (hl : e.len ≠ 0#8) : e.usable = true := by
  rw [CodeEntry.usable, hv, Bool.true_and, bne_iff_ne]
  exact hl

theorem rebuilt_of_rebuildTree {codeAt : Symbol → CodeEntry} {m : Memory Node} {t : TreeReg}
    (h : rebuildTree codeAt = .ok (m, t)) : ∃ W S k, Rebuilt codeAt m W S k := by
  obtain ⟨-, -, hlen, W, S, k, hspelled, hpaths, hwords⟩ := rebuildTree_ok h
  refine ⟨W, S, k, hspelled, hpaths, fun x q => (hwords x q).trans ⟨?_, ?_⟩⟩
  · rintro ⟨-, hv, rfl⟩
    exact ⟨CodeEntry.usable_of_len_ne hv (hlen x hv), rfl⟩
  · rintro ⟨hu, rfl⟩
    exact ⟨trivial, CodeEntry.valid_of_usable hu, rfl⟩

/-- TBLTREE ends without error only when the tree was rebuilt (R200). -/
theorem exec_tbltree_success {s t : State} (h : exec .tbltree s = .next t) (hok : t.errcode = .ok) :
    ∃ m, rebuildTree s.codeAt = .ok (m, { valid := true, root := 0#9 }) ∧
      t = (s.withTree m { valid := true, root := 0#9 }).complete := by
  obtain ⟨m, tr, hr, rfl⟩ | ⟨e, hcode, -, rfl⟩ := exec_tbltree_cases h
  · obtain ⟨rfl, -⟩ := rebuildTree_ok hr
    exact ⟨m, hr, rfl⟩
  · exact absurd hok hcode

section RebuiltTree

variable {codeAt : Symbol → CodeEntry} {m : Memory Node} {W : List (Symbol × List Bool)} {S : List (List Bool)} {k : Nat}

theorem Rebuilt.isCodePath_iff (h : Rebuilt codeAt m W S k) (q : List Bool) (x : Symbol) :
    IsCodePath (nodeIn m) 0#9 q x ↔ (codeAt x).usable = true ∧ (codeAt x).codeword = q :=
  (h.spelled.isCodePath_iff q x).trans (h.words x q)

/-- A word is a codeword, of at most 255 bits (R35). -/
theorem Rebuilt.length_word_le (h : Rebuilt codeAt m W S k) {x : Symbol} {q : List Bool} (hx : (x, q) ∈ W) :
    q.length ≤ 255 := by
  obtain ⟨-, rfl⟩ := (h.words x q).1 hx
  have := (codeAt x).len.isLt
  rw [length_codeword]
  omega

theorem Rebuilt.root_not_word (h : Rebuilt codeAt m W S k) (x : Symbol) : (x, []) ∉ W :=
  fun hx => (h.spelled.word x [] hx).2.1 rfl

theorem Rebuilt.root_internal (h : Rebuilt codeAt m W S k) : (nodeIn m 0#9).kind = .internal :=
  (h.spelled.inner 0#9 [] h.spelled.root h.root_not_word).1

/-- A tree held at an INTERNAL node is a node over two children. -/
theorem exists_node_of_holds {nodeAt : NodeIdx → Node} {c : NodeIdx} {T : CodeTree} (h : Holds nodeAt c T)
    (hn : c ≠ Config.nil) (hk : (nodeAt c).kind = .internal) : ∃ l r, T = .node l r := by
  cases T with
  | absent => exact absurd h hn
  | sentinel => cases hk.symm.trans h.2
  | leaf x => cases hk.symm.trans h.2.1
  | node l r => exact ⟨l, r, rfl⟩

/-- The tree rebuilt is one the generator accepts, and its codes are the table's (R200, R204). -/
theorem Rebuilt.exists_tree (h : Rebuilt codeAt m W S k) :
    ∃ T : CodeTree, Holds (nodeIn m) 0#9 T ∧ T.acceptable ∧
      ∀ x q, (x, q) ∈ T.codes ↔ (codeAt x).usable = true ∧ (codeAt x).codeword = q := by
  have hnil : (0#9 : NodeIdx) ≠ Config.nil := by decide
  obtain ⟨hT, hheight, hsentinels⟩ := h.spelled.holds_treeOf h.paths (fun x q hx => h.length_word_le hx) 256 0#9 []
    h.spelled.root (by simp)
  obtain ⟨l, r, hlr⟩ := exists_node_of_holds hT hnil h.root_internal
  rw [hlr] at hT hheight hsentinels
  have hcodes : ∀ x q, (x, q) ∈ (CodeTree.node l r).codes ↔ (codeAt x).usable = true ∧ (codeAt x).codeword = q := fun x q => by
    rw [← h.isCodePath_iff q x]
    constructor
    · exact fun hm => ⟨code_ne_nil hm, path_of_mem_codes hT hm⟩
    · rintro ⟨-, c, hpath, hk, rfl⟩
      exact mem_codes_of_path hnil hT hpath hk
  have hsize : (CodeTree.node l r).size ≤ 511 := by
    have hsub : (CodeTree.node l r).paths ⊆ S := fun q hq => by
      obtain ⟨d, hd⟩ := path_of_mem_paths hT hq
      exact List.mem_of_getElem? ((h.spelled.isPath_iff q [] 0#9 d h.spelled.root).1 hd).1
    calc (CodeTree.node l r).size = (CodeTree.node l r).paths.length := (length_paths _).symm
      _ ≤ S.length := (List.subperm_of_subset (nodup_paths _) hsub).length_le
      _ = k := h.spelled.len
      _ ≤ 511 := h.spelled.room
  have hsymbols : ((CodeTree.node l r).codes.map Prod.fst).Nodup := by
    refine List.Nodup.map_on ?_ (List.Nodup.of_map _ (nodup_codes _))
    rintro ⟨x, p⟩ hp ⟨y, q⟩ hq rfl
    rw [← ((hcodes x p).1 hp).2, ← ((hcodes x q).1 hq).2]
  exact ⟨_, hT, ⟨hsize, by simpa using hheight, hsymbols, by omega⟩, hcodes⟩

end RebuiltTree

/-! The entry GEN writes back. -/

/-- The entry of an entry's own codeword has its LEN (R153). -/
theorem len_ofPath_codeword (e : CodeEntry) : (CodeEntry.ofPath e.codeword).len = e.len := by
  simp [CodeEntry.ofPath]

/-- The entry of an entry's own codeword has its codeword bits below LEN, and 0 from LEN on (R153). -/
theorem getLsbD_ofPath_codeword (e : CodeEntry) (j : Nat) :
    (CodeEntry.ofPath e.codeword).cw.getLsbD j = (decide (j < e.len.toNat) && e.cw.getLsbD j) := by
  have hlen := e.len.isLt
  rw [CodeEntry.ofPath, getLsbD_packBits]
  by_cases hj : j < e.len.toNat
  · have hj' : j < e.codeword.length := by rwa [length_codeword]
    rw [List.getD_eq_getElem _ _ hj', getElem_codeword e j hj', decide_eq_true (show j < 256 by omega), decide_eq_true hj]
  · rw [List.getD_eq_default _ _ (by rw [length_codeword]; omega), decide_eq_false hj, Bool.and_false, Bool.false_and]

/-! Tables that have a tree, and the first entry at fault. -/

/-- A table has a tree exactly when some entry is valid and no entry is at fault (R200 to R202). -/
theorem rebuildTree_ok_iff (codeAt : Symbol → CodeEntry) :
    (∃ m, rebuildTree codeAt = .ok (m, { valid := true, root := 0#9 })) ↔
      (∃ x, (codeAt x).valid = true) ∧ FitsTree codeAt := by
  constructor
  · rintro ⟨m, hm⟩
    obtain ⟨-, hvalid, hlen, -⟩ := rebuildTree_ok hm
    obtain ⟨W, S, k, h⟩ := rebuilt_of_rebuildTree hm
    have hword : ∀ x, (codeAt x).usable = true → (x, (codeAt x).codeword) ∈ W := fun x hu => (h.words x _).2 ⟨hu, rfl⟩
    refine ⟨hvalid, hlen, fun x y hx hy hne hpq => hne (h.spelled.eq_of_begins (hword x hx) (hword y hy) hpq), ?_⟩
    have hsub : tablePrefixes codeAt ⊆ S := fun q hq => by
      obtain ⟨y, hv, hqy⟩ := mem_tablePrefixes.1 hq
      exact (h.paths q).2 (.inr ⟨y, _, hword y (CodeEntry.usable_of_len_ne hv (hlen y hv)), hqy⟩)
    calc (tablePrefixes codeAt).length ≤ S.length := (List.subperm_of_subset (List.nodup_dedup _) hsub).length_le
      _ = k := h.spelled.len
      _ ≤ 511 := h.spelled.room
  · rintro ⟨hvalid, hlen, hpf, hcap⟩
    exact rebuildTree_ok_of hvalid hlen hpf fun S hn hS => paths_le_of_fits hcap hn hS

/-- What stands in the way of the codeword of `x`: a usable entry of a lower symbol whose codeword begins it, or begins with
it (R201). -/
def ConflictBelow (codeAt : Symbol → CodeEntry) (x : Symbol) : Prop :=
  ∃ y, y.toNat < x.toNat ∧ (codeAt y).usable = true ∧
    ((codeAt y).codeword <+: (codeAt x).codeword ∨ (codeAt x).codeword <+: (codeAt y).codeword)

/-- An entry of the table so far that is valid is usable. -/
theorem usable_of_fits_below {codeAt : Symbol → CodeEntry} {n : Nat} (hf : FitsTree (entriesBelow codeAt n)) {y : Symbol}
    (hy : y.toNat < n) (hyv : (codeAt y).valid = true) : (codeAt y).usable = true := by
  have hlen := hf.1 y
  rw [entriesBelow, if_pos hy] at hlen
  exact CodeEntry.usable_of_len_ne hyv (hlen hyv)

section EntryAtFault

variable {codeAt : Symbol → CodeEntry} {x : Symbol} (hf : FitsTree (entriesBelow codeAt x.toNat))
  (hv : (codeAt x).valid = true)
include hf hv

/-- A valid entry of LEN 0 is at fault (R200). -/
theorem rebuildTree_zeroLength (hl : (codeAt x).len = 0#8) :
    rebuildTree codeAt = .error (.tableInvalid x .zeroLength) := by
  obtain ⟨W, S, t, -, -, -, herr⟩ := rebuildTree_at hf hv
  exact herr _ (by simp [insertEntry, hv, hl])

/-- With a codeword of at least one bit, TBLTREE comes to insert it in a tree that spells the lower symbols' codewords, where
it meets a conflict exactly as the table has one, and an error of the insertion is TBLTREE's (R200, R201). -/
theorem rebuildTree_inserts (hl : (codeAt x).len ≠ 0#8) :
    ∃ W S t, Spelled W S t ∧ PathsOf W S ∧ WordsOf codeAt (fun y => y.toNat < x.toNat) W ∧
      (insertBits x (codeAt x).codeword 0#9 t = .error (.tableInvalid x .prefixConflict) ↔ ConflictBelow codeAt x) ∧
      ∀ e, insertBits x (codeAt x).codeword 0#9 t = .error e → rebuildTree codeAt = .error e := by
  obtain ⟨W, S, t, hspelled, hpaths, hwords, herr⟩ := rebuildTree_at hf hv
  have hinsert : insertEntry x (codeAt x) t = insertBits x (codeAt x).codeword 0#9 t := by simp [insertEntry, hv, hl]
  rw [hinsert] at herr
  refine ⟨W, S, t, hspelled, hpaths, hwords, ?_, herr⟩
  have hne := codeword_ne_nil hl
  rw [insertBits_conflict_iff x _ [] 0#9 t W S hne hspelled hspelled.root fun y hy => (hspelled.word y [] hy).2.1 rfl,
    List.nil_append, hpaths]
  constructor
  · rintro ((hnil | ⟨y, u, hy, hxy⟩) | ⟨y, u, hy, -, hyx⟩)
    · exact absurd hnil hne
    · obtain ⟨hlt, hyv, rfl⟩ := (hwords y u).1 hy
      exact ⟨y, hlt, usable_of_fits_below hf hlt hyv, .inr hxy⟩
    · obtain ⟨hlt, hyv, rfl⟩ := (hwords y u).1 hy
      exact ⟨y, hlt, usable_of_fits_below hf hlt hyv, .inl hyx⟩
  · rintro ⟨y, hlt, hyu, hc⟩
    have hy : (y, (codeAt y).codeword) ∈ W := (hwords y _).2 ⟨hlt, CodeEntry.valid_of_usable hyu, rfl⟩
    rcases hc with hyx | hxy
    · exact .inr ⟨y, _, hy, List.nil_prefix, hyx⟩
    · exact .inl (.inr ⟨y, _, hy, hxy⟩)

/-- A codeword that a lower symbol's begins, or that begins one, is at fault (R201). -/
theorem rebuildTree_conflict (hl : (codeAt x).len ≠ 0#8) (hc : ConflictBelow codeAt x) :
    rebuildTree codeAt = .error (.tableInvalid x .prefixConflict) := by
  obtain ⟨W, S, t, -, -, -, hconflict, herr⟩ := rebuildTree_inserts hf hv hl
  exact herr _ (hconflict.2 hc)

/-- A codeword that makes the tree need more than 511 nodes is at fault (R202): inserting it cannot have succeeded, since the
paths are at most 511. -/
theorem rebuildTree_tooManyNodes (hl : (codeAt x).len ≠ 0#8) (hc : ¬ ConflictBelow codeAt x)
    (hmany : 511 < (tablePrefixes (entriesBelow codeAt (x.toNat + 1))).length) :
    rebuildTree codeAt = .error (.tableInvalid x .tooManyNodes) := by
  obtain ⟨W, S, t, hspelled, hpaths, hwords, hconflict, herr⟩ := rebuildTree_inserts hf hv hl
  cases hb : insertBits x (codeAt x).codeword 0#9 t with
  | error e =>
    rcases insertBits_error x _ _ _ _ hb with rfl | rfl
    · exact absurd (hconflict.1 hb) hc
    · exact herr _ hb
  | ok t' =>
    obtain ⟨S', hspelled', hS'⟩ := (insertBits_spec x _ [] 0#9 t W S (codeword_ne_nil hl) hspelled hspelled.root
      fun y hy => (hspelled.word y [] hy).2.1 rfl).1 t' hb
    have hsub : tablePrefixes (entriesBelow codeAt (x.toNat + 1)) ⊆ S' := fun q hq => by
      obtain ⟨y, hyv, hqy⟩ := mem_tablePrefixes.1 hq
      have hy : y.toNat < x.toNat + 1 := by
        by_contra hge
        rw [entriesBelow, if_neg hge] at hyv
        cases hyv
      rw [entriesBelow, if_pos hy] at hyv hqy
      rw [hS', hpaths]
      by_cases hyx : y = x
      · subst hyx
        exact .inr ⟨List.nil_prefix, hqy⟩
      · have hlt : y.toNat < x.toNat := by
          have : y.toNat ≠ x.toNat := fun he => hyx (BitVec.eq_of_toNat_eq he)
          omega
        exact .inl (.inr ⟨y, _, (hwords y _).2 ⟨hlt, hyv, rfl⟩, hqy⟩)
    have hle : (tablePrefixes (entriesBelow codeAt (x.toNat + 1))).length ≤ 511 :=
      calc _ ≤ S'.length := (List.subperm_of_subset (List.nodup_dedup _) hsub).length_le
        _ = t'.free := hspelled'.len
        _ ≤ 511 := hspelled'.room
    omega

end EntryAtFault

/-! DEC against greedy matching. -/

/-- The cursor's outcome at the end of the stream: the symbols, when it is at the root (R194, R195). -/
theorem decodeStream_ok_iff {s : State} {out : List Symbol} (hv : s.tree.valid = true)
    (hr : rootUsable s.nodeAt s.tree.root = true) (hcap : s.bitLen.toNat ≤ 32768) :
    decodeStream s.bitLen s.streamBits s.tree s.nodeAt = .ok out ↔
      ∃ d, decodeBits s.nodeAt s.tree.root (s.streamBits s.bitLen.toNat) 0 { cur := s.tree.root, depth := 0, out := [] } = .ok d ∧
        d.depth = 0 ∧ d.out = out := by
  simp only [decodeStream, hv, hr, Config.bitbufCap_eq, Nat.not_lt.2 hcap, Bool.not_true, Bool.false_eq_true, if_false]
  cases decodeBits s.nodeAt s.tree.root (s.streamBits s.bitLen.toNat) 0 { cur := s.tree.root, depth := 0, out := [] } with
  | error e => simp
  | ok d => by_cases hd : d.depth = 0 <;> simp [hd]

/-- DEC ends without error with the symbols `out` exactly when it computes them (R195). -/
theorem exec_dec_emits_iff {s : State} {out : List Symbol} (hout : out.length ≤ 4096) :
    (∃ u, exec .dec s = .next u ∧ u.errcode = .ok ∧ u.symLen.toNat = out.length ∧ u.symbols out.length = out) ↔
      decodeStream s.bitLen s.streamBits s.tree s.nodeAt = .ok out := by
  have hlength : ∀ l : List Symbol, l.length ≤ 4096 → (BitVec.ofNat 32 l.length).toNat = l.length := fun l hl =>
    (BitVec.toNat_ofNat _ 32).trans (Nat.mod_eq_of_lt (by omega))
  constructor
  · rintro ⟨u, hu, hok, hlen, hsym⟩
    obtain ⟨out', hd, rfl⟩ | ⟨e, hcode, -, rfl⟩ := exec_dec_cases hu
    · have hlen' : out'.length = out.length := (hlength out' (decodeStream_length hd)).symm.trans hlen
      rw [← hlen', symbols_withSymbols] at hsym
      rw [hd, hsym]
    · exact absurd hok hcode
  · intro hd
    exact ⟨_, exec_dec_ok hd, rfl, hlength out hout, symbols_withSymbols s out _⟩

/-- Greedy matching that can match nothing any more ends without an answer (R197). -/
theorem greedyDecode_dead {codeAt : Symbol → CodeEntry} :
    ∀ (bs q : List Bool), q ≠ [] → (∀ r, r ≠ [] → matchCode codeAt (q ++ r) = none) → greedyDecode codeAt q bs = none
  | [], q, hq, _ => by rw [greedyDecode, if_neg hq]
  | b :: bs, q, _, h => by
    rw [greedyDecode, h [b] (by simp)]
    exact greedyDecode_dead bs (q ++ [b]) (by simp) fun r _ => by
      rw [List.append_assoc]
      exact h _ (by simp)

section GreedyMatching

variable {codeAt : Symbol → CodeEntry} {m : Memory Node} {W : List (Symbol × List Bool)} {S : List (List Bool)} {k : Nat}
  (h : Rebuilt codeAt m W S k)
include h

theorem Rebuilt.matchCode_eq_none_iff (q : List Bool) : matchCode codeAt q = none ↔ ∀ x, (x, q) ∉ W := by
  simp [matchCode, h.words]

theorem Rebuilt.matchCode_eq_some {x : Symbol} {q : List Bool} (hx : (x, q) ∈ W) : matchCode codeAt q = some x := by
  cases hm : matchCode codeAt q with
  | none => exact absurd hx ((h.matchCode_eq_none_iff q).1 hm x)
  | some y =>
    have hy : (y, q) ∈ W := by
      have := List.find?_some hm
      rw [Bool.and_eq_true, beq_iff_eq] at this
      exact (h.words y q).2 this
    rw [h.spelled.same y x q hy hx]

/-- What a stream bit does to DEC at the node with path `q`, and to greedy matching with buffer `q`: it leads nowhere and
nothing can match any more; or to a leaf, whose symbol matches; or one INTERNAL node deeper, and nothing matches yet (R191,
R197). -/
theorem Rebuilt.bit_cases {cur : NodeIdx} {q : List Bool} (hcur : S[cur.toNat]? = some q) (hq : ∀ x, (x, q) ∉ W) (b : Bool) :
    (childAt (nodeIn m) cur b = Config.nil ∧ ∀ r, matchCode codeAt (q ++ [b] ++ r) = none) ∨
      (childAt (nodeIn m) cur b ≠ Config.nil ∧ (nodeIn m (childAt (nodeIn m) cur b)).kind = .leaf ∧
        matchCode codeAt (q ++ [b]) = some (nodeIn m (childAt (nodeIn m) cur b)).sym) ∨
      (childAt (nodeIn m) cur b ≠ Config.nil ∧ (nodeIn m (childAt (nodeIn m) cur b)).kind = .internal ∧
        q.length + 1 ≠ 255 ∧ matchCode codeAt (q ++ [b]) = none ∧ S[(childAt (nodeIn m) cur b).toNat]? = some (q ++ [b]) ∧
        ∀ x, (x, q ++ [b]) ∉ W) := by
  have hchild : childAt (nodeIn m) cur b = childOf m cur b := rfl
  rw [hchild]
  rcases h.spelled.child hcur hq b with ⟨hS, hnil⟩ | ⟨hS, hnn, hget⟩
  · refine .inl ⟨hnil, fun r => (h.matchCode_eq_none_iff _).2 fun x hx => hS ?_⟩
    exact h.spelled.prefix_mem r _ (h.spelled.word x _ hx).1
  · refine .inr ?_
    by_cases hw : ∃ x, (x, q ++ [b]) ∈ W
    · obtain ⟨x, hx⟩ := hw
      have hleaf : nodeIn m (childOf m cur b) = leafNode x 0#32 := h.spelled.leaf _ _ x hget hx
      refine .inl ⟨hnn, by rw [hleaf]; rfl, ?_⟩
      rw [hleaf]
      exact h.matchCode_eq_some hx
    · have hw' : ∀ x, (x, q ++ [b]) ∉ W := fun x hx => hw ⟨x, hx⟩
      refine .inr ⟨hnn, (h.spelled.inner _ _ hget hw').1, ?_, (h.matchCode_eq_none_iff _).2 hw', hget, hw'⟩
      rcases (h.paths _).1 hS with hnil | ⟨y, u, hy, hqu⟩
      · simp at hnil
      · have hle := h.length_word_le hy
        have hlt : (q ++ [b]).length < u.length :=
          lt_of_le_of_ne hqu.length_le fun he => hw' y (hqu.eq_of_length he ▸ hy)
        simp only [List.length_append, List.length_singleton] at hlt
        omega

/-- What DEC emits before it is at the root at the end of the stream, greedy matching emits (R197). -/
theorem Rebuilt.greedyDecode_of_decodeBits :
    ∀ (bs : List Bool) (i : Nat) (cur : NodeIdx) (q : List Bool) (out : List Symbol) (d : Cursor),
      S[cur.toNat]? = some q → (∀ x, (x, q) ∉ W) →
      decodeBits (nodeIn m) 0#9 bs i { cur := cur, depth := q.length, out := out } = .ok d → d.depth = 0 →
      ∃ more, d.out = out ++ more ∧ greedyDecode codeAt q bs = some more
  | [], _, _, q, out, d, _, _, hd, hdepth => by
    cases hd
    exact ⟨[], by simp, by rw [greedyDecode, if_pos (List.length_eq_zero_iff.1 hdepth)]⟩
  | b :: bs, i, cur, q, out, d, hcur, hq, hd, hdepth => by
    rw [decodeBits] at hd
    rcases h.bit_cases hcur hq b with ⟨hnil, -⟩ | ⟨hnn, hk, hmatch⟩ | ⟨hnn, hk, hdeep, hmatch, hget, hq'⟩
    · rw [decodeBit_nil hnil] at hd
      cases hd
    · by_cases hfull : out.length = 4096
      · rw [decodeBit_overflow hnn hk hfull] at hd
        cases hd
      · rw [decodeBit_leaf hnn hk hfull] at hd
        obtain ⟨more, hmore, hgreedy⟩ := Rebuilt.greedyDecode_of_decodeBits bs (i + 1) 0#9 [] _ d h.spelled.root
          h.root_not_word hd hdepth
        exact ⟨(nodeIn m (childAt (nodeIn m) cur b)).sym :: more, by rw [hmore]; simp, by rw [greedyDecode, hmatch, hgreedy]; rfl⟩
    · rw [decodeBit_internal hnn hk hdeep] at hd
      obtain ⟨more, hmore, hgreedy⟩ := Rebuilt.greedyDecode_of_decodeBits bs (i + 1) _ (q ++ [b]) out d hget hq'
        (by rw [List.length_append, List.length_singleton]; exact hd) hdepth
      exact ⟨more, hmore, by rw [greedyDecode, hmatch, hgreedy]⟩

/-- What greedy matching emits, up to 4096 symbols in all, DEC emits and is then at the root (R197). -/
theorem Rebuilt.decodeBits_of_greedyDecode :
    ∀ (bs : List Bool) (i : Nat) (cur : NodeIdx) (q : List Bool) (out more : List Symbol),
      S[cur.toNat]? = some q → (∀ x, (x, q) ∉ W) → out.length + more.length ≤ 4096 → greedyDecode codeAt q bs = some more →
      ∃ d, decodeBits (nodeIn m) 0#9 bs i { cur := cur, depth := q.length, out := out } = .ok d ∧ d.depth = 0 ∧
        d.out = out ++ more
  | [], _, cur, q, out, more, _, _, _, hg => by
    rw [greedyDecode] at hg
    split at hg
    · rename_i hnil
      cases hg
      exact ⟨_, rfl, by rw [hnil]; rfl, by simp⟩
    · cases hg
  | b :: bs, i, cur, q, out, more, hcur, hq, hlen, hg => by
    rw [greedyDecode] at hg
    rw [decodeBits]
    rcases h.bit_cases hcur hq b with ⟨-, hdead⟩ | ⟨hnn, hk, hmatch⟩ | ⟨hnn, hk, hdeep, hmatch, hget, hq'⟩
    · have hnone : matchCode codeAt (q ++ [b]) = none := by simpa using hdead []
      rw [hnone, greedyDecode_dead bs (q ++ [b]) (by simp) fun r _ => hdead r] at hg
      cases hg
    · rw [hmatch] at hg
      obtain ⟨more', hg', rfl⟩ := Option.map_eq_some_iff.1 hg
      rw [List.length_cons] at hlen
      rw [decodeBit_leaf hnn hk (show out.length ≠ 4096 by omega)]
      obtain ⟨d, hd, hdepth, hout⟩ := Rebuilt.decodeBits_of_greedyDecode bs (i + 1) 0#9 []
        (out ++ [(nodeIn m (childAt (nodeIn m) cur b)).sym]) more' h.spelled.root h.root_not_word
        (by rw [List.length_append, List.length_singleton]; omega) hg'
      exact ⟨d, hd, hdepth, by rw [hout]; simp⟩
    · rw [hmatch] at hg
      rw [decodeBit_internal hnn hk hdeep]
      obtain ⟨d, hd, hdepth, hout⟩ := Rebuilt.decodeBits_of_greedyDecode bs (i + 1) _ (q ++ [b]) out more hget hq' hlen hg
      rw [List.length_append, List.length_singleton] at hd
      exact ⟨d, hd, hdepth, hout⟩

end GreedyMatching

/-! ENC. -/

/-- ENC ends without error only on at most 4096 symbols with usable entries and at most 32768 bits in all (R170). -/
theorem exec_enc_success {s t : State} (h : exec .enc s = .next t) (hok : t.errcode = .ok) :
    s.symLen.toNat ≤ 4096 ∧ (∀ k < s.symLen.toNat, (s.codeAt (s.symbufAt k)).usable = true) ∧
      (encodeEmit s.codeAt (s.symbols s.symLen.toNat)).length ≤ 32768 := by
  obtain ⟨stream, he, -⟩ | ⟨e, hcode, -, rfl⟩ := exec_enc_cases h
  · obtain ⟨hn, hu, rfl, hl⟩ := encodeStream_ok he
    exact ⟨hn, fun k hk => hu _ (State.mem_symbols.2 ⟨k, hk, rfl⟩), hl⟩
  · exact absurd hok hcode

end Sys2Proof.Machine

namespace Sys2Proof.Proofs

open Sys2Proof.Machine

/-- Settles O51: the rebuilt tree is one GEN accepts, and the path to each leaf is the codeword its entry had. -/
theorem tbltreeThenGenWritesTableBack : Obligations.TbltreeThenGenWritesTableBack := by
  intro s t h hok
  obtain ⟨m, hm, rfl⟩ := exec_tbltree_success h hok
  obtain ⟨W, S, k, hrebuilt⟩ := rebuilt_of_rebuildTree hm
  obtain ⟨T, hT, ha, hcodes⟩ := hrebuilt.exists_tree
  refine ⟨_, exec_gen_of_holdsTree ⟨rfl, hT⟩ ha, rfl, fun x hu => ?usable, fun x hu => ?other⟩
  case usable =>
    have hentry := tableEntry_of_mem ha ((hcodes x _).2 ⟨hu, rfl⟩)
    rw [State.codeAt, State.complete_code, State.withCode_code, hentry]
    refine ⟨rfl, len_ofPath_codeword _, fun j hj => ?_, fun j hj => ?_⟩
    · rw [getLsbD_ofPath_codeword, decide_eq_true hj, Bool.true_and]
    · rw [getLsbD_ofPath_codeword, decide_eq_false (Nat.not_lt.2 hj), Bool.false_and]
  case other =>
    refine tableEntry_of_not_mem ha fun q hq => ?_
    rw [((hcodes x q).1 hq).1] at hu
    cases hu

/-- Settles O53: ENC without error means that every symbol has a usable entry, whose codeword is a path of the tree GEN
walked. -/
theorem decodeRecoversEncodedSymbols : Obligations.DecodeRecoversEncodedSymbols := by
  intro s s1 s2 hgen hok1 henc hok2
  obtain ⟨T, hT, ha, rfl⟩ := exec_gen_success hgen hok1
  obtain ⟨hn, hu, hl⟩ := exec_enc_success henc hok2
  obtain ⟨m, n, henc', hstream⟩ := exec_enc_holdsStream hn hu hl
  cases henc.symm.trans henc'
  exact exec_dec_recovers (u := s) (spellsTable_of_holdsTree hT ha) hn hu hstream

/-- Settles O49: the insertions succeed exactly when no entry is at fault, and stop at the first that is. -/
theorem tbltreeSucceedsExactlyOnPrefixCodes : Obligations.TbltreeSucceedsExactlyOnPrefixCodes := by
  refine ⟨fun s => ?_, fun s x hf hv => ⟨fun hl => ?_, fun hl hc => ?_, fun hl hc hmany => ?_⟩⟩
  · rw [← rebuildTree_ok_iff]
    constructor
    · rintro ⟨t, h, hok⟩
      obtain ⟨m, hm, -⟩ := exec_tbltree_success h hok
      exact ⟨m, hm⟩
    · rintro ⟨m, hm⟩
      exact ⟨_, exec_tbltree_ok hm, rfl⟩
  · exact exec_tbltree_error (rebuildTree_zeroLength hf hv hl)
  · exact exec_tbltree_error (rebuildTree_conflict hf hv hl hc)
  · exact exec_tbltree_error (rebuildTree_tooManyNodes hf hv hl hc hmany)

/-- Settles O50: the words of the rebuilt tree are the usable entries' codewords. -/
theorem tbltreeTreeSpellsTable : Obligations.TbltreeTreeSpellsTable := by
  intro s hvalid hf
  obtain ⟨m, hm⟩ := (rebuildTree_ok_iff s.codeAt).2 ⟨hvalid, hf⟩
  obtain ⟨W, S, k, hrebuilt⟩ := rebuilt_of_rebuildTree hm
  exact ⟨_, exec_tbltree_ok hm, rfl, rfl, hrebuilt.isCodePath_iff, hrebuilt.spelled.weight_eq_zero⟩

/-- Settles O52: bit by bit, DEC's cursor stands at the node whose path is the buffer of greedy matching. -/
theorem decMatchesGreedyMatching : Obligations.DecMatchesGreedyMatching := by
  intro s t out h hok hcap hout
  obtain ⟨m, hm, rfl⟩ := exec_tbltree_success h hok
  obtain ⟨W, S, k, hrebuilt⟩ := rebuilt_of_rebuildTree hm
  have hroot : rootUsable (nodeIn m) 0#9 = true := by simp [rootUsable, hrebuilt.root_internal, Config.nil]
  rw [exec_dec_emits_iff hout,
    decodeStream_ok_iff (s := (s.withTree m { valid := true, root := 0#9 }).complete) rfl hroot hcap]
  constructor
  · rintro ⟨d, hd, hdepth, rfl⟩
    obtain ⟨more, hmore, hgreedy⟩ := hrebuilt.greedyDecode_of_decodeBits _ 0 0#9 [] [] d hrebuilt.spelled.root
      hrebuilt.root_not_word hd hdepth
    rw [hmore]
    exact hgreedy
  · exact hrebuilt.decodeBits_of_greedyDecode _ 0 0#9 [] [] out hrebuilt.spelled.root hrebuilt.root_not_word
      (by simpa using hout)

end Sys2Proof.Proofs

/-! PROOFS. The register map, both ways (R20 to R39), and which offsets are reserved (R64). -/

namespace Sys2Proof.Machine

/-! Which word an offset names, region by region. -/

/-- The offset lies in one of the five apertures (R31, R34, R36, R37, R39). -/
def InAperture (addr : Nat) : Prop :=
  (0x01000 ≤ addr ∧ addr < 0x01400) ∨ (0x04000 ≤ addr ∧ addr < 0x06000) ∨ (0x08000 ≤ addr ∧ addr < 0x0C000) ∨
    (0x10000 ≤ addr ∧ addr < 0x14000) ∨ (0x18000 ≤ addr ∧ addr < 0x19000)

theorem locOf_register {addr : Nat} (h : addr < 0x00030) : locOf addr = registerAt (addr / 4) := if_pos h

theorem locOf_in_freq {addr : Nat} (hlo : 0x01000 ≤ addr) (hhi : addr < 0x01400) :
    locOf addr = .freq (BitVec.ofNat 8 ((addr - 0x01000) / 4)) := by
  rw [locOf, if_neg (by omega), if_neg (by omega), if_pos hhi]

theorem locOf_in_node {addr : Nat} (hlo : 0x04000 ≤ addr) (hhi : addr < 0x06000) :
    locOf addr = .node (BitVec.ofNat 9 ((addr - 0x04000) / 16)) (Fin.ofNat 4 (addr / 4)) := by
  rw [locOf, if_neg (by omega), if_neg (by omega), if_neg (by omega), if_neg (by omega), if_pos hhi]

theorem locOf_in_code {addr : Nat} (hlo : 0x08000 ≤ addr) (hhi : addr < 0x0C000) :
    locOf addr = .code (BitVec.ofNat 8 ((addr - 0x08000) / 64)) (Fin.ofNat 16 (addr / 4)) := by
  rw [locOf, if_neg (by omega), if_neg (by omega), if_neg (by omega), if_neg (by omega), if_neg (by omega),
    if_neg (by omega), if_pos hhi]

theorem locOf_in_symbuf {addr : Nat} (hlo : 0x10000 ≤ addr) (hhi : addr < 0x14000) :
    locOf addr = .symbuf (Fin.ofNat 4096 ((addr - 0x10000) / 4)) := by
  rw [locOf, if_neg (by omega), if_neg (by omega), if_neg (by omega), if_neg (by omega), if_neg (by omega),
    if_neg (by omega), if_neg (by omega), if_neg (by omega), if_pos hhi]

theorem locOf_in_bitbuf {addr : Nat} (hlo : 0x18000 ≤ addr) (hhi : addr < 0x19000) :
    locOf addr = .bitbuf (Fin.ofNat 1024 ((addr - 0x18000) / 4)) := by
  rw [locOf, if_neg (by omega), if_neg (by omega), if_neg (by omega), if_neg (by omega), if_neg (by omega),
    if_neg (by omega), if_neg (by omega), if_neg (by omega), if_neg (by omega), if_neg (by omega), if_pos hhi]

/-- Between the apertures every offset is reserved (R64). -/
theorem locOf_outside {addr : Nat} (hreg : 0x00030 ≤ addr) (h : ¬ InAperture addr) : locOf addr = .reserved addr := by
  unfold InAperture at h
  rw [locOf, if_neg (Nat.not_lt.2 hreg)]
  split_ifs
  any_goals rfl
  all_goals omega

/-! The offset of each word. -/

theorem offset_registerAt : ∀ n < 12, (registerAt n).offset = 4 * n := by decide

/-- The offset of the word that an aligned offset names is that offset. -/
theorem offset_locOf {addr : Nat} (ha : addr % 4 = 0) : (locOf addr).offset = addr := by
  by_cases hreg : addr < 0x00030
  · rw [locOf_register hreg, offset_registerAt _ (by omega)]
    omega
  by_cases hap : InAperture addr
  · obtain ⟨hlo, hhi⟩ | ⟨hlo, hhi⟩ | ⟨hlo, hhi⟩ | ⟨hlo, hhi⟩ | ⟨hlo, hhi⟩ := hap
    · rw [locOf_in_freq hlo hhi]
      simp only [Loc.offset, BitVec.toNat_ofNat]
      omega
    · rw [locOf_in_node hlo hhi]
      simp only [Loc.offset, BitVec.toNat_ofNat, Fin.ofNat]
      omega
    · rw [locOf_in_code hlo hhi]
      simp only [Loc.offset, BitVec.toNat_ofNat, Fin.ofNat]
      omega
    · rw [locOf_in_symbuf hlo hhi]
      simp only [Loc.offset, Fin.ofNat]
      omega
    · rw [locOf_in_bitbuf hlo hhi]
      simp only [Loc.offset, Fin.ofNat]
      omega
  · rw [locOf_outside (Nat.le_of_not_lt hreg) hap]
    rfl

theorem locOf_freq (x : Symbol) : locOf (0x01000 + 4 * x.toNat) = .freq x := by
  have hx := x.isLt
  rw [locOf_in_freq (by omega) (by omega), show (0x01000 + 4 * x.toNat - 0x01000) / 4 = x.toNat by omega,
    BitVec.ofNat_toNat, BitVec.setWidth_eq]

theorem locOf_node (i : NodeIdx) (k : Fin 4) : locOf (0x04000 + 16 * i.toNat + 4 * k.val) = .node i k := by
  have hi := i.isLt
  have hk := k.isLt
  have hword : Fin.ofNat 4 ((0x04000 + 16 * i.toNat + 4 * k.val) / 4) = k := Fin.ext (by simp only [Fin.ofNat]; omega)
  rw [locOf_in_node (by omega) (by omega), hword,
    show (0x04000 + 16 * i.toNat + 4 * k.val - 0x04000) / 16 = i.toNat by omega, BitVec.ofNat_toNat, BitVec.setWidth_eq]

theorem locOf_code (x : Symbol) (k : Fin 16) : locOf (0x08000 + 64 * x.toNat + 4 * k.val) = .code x k := by
  have hx := x.isLt
  have hk := k.isLt
  have hword : Fin.ofNat 16 ((0x08000 + 64 * x.toNat + 4 * k.val) / 4) = k := Fin.ext (by simp only [Fin.ofNat]; omega)
  rw [locOf_in_code (by omega) (by omega), hword,
    show (0x08000 + 64 * x.toNat + 4 * k.val - 0x08000) / 64 = x.toNat by omega, BitVec.ofNat_toNat, BitVec.setWidth_eq]

theorem locOf_symbuf (i : Fin 4096) : locOf (0x10000 + 4 * i.val) = .symbuf i := by
  have hi := i.isLt
  rw [locOf_in_symbuf (by omega) (by omega)]
  exact congrArg Loc.symbuf (Fin.ext (by simp only [Fin.ofNat]; omega))

theorem locOf_bitbuf (w : Fin 1024) : locOf (0x18000 + 4 * w.val) = .bitbuf w := by
  have hw := w.isLt
  rw [locOf_in_bitbuf (by omega) (by omega)]
  exact congrArg Loc.bitbuf (Fin.ext (by simp only [Fin.ofNat]; omega))

/-- Every register and aperture word is named by its own offset. -/
theorem locOf_offset {l : Loc} (h : ∀ a, l ≠ .reserved a) : locOf l.offset = l := by
  cases l with
  | freq x => exact locOf_freq x
  | node i k => exact locOf_node i k
  | code x k => exact locOf_code x k
  | symbuf i => exact locOf_symbuf i
  | bitbuf w => exact locOf_bitbuf w
  | reserved a => exact absurd rfl (h a)
  | _ => rfl

/-- The offset of a register or aperture word is word aligned and in the window (R60, R62). -/
theorem offset_aligned {l : Loc} (h : ∀ a, l ≠ .reserved a) : l.offset % 4 = 0 ∧ l.offset < 0x20000 := by
  cases l with
  | freq x => have := x.isLt; simp only [Loc.offset]; omega
  | node i k => have := i.isLt; simp only [Loc.offset]; omega
  | code x k => have := x.isLt; simp only [Loc.offset]; omega
  | symbuf i => simp only [Loc.offset]; omega
  | bitbuf w => simp only [Loc.offset]; omega
  | reserved a => exact absurd rfl (h a)
  | _ => exact ⟨rfl, by decide⟩

/-- From 0x030 on, what lies in no aperture is reserved and nothing else is (R64). -/
theorem locOf_reserved_iff {addr : Nat} (hreg : 0x00030 ≤ addr) :
    (∃ a, locOf addr = .reserved a) ↔ ¬ InAperture addr := by
  refine ⟨?_, fun h => ⟨addr, locOf_outside hreg h⟩⟩
  rintro ⟨a, ha⟩ (⟨hlo, hhi⟩ | ⟨hlo, hhi⟩ | ⟨hlo, hhi⟩ | ⟨hlo, hhi⟩ | ⟨hlo, hhi⟩)
  · cases (locOf_in_freq hlo hhi).symm.trans ha
  · cases (locOf_in_node hlo hhi).symm.trans ha
  · cases (locOf_in_code hlo hhi).symm.trans ha
  · cases (locOf_in_symbuf hlo hhi).symm.trans ha
  · cases (locOf_in_bitbuf hlo hhi).symm.trans ha

end Sys2Proof.Machine

namespace Sys2Proof.Proofs

open Sys2Proof.Machine

/-- Settles O3, from the region each offset lies in. -/
theorem registerMapRoundTrip : Obligations.RegisterMapRoundTrip := by
  refine ⟨fun _ ha _ => offset_locOf ha, fun l hl => ⟨locOf_offset hl, ?_⟩, ?registers, locOf_freq, locOf_node,
    locOf_code, locOf_symbuf, locOf_bitbuf⟩
  · exact (access_iff _ _).2 ⟨rfl, offset_aligned hl⟩
  case registers => exact ⟨rfl, rfl, rfl, rfl, rfl, rfl, rfl, rfl, rfl, rfl, rfl, rfl⟩

end Sys2Proof.Proofs

/-! PROOFS. Host accesses: reads (R61, R65, R69), writes that are ignored (R64), writes to CMD, CTRL and STATUS (R24, R26,
R110), and the STATUS word (R26). -/

namespace Sys2Proof.Machine

/-! One admitted access. -/

theorem hostRead_admitted {s : State} {addr : Nat} (hr : s.resetHeld = 0) (ha : addr % 4 = 0) (hlt : addr < 0x20000) :
    hostRead addr 4 s = .next (readLoc addr (locOf addr) s) := by
  simp only [hostRead, accessRefusal_word hr ha hlt]

section Admitted

variable {s : State} {addr : Nat} {rest : List Input} (hr : s.resetHeld = 0) (ha : addr % 4 = 0) (hlt : addr < 0x20000)
include hr ha hlt

theorem step_read (h : s.inputs = .read addr 4 :: rest) :
    step s = .next (readLoc addr (locOf addr) (s.withInputs rest)) :=
  (step_of_inputs_cons h).trans (hostRead_admitted (s := s.withInputs rest) hr ha hlt)

theorem step_write {v : Word} (h : s.inputs = .write addr 4 v :: rest) :
    step s = .next (writeLoc (locOf addr) v (s.withInputs rest)) :=
  (step_of_inputs_cons h).trans (hostWrite_admitted (s := s.withInputs rest) v hr ha hlt)

end Admitted

/-- No word's value depends on the schedule (R61). -/
theorem wordAt_withInputs (rest : List Input) (s : State) (l : Loc) : (s.withInputs rest).wordAt l = s.wordAt l := by
  cases l <;> rfl

/-! What a read returns. -/

/-- A read that draws no free value returns the word's value (R61, R64, R69 a). -/
theorem readLoc_current {s : State} {l : Loc} (addr : Nat)
    (h : s.busy = false ∨ readableBusy l = true ∨ isReserved l = true) : readLoc addr l s = s.reply addr (s.wordAt l) := by
  refine if_neg ?_
  rcases h with h | h | h <;> simp [h, -State.busy_eq_isBusy]

/-- A read while BUSY of a word that R69 (a) does not name, and that is not reserved, returns a free value (R69 b). -/
theorem readLoc_free {s : State} {l : Loc} (addr : Nat) (hb : s.busy = true) (hl : readableBusy l = false)
    (hres : isReserved l = false) : readLoc addr l s = s.replyAny addr := by
  simp only [readLoc, hb, hl, hres, Bool.not_false, Bool.and_self, if_true]

theorem isReserved_eq_false {l : Loc} (h : ∀ a, l ≠ .reserved a) : isReserved l = false := by
  cases l with
  | reserved a => exact absurd rfl (h a)
  | _ => rfl

theorem busy_of_idle {s : State} (h : s.engine = .idle) : s.busy = false := by
  rw [State.busy_eq_isBusy, h, Engine.isBusy_idle]

/-! What a write does. -/

/-- A write while IDLE stores the word (R61). -/
theorem writeLoc_idle {s : State} (l : Loc) (v : Word) (h : s.engine = .idle) : writeLoc l v s = s.storeWord v l := by
  simp only [writeLoc, busy_of_idle h, Bool.false_and, Bool.false_eq_true, if_false]

/-- A write to CTRL or STATUS stores the word in either engine state (R69 c). -/
theorem writeLoc_writable {s : State} {l : Loc} (v : Word) (h : writableBusy l = true) : writeLoc l v s = s.storeWord v l := by
  simp only [writeLoc, h, Bool.not_true, Bool.and_false, Bool.false_eq_true, if_false]

/-- RO and reserved words ignore a write (R64). -/
theorem storeWord_ignored {l : Loc} (s : State) (v : Word) (hl : l.stores = false) (hcmd : l ≠ .cmd) (hstatus : l ≠ .status) :
    s.storeWord v l = s := by
  cases l with
  | cmd => exact absurd rfl hcmd
  | status => exact absurd rfl hstatus
  | id | param0 | param1 | param2 | errPos | errAux | reserved => rfl
  | ctrl | tree | symLen | bitLen | freq | node | code | symbuf | bitbuf => cases hl

/-! The STATUS word. -/

/-- ERR is 1 exactly when ERRCODE is not 0, the number of OK alone (R26, R220). -/
theorem err_iff (s : State) : s.err = true ↔ s.errcode ≠ .ok := by
  rw [State.err, bne_iff_ne]
  cases s.errcode <;> decide

/-- The four low bits of the STATUS word (R26). -/
theorem statusWord_flags (s : State) :
    s.statusWord.getLsbD 0 = s.busy ∧ s.statusWord.getLsbD 1 = s.done ∧ s.statusWord.getLsbD 2 = s.err ∧
      s.statusWord.getLsbD 3 = s.overrun := by
  simp only [State.statusWord, BitVec.getLsbD_append]
  simp

/-- The other fields of the STATUS word (R26). -/
theorem statusWord_fields (s : State) :
    s.statusWord.extractLsb' 4 4 = 0#4 ∧ s.statusWord.extractLsb' 8 8 = s.errcode.number ∧
      s.statusWord.extractLsb' 16 8 = s.lastop ∧ s.statusWord.extractLsb' 24 8 = 0#8 := by
  simp (disch := decide) only [State.statusWord, BitVec.extractLsb'_append_eq_of_le, BitVec.extractLsb'_append_eq_of_add_le,
    Nat.reduceSub, BitVec.extractLsb'_eq_self, and_self]

end Sys2Proof.Machine

namespace Sys2Proof.Proofs

open Sys2Proof.Machine

/-- Settles O6: CMD stores by accepting the word. -/
theorem cmdWriteAcceptsWhileIdle : Obligations.CmdWriteAcceptsWhileIdle := by
  intro s v rest hidle hr h
  calc step s = .next (writeLoc (locOf 0x014) v (s.withInputs rest)) := step_write hr rfl (by decide) h
    _ = .next ((s.withInputs rest).storeWord v .cmd) := by
      rw [writeLoc_idle (s := s.withInputs rest) _ v hidle]
      rfl

/-- Settles O12: a read records a reply, be it the word's value or a free one. -/
theorem hostReadHasNoSideEffect : Obligations.HostReadHasNoSideEffect := by
  intro s addr rest h hr ha hlt
  rw [step_read hr ha hlt h]
  obtain he | ⟨-, he⟩ := readLoc_cases addr (locOf addr) (s.withInputs rest)
  · exact ⟨_, _, by rw [he]; rfl⟩
  · exact ⟨_, _, by rw [he]; rfl⟩

/-- Settles O13: such a read draws no free value, and a reserved word is 0. -/
theorem hostReadReturnsWord : Obligations.HostReadReturnsWord := by
  refine ⟨fun s l rest h hr hl hread => ?word, fun s addr rest h hr ha hlt hres => ?reserved⟩
  case word =>
    obtain ⟨ha, hlt⟩ := offset_aligned hl
    rw [step_read hr ha hlt h, locOf_offset hl,
      readLoc_current (s := s.withInputs rest) _ (hread.imp busy_of_idle .inl), wordAt_withInputs]
    rfl
  case reserved =>
    obtain ⟨a, hloc⟩ := hres
    rw [step_read hr ha hlt h, hloc, readLoc_current _ (.inr (.inr rfl))]
    rfl

/-- Settles O14: such a read draws a free value. -/
theorem busyReadReturnsFreeValue : Obligations.BusyReadReturnsFreeValue := by
  intro s c l rest h hr hl hbusy hread
  obtain ⟨ha, hlt⟩ := offset_aligned hl
  have hb : (s.withInputs rest).busy = true := by simp [hbusy]
  rw [step_read hr ha hlt h, locOf_offset hl, readLoc_free _ hb hread (isReserved_eq_false hl)]
  rfl

/-- Settles O17: a word that takes no store, other than CMD and STATUS, ignores a write, and from 0x030 on a word is reserved
exactly when it is in no aperture. -/
theorem readOnlyAndReservedIgnoreWrites : Obligations.ReadOnlyAndReservedIgnoreWrites := by
  refine ⟨fun s addr v rest h hr hidle ha hlt hstores hcmd hstatus => ?ignored, fun s => ⟨rfl, fun a => rfl⟩,
    fun addr _ _ hreg => locOf_reserved_iff hreg⟩
  case ignored =>
    have hne : ∀ l : Loc, addr ≠ l.offset → locOf addr ≠ l := fun l hl he => hl (by rw [← he, offset_locOf ha])
    rw [step_write hr ha hlt h, writeLoc_idle (s := s.withInputs rest) _ v hidle,
      storeWord_ignored _ v hstores (hne .cmd hcmd) (hne .status hstatus)]
    rfl

/-- Settles O19: CTRL and STATUS are the two words that take a write in either engine state. -/
theorem ctrlAndStatusWritesAct : Obligations.CtrlAndStatusWritesAct := by
  refine fun s v rest hr => ⟨fun h => ?ctrl, fun h => ?status⟩
  case ctrl =>
    rw [step_write hr rfl (by decide) h, writeLoc_writable (l := locOf 0x010) v rfl]
    rfl
  case status =>
    rw [step_write hr rfl (by decide) h, writeLoc_writable (l := locOf 0x018) v rfl]
    rfl

/-- Settles O20, field by field of the concatenation that STATUS is. -/
theorem statusWordFields : Obligations.StatusWordFields := by
  intro s
  obtain ⟨hbusy, hdone, herr, hoverrun⟩ := statusWord_flags s
  refine ⟨hbusy, hdone, ?_, hoverrun, statusWord_fields s⟩
  rw [← err_iff, ← herr]
  rfl

end Sys2Proof.Proofs

/-! PROOFS. A word written by the host and read back, and the fields of each word (R24, R29 to R39, R61). -/

namespace Sys2Proof.Machine

/-! The fields of each word. -/

theorem ctrlWord_bit (b : Bool) : (0#31 ++ BitVec.ofBool b).getLsbD 0 = b := by
  simp only [BitVec.getLsbD_append]
  simp

/-- The fields of TREE (R30). -/
theorem TreeReg.word_fields (t : TreeReg) : t.word.getLsbD 31 = t.valid ∧ t.word.extractLsb' 0 9 = t.root := by
  constructor
  · simp only [TreeReg.word, BitVec.getLsbD_append]
    simp
  · rw [TreeReg.word, BitVec.extractLsb'_append_eq_of_add_le (by decide), BitVec.extractLsb'_eq_self]

theorem Kind.bits_inj {k k' : Kind} : k.bits = k'.bits ↔ k = k' :=
  ⟨fun h => by rw [← Kind.ofBits_bits k, h, Kind.ofBits_bits], congrArg Kind.bits⟩

/-- The fields of word 0 of a NODE entry (R34). -/
theorem Node.word_zero_fields (n : Node) :
    (n.word 0).extractLsb' 0 2 = n.kind.bits ∧ (n.word 0).extractLsb' 8 8 = n.sym := by
  simp (disch := decide) only [Node.word, BitVec.extractLsb'_append_eq_of_le, BitVec.extractLsb'_append_eq_of_add_le,
    Nat.reduceSub, BitVec.extractLsb'_eq_self, and_self]

/-- The fields of word 1 of a NODE entry (R34). -/
theorem Node.word_one_fields (n : Node) :
    (n.word 1).extractLsb' 0 9 = n.left ∧ (n.word 1).extractLsb' 16 9 = n.right := by
  simp (disch := decide) only [Node.word, BitVec.extractLsb'_append_eq_of_le, BitVec.extractLsb'_append_eq_of_add_le,
    Nat.reduceSub, BitVec.extractLsb'_eq_self, and_self]

/-- The low byte of word 3 of a NODE entry is the weight's high byte (R34). -/
theorem Node.word_three_byte (n : Node) : (n.word 3).extractLsb' 0 8 = n.weight.extractLsb' 32 8 := by
  rw [Node.word, BitVec.extractLsb'_append_eq_of_add_le (by decide), BitVec.extractLsb'_eq_self]

/-- A weight is its high byte above its low word (R34). -/
theorem Node.weight_halves (n : Node) : n.weight.extractLsb' 32 8 ++ n.weight.extractLsb' 0 32 = n.weight :=
  (BitVec.extractLsb'_append_extractLsb'_eq_extractLsb' rfl).trans BitVec.extractLsb'_eq_self

/-- The fields of word 0 of a CODE entry (R36). -/
theorem CodeEntry.word_zero_fields (e : CodeEntry) :
    (e.word 0).getLsbD 0 = e.valid ∧ (e.word 0).extractLsb' 8 8 = e.len := by
  have hword : e.word 0 = 0#16 ++ e.len ++ 0#7 ++ BitVec.ofBool e.valid := rfl
  rw [hword]
  constructor
  · simp only [BitVec.getLsbD_append]
    simp
  · simp (disch := decide) only [BitVec.extractLsb'_append_eq_of_le, BitVec.extractLsb'_append_eq_of_add_le,
      Nat.reduceSub, BitVec.extractLsb'_eq_self]

/-- Words 1 to 8 of a CODE entry are the codeword field, 32 bits each (R36). -/
theorem CodeEntry.word_cw (e : CodeEntry) {k : Fin 16} (h0 : k.val ≠ 0) (h8 : k.val ≤ 8) :
    e.word k = e.cw.extractLsb' (32 * (k.val - 1)) 32 := by
  rw [CodeEntry.word, if_neg h0, if_pos h8]

/-- Codeword bit `j` is bit `j mod 32` of word `1 + j/32` (R36). -/
theorem CodeEntry.getLsbD_word_cw (e : CodeEntry) {j : Nat} (hj : j < 256) :
    (e.word (Fin.ofNat 16 (1 + j / 32))).getLsbD (j % 32) = e.cw.getLsbD j := by
  have hk : (Fin.ofNat 16 (1 + j / 32)).val = 1 + j / 32 := by simp only [Fin.ofNat]; omega
  rw [CodeEntry.word_cw e (by omega) (by omega), BitVec.getLsbD_extractLsb', decide_eq_true (Nat.mod_lt j (by decide)),
    Bool.true_and, hk, show 32 * (1 + j / 32 - 1) + j % 32 = j by omega]

/-! A word stored with its own value. -/

theorem TreeReg.ofWord_word (t : TreeReg) : TreeReg.ofWord t.word = t := by
  obtain ⟨hvalid, hroot⟩ := t.word_fields
  rw [TreeReg.ofWord, hvalid, hroot]

theorem Node.withWord_word (n : Node) (k : Fin 4) : n.withWord k (n.word k) = n := by
  match k with
  | 0 =>
    obtain ⟨hkind, hsym⟩ := n.word_zero_fields
    rw [Node.withWord, hkind, hsym, Kind.ofBits_bits]
  | 1 =>
    obtain ⟨hleft, hright⟩ := n.word_one_fields
    rw [Node.withWord, hleft, hright]
  | 2 =>
    have hword : n.word 2 = n.weight.extractLsb' 0 32 := rfl
    rw [Node.withWord, hword, n.weight_halves]
  | 3 => rw [Node.withWord, n.word_three_byte, n.weight_halves]

theorem putCwWord_own (cw : BitVec 256) (j : Nat) : putCwWord cw j (cw.extractLsb' (32 * j) 32) = cw := by
  refine BitVec.eq_of_getLsbD_eq fun i hi => ?_
  rw [getLsbD_putCwWord cw j _ i hi]
  split
  · rw [BitVec.getLsbD_extractLsb', decide_eq_true (show i - 32 * j < 32 by omega), Bool.true_and,
      show 32 * j + (i - 32 * j) = i by omega]
  · rfl

theorem CodeEntry.withWord_word (e : CodeEntry) (k : Fin 16) : e.withWord k (e.word k) = e := by
  by_cases h0 : k.val = 0
  · obtain rfl : k = 0 := Fin.ext h0
    obtain ⟨hvalid, hlen⟩ := e.word_zero_fields
    rw [CodeEntry.withWord, if_pos h0, hvalid, hlen]
  · by_cases h8 : k.val ≤ 8
    · rw [CodeEntry.withWord, if_neg h0, if_pos h8, e.word_cw h0 h8, putCwWord_own]
    · rw [CodeEntry.withWord, if_neg h0, if_neg h8]

theorem extractLsb'_symbufWord (x : Symbol) : (0#24 ++ x).extractLsb' 0 8 = x := by
  rw [BitVec.extractLsb'_append_eq_of_add_le (by decide), BitVec.extractLsb'_eq_self]

/-! What a word reads after a store. -/

theorem and_ones (v : Word) : v &&& 0xFFFFFFFF#32 = v := BitVec.and_allOnes

/-- A stored word reads the written bits where they are named and 0 elsewhere (R61). -/
theorem wordAt_storeWord_self (s : State) (v : Word) {l : Loc} (hl : l.stores = true) :
    (s.storeWord v l).wordAt l = v &&& l.namedBits := by
  cases l with
  | ctrl =>
    show 0#31 ++ BitVec.ofBool (v.getLsbD 0) = v &&& 1#32
    refine BitVec.eq_of_getLsbD_eq fun j hj => ?_
    simp only [BitVec.getLsbD_append, BitVec.getLsbD_and]
    interval_cases j <;> simp [-BitVec.getLsbD_eq_getElem]
  | tree => exact TreeReg.word_ofWord v
  | symLen => exact (and_ones v).symm
  | bitLen => exact (and_ones v).symm
  | freq x => exact ((freqAt_write s x x v).trans (if_pos rfl)).trans (and_ones v).symm
  | node i k =>
    show (nodeIn (nodePut s.node i _) i).word k = _
    rw [nodeIn_nodePut_self, Node.word_withWord _ i]
  | code x k =>
    show (codeIn (codePut s.code x _) x).word k = _
    rw [codeIn_codePut_self, CodeEntry.word_withWord _ x]
  | symbuf i =>
    show 0#24 ++ Memory.read _ (Memory.write none s.symbuf i.val _) i.val = v &&& 0xFF#32
    rw [Memory.read_write_none_self]
    refine BitVec.eq_of_getLsbD_eq fun j hj => ?_
    simp only [BitVec.getLsbD_append, BitVec.getLsbD_and, BitVec.getLsbD_extractLsb', BitVec.getLsbD_zero]
    interval_cases j <;> simp [-BitVec.getLsbD_eq_getElem]
  | bitbuf w => exact (Memory.read_write_none_self _ s.bitbuf w.val v).trans (and_ones v).symm
  | id | param0 | param1 | param2 | cmd | status | errPos | errAux | reserved => cases hl

/-- A store leaves every other word as it was (R61). -/
theorem wordAt_storeWord_ne (s : State) (v : Word) {l l' : Loc} (hl : l.stores = true) (h : l' ≠ l) :
    (s.storeWord v l).wordAt l' = s.wordAt l' := by
  cases l with
  | ctrl =>
    cases l' with
    | ctrl => exact absurd rfl h
    | _ => rfl
  | tree =>
    cases l' with
    | tree => exact absurd rfl h
    | _ => rfl
  | symLen =>
    cases l' with
    | symLen => exact absurd rfl h
    | _ => rfl
  | bitLen =>
    cases l' with
    | bitLen => exact absurd rfl h
    | _ => rfl
  | freq x =>
    cases l' with
    | freq y => exact (freqAt_write s x y v).trans (if_neg fun he => h (by rw [he]))
    | _ => rfl
  | node i k =>
    cases l' with
    | node j k' =>
      show (nodeIn (nodePut s.node i _) j).word k' = (s.nodeAt j).word k'
      by_cases hj : j = i
      · subst hj
        rw [nodeIn_nodePut_self, Node.word_withWord_ne _ _ fun hk => h (by rw [hk])]
      · rw [nodeIn_nodePut_ne _ _ hj]
        rfl
    | _ => rfl
  | code x k =>
    cases l' with
    | code y k' =>
      show (codeIn (codePut s.code x _) y).word k' = (s.codeAt y).word k'
      by_cases hy : y = x
      · subst hy
        rw [codeIn_codePut_self, CodeEntry.word_withWord_ne _ _ fun hk => h (by rw [hk])]
      · rw [codeIn_codePut_ne _ _ hy]
        rfl
    | _ => rfl
  | symbuf i =>
    cases l' with
    | symbuf j =>
      exact congrArg (0#24 ++ ·) (Memory.read_write_ne none _ s.symbuf _ fun he => h (by rw [Fin.ext he]))
    | _ => rfl
  | bitbuf w =>
    cases l' with
    | bitbuf j => exact Memory.read_write_ne none _ s.bitbuf v fun he => h (by rw [Fin.ext he])
    | _ => rfl
  | id | param0 | param1 | param2 | cmd | status | errPos | errAux | reserved => cases hl

/-- A word stored with the value it has reads that value still. -/
theorem wordAt_storeWord_own (s : State) {l : Loc} (hl : l.stores = true) :
    (s.storeWord (s.wordAt l) l).wordAt l = s.wordAt l := by
  cases l with
  | ctrl =>
    show 0#31 ++ BitVec.ofBool ((0#31 ++ BitVec.ofBool s.irqEn).getLsbD 0) = _
    rw [ctrlWord_bit]
    rfl
  | tree => exact congrArg TreeReg.word s.tree.ofWord_word
  | symLen => rfl
  | bitLen => rfl
  | freq x => exact (freqAt_write s x x _).trans (if_pos rfl)
  | node i k =>
    show (nodeIn (nodePut s.node i ((s.nodeAt i).withWord k ((s.nodeAt i).word k))) i).word k = _
    rw [nodeIn_nodePut_self, Node.withWord_word]
    rfl
  | code x k =>
    show (codeIn (codePut s.code x ((s.codeAt x).withWord k ((s.codeAt x).word k))) x).word k = _
    rw [codeIn_codePut_self, CodeEntry.withWord_word]
    rfl
  | symbuf i =>
    show 0#24 ++ Memory.read _ (Memory.write none s.symbuf i.val ((0#24 ++ s.symbufAt i.val).extractLsb' 0 8)) i.val = _
    rw [Memory.read_write_none_self, extractLsb'_symbufWord]
    rfl
  | bitbuf w => exact Memory.read_write_none_self _ s.bitbuf w.val _
  | id | param0 | param1 | param2 | cmd | status | errPos | errAux | reserved => cases hl

/-- The reserved bits of a stored word read 0 in every state: storing the word's own value would clear them (R24 to R39). -/
theorem wordAt_reserved_bits (s : State) {l : Loc} (hl : l.stores = true) : s.wordAt l &&& ~~~l.namedBits = 0#32 := by
  have hnamed : s.wordAt l = s.wordAt l &&& l.namedBits :=
    (wordAt_storeWord_own s hl).symm.trans (wordAt_storeWord_self s _ hl)
  rw [hnamed, BitVec.and_assoc, BitVec.and_not_self]
  exact BitVec.and_zero

/-- A stored word is a register or an aperture word. -/
theorem ne_reserved_of_stores {l : Loc} (hl : l.stores = true) (a : Nat) : l ≠ .reserved a := by
  rintro rfl
  cases hl

end Sys2Proof.Machine

namespace Sys2Proof.Proofs

open Sys2Proof.Machine

/-- Settles O16: a write while IDLE is a store of the word at that offset, and the fields of each word are parts of the
concatenation it is. -/
theorem hostWriteStoresOneWord : Obligations.HostWriteStoresOneWord := by
  refine ⟨fun s l v rest h hr hidle hl => ?write, fun s => ?registers, fun s x => rfl, fun s i => ?node, fun s x => ?code,
    fun s i => extractLsb'_symbufWord _, fun s w => rfl, fun s l hl => wordAt_reserved_bits s hl⟩
  case write =>
    have hnamed := ne_reserved_of_stores hl
    obtain ⟨ha, hlt⟩ := offset_aligned hnamed
    have hstep : step s = .next ((s.withInputs rest).storeWord v l) := by
      rw [step_write hr ha hlt h, locOf_offset hnamed, writeLoc_idle (s := s.withInputs rest) l v hidle]
    refine ⟨_, hstep, (storeWord_model_fields _ v l).1, wordAt_storeWord_self _ v hl, fun l' hne => ?_⟩
    rw [wordAt_storeWord_ne _ v hl hne, wordAt_withInputs]
  case registers =>
    obtain ⟨hvalid, hroot⟩ := s.tree.word_fields
    exact ⟨ctrlWord_bit _, rfl, rfl, hvalid, hroot, rfl, rfl⟩
  case node =>
    obtain ⟨hkind, hsym⟩ := (s.nodeAt i).word_zero_fields
    obtain ⟨hleft, hright⟩ := (s.nodeAt i).word_one_fields
    have hbits : ∀ k : Kind, (s.nodeAt i).kind = k ↔ (s.wordAt (.node i 0)).extractLsb' 0 2 = k.bits := fun k => by
      rw [← Kind.bits_inj, ← hkind]
      rfl
    refine ⟨hbits .empty, hbits .leaf, hbits .internal, hbits .sentinel, hsym, hleft, hright, ?_⟩
    show ((s.nodeAt i).word 3).extractLsb' 0 8 ++ (s.nodeAt i).weight.extractLsb' 0 32 = _
    rw [Node.word_three_byte, Node.weight_halves]
  case code =>
    obtain ⟨hvalid, hlen⟩ := (s.codeAt x).word_zero_fields
    exact ⟨hvalid, hlen, fun j hj => (s.codeAt x).getLsbD_word_cw hj⟩

end Sys2Proof.Proofs

/-! PROOFS. The engine's turn and the schedule (R8, R112, R256), refused steps (R62, R63, R261), reset (R260 to R262), and the
invariant. -/

namespace Sys2Proof.Machine

/-! The engine's turn. -/

/-- The engine's turn while IDLE (R256). -/
theorem engineTurn_idle {s : State} (h : s.engine = .idle) : engineTurn s = .next s := by simp only [engineTurn, h]

/-- The engine's turn on a legal word (R112). -/
theorem engineTurn_legal {s : State} {v : Word} {i : Instr} (h : s.engine = .busy v) (hd : decode v = .ok i) :
    engineTurn s = exec i s := by simp only [engineTurn, h, hd]

/-- The engine's turn while BUSY: a command performed, or ILLEGAL_CMD raised (R112, R115). -/
theorem engineTurn_busy {s : State} {v : Word} (h : s.engine = .busy v) :
    (∃ i, engineTurn s = exec i s) ∨ engineTurn s = .next (s.raise none (.illegalCmd v)) := by
  cases hd : decode v with
  | ok i => exact .inl ⟨i, engineTurn_legal h hd⟩
  | error e => exact .inr (engineTurn_illegal h fun i hi => by rw [hi, decode_encode] at hd; cases hd)

/-- Every command completes (R112). -/
theorem exec_completes (i : Instr) (s : State) : ∃ t, exec i s = .next t ∧ t.engine = .idle ∧ t.done = true := by
  obtain ⟨u, hu, -⟩ | ⟨e, -, he⟩ := exec_cases i s
  · exact ⟨_, hu, rfl, rfl⟩
  · exact ⟨_, he, rfl, rfl⟩

/-- The engine's turn while BUSY completes the command or the illegal word (R112, R115). -/
theorem engineTurn_completes {s : State} {v : Word} (h : s.engine = .busy v) :
    ∃ t, engineTurn s = .next t ∧ t.engine = .idle ∧ t.done = true := by
  obtain ⟨i, hi⟩ | hi := engineTurn_busy h
  · rw [hi]
    exact exec_completes i s
  · exact ⟨_, hi, rfl, rfl⟩

theorem engineTurn_next (s : State) : ∃ t, engineTurn s = .next t := by
  cases h : s.engine with
  | idle => exact ⟨s, engineTurn_idle h⟩
  | busy v =>
    obtain ⟨t, ht, -⟩ := engineTurn_completes h
    exact ⟨t, ht⟩

/-- The table's numbering of a 32-bit word gives the word back (log 8). -/
theorem tableWord_toNat (v : Word) : tableWord 32 v.toNat = v := by
  rw [tableWord, Nat.mod_eq_of_lt v.isLt, BitVec.ofNat_toNat, BitVec.setWidth_eq]

/-! Refusals. -/

/-- An access is refused exactly when reset is held or it has no meaning (R62, R63, R261). -/
theorem accessRefusal_some_iff (s : State) (addr size : Nat) :
    (∃ r, accessRefusal s addr size = some r) ↔ s.resetHeld ≠ 0 ∨ size ≠ 4 ∨ addr % 4 ≠ 0 ∨ 0x20000 ≤ addr := by
  rw [← Option.ne_none_iff_exists', ne_eq, accessRefusal_eq_none_iff]
  omega

theorem hostRead_refused_iff (addr size : Nat) (s : State) :
    (∃ r, hostRead addr size s = .refused r) ↔ s.resetHeld ≠ 0 ∨ size ≠ 4 ∨ addr % 4 ≠ 0 ∨ 0x20000 ≤ addr := by
  rw [← accessRefusal_some_iff, hostRead]
  cases accessRefusal s addr size <;> simp

theorem hostWrite_refused_iff (addr size : Nat) (v : Word) (s : State) :
    (∃ r, hostWrite addr size v s = .refused r) ↔ s.resetHeld ≠ 0 ∨ size ≠ 4 ∨ addr % 4 ≠ 0 ∨ 0x20000 ≤ addr := by
  rw [← accessRefusal_some_iff, hostWrite]
  cases accessRefusal s addr size <;> simp

/-- The release of a reset is refused exactly when the reset was cut short (R261). -/
theorem releaseReset_refused_iff (s : State) :
    (∃ r, releaseReset s = .refused r) ↔ s.resetHeld ≠ 0 ∧ s.resetHeld < Config.resetHoldCycles := by
  unfold releaseReset
  split
  · simp [*]
  · split <;> simp [*]

/-- The release of a reset, where it is not refused, only ends it (R261). -/
theorem releaseReset_next {s t : State} (h : releaseReset s = .next t) : t = { s with resetHeld := 0 } := by
  unfold releaseReset at h
  split at h
  · rename_i hz
    cases h
    rw [← hz]
  · split at h
    · cases h
    · cases h
      rfl

theorem releaseReset_ends {s : State} (h : s.resetHeld = 0 ∨ Config.resetHoldCycles ≤ s.resetHeld) :
    releaseReset s = .next { s with resetHeld := 0 } := by
  cases hr : releaseReset s with
  | next t => rw [releaseReset_next hr]
  | fault f => cases f
  | refused r =>
    obtain ⟨hne, hlt⟩ := (releaseReset_refused_iff s).1 ⟨r, hr⟩
    omega

/-! What a host access leaves. -/

/-- A read leaves the engine, the errors, the reset and the schedule (R65). -/
theorem readLoc_frame (addr : Nat) (l : Loc) (s : State) :
    (readLoc addr l s).engine = s.engine ∧ (readLoc addr l s).errcode = s.errcode ∧
      (readLoc addr l s).resetHeld = s.resetHeld ∧ (readLoc addr l s).inputs = s.inputs := by
  obtain h | ⟨-, h⟩ := readLoc_cases addr l s <;> rw [h] <;> exact ⟨rfl, rfl, rfl, rfl⟩

/-- A write while BUSY leaves the engine, the reset and the schedule (R69 c to e, R111). -/
theorem writeLoc_busy_frame {s : State} (l : Loc) (v : Word) (hb : s.busy = true) :
    (writeLoc l v s).engine = s.engine ∧ (writeLoc l v s).resetHeld = s.resetHeld ∧ (writeLoc l v s).inputs = s.inputs := by
  obtain ⟨-, -, h⟩ | ⟨hidle | hl, h⟩ := writeLoc_cases l v s
  · rw [h]
    exact ⟨rfl, rfl, rfl⟩
  · rw [hb] at hidle
    cases hidle
  · have hcmd : l ≠ .cmd := by rintro rfl; cases hl
    obtain ⟨hinputs, -, -, -, hreset⟩ := storeWord_model_fields s v l
    rw [h]
    exact ⟨(storeWord_engine s v l).trans (if_neg hcmd), hreset, hinputs⟩

/-- A write changes ERRCODE only as the acceptance of a command, which is by a write to CMD while IDLE (R27, R110). -/
theorem writeLoc_errcode {s : State} {l : Loc} {v : Word} (h : (writeLoc l v s).errcode ≠ s.errcode) :
    s.busy = false ∧ l = .cmd ∧ writeLoc l v s = s.accept v := by
  obtain ⟨-, -, hw⟩ | ⟨hadmit, hw⟩ := writeLoc_cases l v s
  · rw [hw] at h
    exact absurd rfl h
  · rw [hw] at h ⊢
    by_cases hcmd : l = .cmd
    · subst hcmd
      exact ⟨hadmit.resolve_right (by decide), rfl, rfl⟩
    · exact absurd (storeWord_errors s v l hcmd).1 h

/-! Running to completion. -/

theorem run_succ_of_step {M : Host.Core} {s t : M.State} (h : M.step s = .next t) (k : Nat) : M.run (k + 1) s = M.run k t := by
  simp only [Host.Core.run, h]

theorem run_succ {s t : State} (h : step s = .next t) (k : Nat) :
    Host.Core.run Sys2Proof.core (k + 1) s = Host.Core.run Sys2Proof.core k t :=
  run_succ_of_step (M := Sys2Proof.core) h k

/-- An ordinary entry of the schedule, met while BUSY, completes the command or leaves the engine as it is (R8). -/
theorem step_ordinary {s : State} {v : Word} {i : Input} {rest : List Input} (hb : s.engine = .busy v)
    (hr : s.resetHeld = 0) (hi : s.inputs = i :: rest) (ho : i.ordinary = true) :
    (∃ t, step s = .next t ∧ t.engine = .idle ∧ t.done = true) ∨
      ∃ t, step s = .next t ∧ t.engine = .busy v ∧ t.resetHeld = 0 ∧ t.inputs = rest := by
  cases i with
  | engine =>
    rw [step_of_inputs_cons hi]
    exact .inl (engineTurn_completes (s := s.withInputs rest) hb)
  | read addr size =>
    obtain ⟨rfl, ha, hlt⟩ := (access_iff addr size).1 ho
    obtain ⟨hengine, -, hreset, hinputs⟩ := readLoc_frame addr (locOf addr) (s.withInputs rest)
    exact .inr ⟨_, step_read hr ha hlt hi, hengine.trans hb, hreset.trans hr, hinputs⟩
  | write addr size w =>
    obtain ⟨rfl, ha, hlt⟩ := (access_iff addr size).1 ho
    have hbusy : (s.withInputs rest).busy = true := by simp [hb]
    obtain ⟨hengine, hreset, hinputs⟩ := writeLoc_busy_frame (locOf addr) w hbusy
    exact .inr ⟨_, step_write hr ha hlt hi, hengine.trans hb, hreset.trans hr, hinputs⟩
  | resetCycle => cases ho
  | resetEnd => cases ho

/-- By induction on the schedule: a BUSY engine completes within one step more than it has entries (R8). -/
theorem run_completes (v : Word) :
    ∀ (l : List Input) (s : State), s.inputs = l → s.engine = .busy v → s.resetHeld = 0 → (∀ i ∈ l, i.ordinary = true) →
      ∃ k t, k ≤ l.length + 1 ∧ Host.Core.run Sys2Proof.core k s = .next t ∧ t.engine = .idle ∧ t.done = true
  | [], s, hl, hb, _, _ => by
    obtain ⟨t, ht, hidle, hdone⟩ := engineTurn_completes hb
    exact ⟨1, t, by simp, run_succ ((step_of_inputs_nil hl).trans ht) 0, hidle, hdone⟩
  | i :: l, s, hl, hb, hr, ho => by
    obtain ⟨t, ht, hidle, hdone⟩ | ⟨t, ht, hengine, hreset, hinputs⟩ := step_ordinary hb hr hl (ho i List.mem_cons_self)
    · exact ⟨1, t, by simp, run_succ ht 0, hidle, hdone⟩
    · obtain ⟨k, u, hk, hrun, hend⟩ :=
        run_completes v l t hinputs hengine hreset fun j hj => ho j (List.mem_cons_of_mem i hj)
      exact ⟨k + 1, u, by rw [List.length_cons]; omega, (run_succ ht k).trans hrun, hend⟩

/-! The invariant: the memories. -/

/-- An error of any command leaves its memories canonical (R230, log 9). -/
theorem wf_raise {s : State} (hs : s.memoriesWf = true) (i : Option Instr) (e : CmdError) :
    (s.raise i e).memoriesWf = true := by
  obtain ⟨hfreq, hnode, hcode, hsymbuf, hbitbuf⟩ := (memoriesWf_iff s).1 hs
  rw [memoriesWf_iff]
  match i with
  | some .build => exact ⟨hfreq, Memory.wf_nil _ _, hcode, hsymbuf, hbitbuf⟩
  | some .tbltree => exact ⟨hfreq, Memory.wf_nil _ _, hcode, hsymbuf, hbitbuf⟩
  | some .gen => exact ⟨hfreq, hnode, Memory.wf_nil _ _, hsymbuf, hbitbuf⟩
  | some .enc | some .dec | some .nop | some .clrfreq | some .clrtree | some .clrtbl | none =>
    exact ⟨hfreq, hnode, hcode, hsymbuf, hbitbuf⟩

/-- Every command leaves the memories canonical (log 9). -/
theorem wf_exec {i : Instr} {s t : State} (hs : s.memoriesWf = true) (h : exec i s = .next t) : t.memoriesWf = true := by
  obtain ⟨hfreq, hnode, hcode, hsymbuf, hbitbuf⟩ := (memoriesWf_iff s).1 hs
  cases i with
  | nop =>
    cases h
    exact hs
  | clrfreq =>
    cases h
    exact (memoriesWf_iff _).2 ⟨Memory.wf_nil _ _, hnode, hcode, hsymbuf, hbitbuf⟩
  | clrtree =>
    cases h
    exact (memoriesWf_iff _).2 ⟨hfreq, Memory.wf_nil _ _, hcode, hsymbuf, hbitbuf⟩
  | clrtbl =>
    cases h
    exact (memoriesWf_iff _).2 ⟨hfreq, hnode, Memory.wf_nil _ _, hsymbuf, hbitbuf⟩
  | build =>
    obtain ⟨m, t', hb, rfl⟩ | ⟨e, -, -, rfl⟩ := exec_build_cases h
    · exact (memoriesWf_iff _).2 ⟨hfreq, wf_buildTree hb, hcode, hsymbuf, hbitbuf⟩
    · exact wf_raise hs _ e
  | gen =>
    obtain ⟨m, hg, rfl⟩ | ⟨e, -, -, rfl⟩ := exec_gen_cases h
    · exact (memoriesWf_iff _).2 ⟨hfreq, hnode, wf_generateTable hg, hsymbuf, hbitbuf⟩
    · exact wf_raise hs _ e
  | enc =>
    obtain ⟨stream, he, rfl⟩ | ⟨e, -, -, rfl⟩ := exec_enc_cases h
    · obtain ⟨-, -, -, hlen⟩ := encodeStream_ok he
      refine (memoriesWf_iff _).2 ⟨hfreq, hnode, hcode, hsymbuf, Memory.wf_writeFrom _ hbitbuf ?_⟩
      rw [length_streamWords, Config.bitbufWords_eq]
      omega
    · exact wf_raise hs _ e
  | dec =>
    obtain ⟨out, hd, rfl⟩ | ⟨e, -, -, rfl⟩ := exec_dec_cases h
    · have hlen := decodeStream_length hd
      refine (memoriesWf_iff _).2 ⟨hfreq, hnode, hcode, Memory.wf_writeFrom _ hsymbuf ?_, hbitbuf⟩
      rw [Config.symbufCap_eq]
      omega
    · exact wf_raise hs _ e
  | tbltree =>
    obtain ⟨m, t', hr, rfl⟩ | ⟨e, -, -, rfl⟩ := exec_tbltree_cases h
    · exact (memoriesWf_iff _).2 ⟨hfreq, wf_rebuildTree hr, hcode, hsymbuf, hbitbuf⟩
    · exact wf_raise hs _ e

/-! The invariant: the registers. -/

/-- With the engine IDLE, the invariant is that the memories are canonical and the errors are kept. -/
theorem inv_of_idle {s : State} (hengine : s.engine = .idle) (hmem : s.memoriesWf = true) (herr : s.errorKept) : s.Inv :=
  ⟨hmem, fun _ hv => (by cases hengine.symm.trans hv), herr, fun _ => hengine⟩

/-- The engine's turn keeps the invariant: a command starts with ERR_POS and ERR_AUX 0, and moves them only with ERRCODE. -/
theorem inv_engineTurn {s t : State} (hs : s.Inv) (h : engineTurn s = .next t) : t.Inv := by
  cases hengine : s.engine with
  | idle =>
    cases h.symm.trans (engineTurn_idle hengine)
    exact hs
  | busy v =>
    obtain ⟨hmem, hbusy, -, -⟩ := hs
    obtain ⟨-, -, hpos, haux, -⟩ := hbusy v hengine
    obtain ⟨u, hu, hidle, -⟩ := engineTurn_completes hengine
    cases h.symm.trans hu
    obtain ⟨i, hi⟩ | hi := engineTurn_busy hengine
    · rw [hi] at h
      refine inv_of_idle hidle (wf_exec hmem h) fun hok => ?_
      obtain ⟨hpos', haux'⟩ := exec_ok_errors h hok
      exact ⟨hpos'.trans hpos, haux'.trans haux⟩
    · cases h.symm.trans hi
      exact inv_of_idle rfl (wf_raise hmem none _) fun hok => by cases hok

/-- Only a write to STATUS and acceptance touch DONE, and neither sets it (R26, R110). -/
theorem storeWord_done (s : State) (v : Word) (l : Loc) (h : s.done = false) : (s.storeWord v l).done = false := by
  cases l with
  | status => rw [State.storeWord, State.writeStatus_done, h, Bool.false_and]
  | cmd => rfl
  | _ => exact h

/-- A store to any word but CMD keeps the invariant. -/
theorem inv_storeWord {s : State} (hs : s.Inv) (v : Word) {l : Loc} (hl : l ≠ .cmd) : (s.storeWord v l).Inv := by
  obtain ⟨hmem, hbusy, herr, hreset⟩ := hs
  obtain ⟨hcode, hlast, hpos, haux⟩ := storeWord_errors s v l hl
  obtain ⟨-, -, -, -, hheld⟩ := storeWord_model_fields s v l
  have hengine : (s.storeWord v l).engine = s.engine := (storeWord_engine s v l).trans (if_neg hl)
  refine ⟨wf_storeWord hmem v l, fun w hw => ?_, fun hok => ?_, fun hheld' => ?_⟩
  · obtain ⟨hdone, hok, hpos0, haux0, hlast0⟩ := hbusy w (hengine.symm.trans hw)
    exact ⟨storeWord_done s v l hdone, hcode.trans hok, hpos.trans hpos0, haux.trans haux0, hlast.trans hlast0⟩
  · obtain ⟨hpos0, haux0⟩ := herr (hcode.symm.trans hok)
    exact ⟨hpos.trans hpos0, haux.trans haux0⟩
  · exact hengine.trans (hreset (hheld ▸ hheld'))

/-- Acceptance keeps the invariant: it puts the registers as BUSY asks (R110). -/
theorem inv_accept {s : State} (hs : s.Inv) (v : Word) (hr : s.resetHeld = 0) : (s.accept v).Inv := by
  obtain ⟨hmem, -, -, -⟩ := hs
  refine ⟨hmem, fun w hw => ?_, fun _ => ⟨rfl, rfl⟩, fun hheld => absurd hr hheld⟩
  cases hw
  exact ⟨rfl, rfl, rfl, rfl, rfl⟩

/-- An admitted write keeps the invariant. -/
theorem inv_writeLoc {s : State} (hs : s.Inv) (l : Loc) (v : Word) (hr : s.resetHeld = 0) : (writeLoc l v s).Inv := by
  obtain ⟨-, -, h⟩ | ⟨-, h⟩ := writeLoc_cases l v s
  · rw [h]
    exact hs
  · rw [h]
    by_cases hl : l = .cmd
    · subst hl
      exact inv_accept hs v hr
    · exact inv_storeWord hs v hl

/-- An admitted read keeps the invariant, which says nothing of the replies. -/
theorem inv_readLoc {s : State} (hs : s.Inv) (addr : Nat) (l : Loc) : (readLoc addr l s).Inv := by
  obtain h | ⟨-, h⟩ := readLoc_cases addr l s <;> rw [h] <;> exact hs

/-- A cycle of reset leaves a state that meets the invariant (R260). -/
theorem inv_holdReset (s : State) : s.holdReset.Inv := inv_of_idle rfl rfl fun _ => ⟨rfl, rfl⟩

/-- Every entry of the schedule keeps the invariant. -/
theorem inv_perform {s t : State} (hs : s.Inv) (i : Input) (h : perform i s = .next t) : t.Inv := by
  cases i with
  | read addr size =>
    obtain ⟨rfl, -⟩ := hostRead_next h
    exact inv_readLoc hs addr _
  | write addr size v =>
    obtain ⟨rfl, hadmit⟩ := hostWrite_next h
    exact inv_writeLoc hs _ v ((accessRefusal_eq_none_iff s addr size).1 hadmit).1
  | engine => exact inv_engineTurn hs h
  | resetCycle =>
    cases h
    exact inv_holdReset s
  | resetEnd =>
    cases releaseReset_next h
    obtain ⟨hmem, hbusy, herr, -⟩ := hs
    exact ⟨hmem, hbusy, herr, fun hheld => absurd rfl hheld⟩

end Sys2Proof.Machine

namespace Sys2Proof.Proofs

open Sys2Proof.Machine

/-- Settles O60: each entry of the schedule keeps the invariant, and so does a turn of the engine with none left. -/
theorem stepKeepsInvariant : Obligations.StepKeepsInvariant := by
  intro s t hs h
  cases hi : s.inputs with
  | nil =>
    rw [step_of_inputs_nil hi] at h
    exact inv_engineTurn hs h
  | cons i rest =>
    rw [step_of_inputs_cons hi] at h
    exact inv_perform (s := s.withInputs rest) hs i h

/-- Settles O59: the memories list nothing, the engine is IDLE, and ERR_POS and ERR_AUX are 0. -/
theorem resetMeetsInvariant : Obligations.ResetMeetsInvariant := ⟨inv_of_idle rfl rfl fun _ => ⟨rfl, rfl⟩, rfl⟩

/-- Settles O4: whoever gives the engine the turn, it performs the command its word decodes to. -/
theorem stepPerformsAcceptedCommand : Obligations.StepPerformsAcceptedCommand := by
  refine ⟨fun s v i rest hb hd h => ?_, fun s v i hb hd h => ?_, fun s v i hd => ?_⟩
  · rw [step_of_inputs_cons h]
    exact engineTurn_legal (s := s.withInputs rest) hb hd
  · rw [step_of_inputs_nil h, engineTurn_legal hb hd]
  · rw [State.withFetchWord, tableWord_toNat]
    exact engineTurn_legal (s := s.accept v) rfl hd

/-- Settles O7: a command either completes or raises its error, which completes it too. -/
theorem everyCommandCompletes : Obligations.EveryCommandCompletes := exec_completes

/-- Settles O9: with nothing scheduled an IDLE engine has the turn. -/
theorem idleHoldsState : Obligations.IdleHoldsState := by
  intro s hidle h
  rw [step_of_inputs_nil h, engineTurn_idle hidle]

/-- Settles O8, by induction on the schedule: no host access moves a BUSY engine. -/
theorem busyCommandCompletesInTime : Obligations.BusyCommandCompletesInTime :=
  fun s v hb hr ho => run_completes v s.inputs s rfl hb hr ho

/-- Settles O10, entry by entry of the schedule. -/
theorem errcodeChangesOnlyByCommands : Obligations.ErrcodeChangesOnlyByCommands := by
  intro s t h hne
  have hturn : ∀ u : State, u.engine = s.engine → u.errcode = s.errcode → engineTurn u = .next t →
      (∃ v, s.engine = .busy v) ∧ t.engine = .idle ∧ t.done = true := fun u hengine herr hu => by
    cases hs : s.engine with
    | idle =>
      cases hu.symm.trans (engineTurn_idle (hengine.trans hs))
      exact absurd herr hne
    | busy v =>
      obtain ⟨w, hw, hend⟩ := engineTurn_completes (hengine.trans hs)
      cases hu.symm.trans hw
      exact ⟨⟨v, rfl⟩, hend⟩
  cases hi : s.inputs with
  | nil => exact .inr (.inl (hturn s rfl rfl ((step_of_inputs_nil hi).symm.trans h)))
  | cons i rest =>
    rw [step_of_inputs_cons hi] at h
    cases i with
    | read addr size =>
      obtain ⟨rfl, -⟩ := hostRead_next h
      obtain ⟨-, herr, -⟩ := readLoc_frame addr (locOf addr) (s.withInputs rest)
      exact absurd herr hne
    | write addr size v =>
      obtain ⟨rfl, hadmit⟩ := hostWrite_next h
      obtain ⟨-, rfl, ha, -⟩ := (accessRefusal_eq_none_iff _ addr size).1 hadmit
      obtain ⟨hidle, hcmd, haccept⟩ := writeLoc_errcode (s := s.withInputs rest) hne
      have haddr : addr = 0x014 := by rw [← offset_locOf ha, hcmd]; rfl
      subst haddr
      rw [haccept]
      refine .inl ⟨?_, v, rest, rfl, rfl, rfl⟩
      cases hs : s.engine with
      | idle => rfl
      | busy w =>
        rw [State.busy_eq_isBusy, State.withInputs_engine, hs] at hidle
        cases hidle
    | engine => exact .inr (.inl (hturn (s.withInputs rest) rfl rfl h))
    | resetCycle =>
      cases h
      exact .inr (.inr ⟨rest, rfl, rfl⟩)
    | resetEnd =>
      cases releaseReset_next h
      exact absurd rfl hne

/-- Settles O11: of the entries of the schedule only host accesses and the end of a reset can be refused. -/
theorem refusedStepsAreOutsideTheSpec : Obligations.RefusedStepsAreOutsideTheSpec := by
  intro s
  cases hi : s.inputs with
  | nil =>
    obtain ⟨t, ht⟩ := engineTurn_next s
    simp [step_of_inputs_nil hi, ht]
  | cons i rest =>
    rw [step_of_inputs_cons hi]
    cases i with
    | read addr size => simp [perform, hostRead_refused_iff]
    | write addr size v => simp [perform, hostWrite_refused_iff]
    | engine =>
      obtain ⟨t, ht⟩ := engineTurn_next (s.withInputs rest)
      simp [perform, ht]
    | resetCycle => simp [perform]
    | resetEnd => simp [perform, releaseReset_refused_iff]

/-- Settles O23: a cycle of reset puts every field at its reset value, and the end of a reset only ends it. -/
theorem resetAbandonsCommand : Obligations.ResetAbandonsCommand := by
  refine ⟨fun s rest h => ?cycle, fun s rest h hheld => ?ended⟩
  case cycle =>
    exact ⟨_, step_of_inputs_cons h, rfl, rfl, rfl, rfl, rfl, rfl, rfl, rfl, rfl, rfl, rfl, rfl, rfl,
      State.freqAt_eq_zero rfl, State.nodeAt_eq_blank rfl, State.codeAt_eq_blank rfl, State.irq_eq_false rfl⟩
  case ended => exact (step_of_inputs_cons h).trans (releaseReset_ends (s := s.withInputs rest) hheld)

end Sys2Proof.Proofs

/-! PROOFS. The errors of each command (R220), where ENC and GEN fail (R150, R170, R173, R222), and the frame of each command
(R93, R113, R230). -/

namespace Sys2Proof.Machine

/-! ENC at the first symbol it cannot encode. -/

/-- The symbols below `n`: those below `k`, symbol `k`, those above. -/
theorem State.symbols_split (s : State) {k n : Nat} (h : k < n) :
    ∃ more, s.symbols n = s.symbols k ++ s.symbufAt k :: more := by
  refine ⟨(List.range' (k + 1) (n - k - 1)).map s.symbufAt, ?_⟩
  have hrange : List.range n = List.range k ++ k :: List.range' (k + 1) (n - k - 1) := by
    rw [show n = k + (1 + (n - k - 1)) by omega, List.range_eq_range', List.range_eq_range', ← List.range'_append_1,
      ← List.range'_append_1]
    simp
  rw [State.symbols, hrange, List.map_append, List.map_cons]
  rfl

/-- ENC, when every symbol before `k` passes its check, ends with the error of symbol `k` (R170, R173). -/
theorem exec_enc_fails_at {s : State} {k : Nat} {e : CmdError} (hn : s.symLen.toNat ≤ 4096) (hk : k < s.symLen.toNat)
    (hu : ∀ j < k, (s.codeAt (s.symbufAt j)).usable = true)
    (hfit : ((s.symbols k).map (fun x => (s.codeAt x).len.toNat)).sum ≤ 32768)
    (herr : ∀ more, encodeCheck s.codeAt (s.symbufAt k :: more) k
      ((s.symbols k).map (fun x => (s.codeAt x).len.toNat)).sum = .error e) :
    exec .enc s = .next (s.raise (some .enc) e) := by
  obtain ⟨more, hmore⟩ := s.symbols_split hk
  have husable : ∀ x ∈ s.symbols k, (s.codeAt x).usable = true := fun x hx => by
    obtain ⟨j, hj, rfl⟩ := State.mem_symbols.1 hx
    exact hu j hj
  have hlen : (s.symbols k).length = k := by simp [State.symbols]
  refine exec_enc_error ?_
  rw [encodeStream, if_neg (Nat.not_lt.2 hn), hmore, encodeCheck_append _ _ 0 0 husable (by omega), hlen, Nat.zero_add,
    Nat.zero_add, herr]

section CheckOneSymbol

variable {codeAt : Symbol → CodeEntry} {x : Symbol} (more : List Symbol) (i t : Nat)

theorem encodeCheck_unknown (hv : (codeAt x).valid = false) :
    encodeCheck codeAt (x :: more) i t = .error (.unknownSymbol i x) := by
  rw [encodeCheck, hv]
  rfl

theorem encodeCheck_zeroLength (hv : (codeAt x).valid = true) (hl : (codeAt x).len = 0#8) :
    encodeCheck codeAt (x :: more) i t = .error (.tableInvalid x .zeroLength) := by
  rw [encodeCheck, hv, if_pos hl]
  rfl

theorem encodeCheck_overflow (hu : (codeAt x).usable = true) (hfull : 32768 < t + (codeAt x).len.toNat) :
    encodeCheck codeAt (x :: more) i t = .error (.bufferOverflow i) := by
  rw [CodeEntry.usable, Bool.and_eq_true, bne_iff_ne] at hu
  rw [encodeCheck, hu.1, if_neg hu.2, if_pos hfull]
  rfl

end CheckOneSymbol

/-! GEN at its first descent at fault. -/

/-- GEN ends with the reason of the first descent at fault (R150, R222). -/
theorem exec_gen_fails_at {s : State} {before after : List Descent} {e : Descent} {r : TreeReason}
    (hv : s.tree.valid = true) (hr : rootUsable s.nodeAt s.tree.root = true)
    (hd : descents s.nodeAt 255 s.tree.root [] = before ++ e :: after) (hb : quietDescents s.nodeAt [] before = true)
    (he : quietDescent s.nodeAt before e = false) (hreason : descentReason s.nodeAt before e = r) :
    exec .gen s = .next (s.raise (some .gen) (.treeInvalid e.child r)) := by
  rw [exec_gen_error (generateTable_fault hv hr hd hb he), hreason]

section DescentAtFault

variable {nodeAt : NodeIdx → Node} {before : List Descent} {e : Descent}

/-- The 511th descent is at fault, whatever is there (R156). -/
theorem descent_tooManyVisits (h : before.length = 510) :
    quietDescent nodeAt before e = false ∧ descentReason nodeAt before e = .tooManyVisits := by
  simp [quietDescent, descentReason, h]

variable (hlt : before.length < 510)
include hlt

theorem descent_emptyChild (hk : (nodeAt e.child).kind = .empty) :
    quietDescent nodeAt before e = false ∧ descentReason nodeAt before e = .emptyChild := by
  simp [quietDescent, descentReason, hk, Nat.not_le.2 hlt]

theorem descent_secondSentinel (hk : (nodeAt e.child).kind = .sentinel)
    (hseen : ∃ a ∈ before, (nodeAt a.child).kind = .sentinel) :
    quietDescent nodeAt before e = false ∧ descentReason nodeAt before e = .secondSentinel := by
  simpa [quietDescent, descentReason, hk, Nat.not_le.2 hlt, hlt] using hseen

theorem descent_duplicateSymbol (hk : (nodeAt e.child).kind = .leaf)
    (hseen : ∃ a ∈ before, (nodeAt a.child).kind = .leaf ∧ (nodeAt a.child).sym = (nodeAt e.child).sym) :
    quietDescent nodeAt before e = false ∧ descentReason nodeAt before e = .duplicateSymbol := by
  simpa [quietDescent, descentReason, hk, Nat.not_le.2 hlt, hlt] using hseen

theorem descent_tooDeep (hk : (nodeAt e.child).kind = .internal) (hdeep : e.path.length = 255) :
    quietDescent nodeAt before e = false ∧ descentReason nodeAt before e = .tooDeep := by
  simp [quietDescent, descentReason, hk, Nat.not_le.2 hlt, hdeep]

end DescentAtFault

/-! The frame of a command. -/

/-- Completion and the recording of an error, as far as they are alike: the engine IDLE, DONE set, the three error registers
as given (R112, R242). -/
def State.ended (c : ErrCode) (pos aux : Word) (s : State) : State :=
  { s with engine := .idle, done := true, errcode := c, errPos := pos, errAux := aux }

/-- Of the state `s`, only the command's own output is replaced in `u` (R93). -/
def OutputOf (i : Instr) (s u : State) : Prop :=
  match i with
  | .nop => u = s
  | .clrfreq => ∃ m, u = s.withFreq m
  | .clrtree => ∃ m t, u = s.withTree m t
  | .clrtbl => ∃ m, u = s.withCode m
  | .build => ∃ m t, u = s.withTree m t
  | .gen => ∃ m, u = s.withCode m
  | .enc => ∃ m n, u = s.withStream m n
  | .dec => ∃ m n, u = s.withSymbols m n
  | .tbltree => ∃ m t, u = s.withTree m t

/-- The error of a command replaces its own output only (R230). -/
theorem outputOf_errorEffects (i : Instr) (s : State) : OutputOf i s (errorEffects (some i) s) := by
  cases i with
  | nop => rfl
  | clrfreq => exact ⟨_, rfl⟩
  | clrtree => exact ⟨_, _, rfl⟩
  | clrtbl => exact ⟨_, rfl⟩
  | build => exact ⟨_, _, rfl⟩
  | gen => exact ⟨_, rfl⟩
  | enc => exact ⟨_, _, rfl⟩
  | dec => exact ⟨_, _, rfl⟩
  | tbltree => exact ⟨_, _, rfl⟩

theorem ended_of_complete {i : Instr} {s u : State} (h : OutputOf i s u) :
    ∃ u' c pos aux, OutputOf i s u' ∧ u.complete = u'.ended c pos aux :=
  ⟨u, .ok, u.errPos, u.errAux, h, rfl⟩

theorem ended_of_raise (i : Instr) (s : State) (e : CmdError) :
    ∃ u c pos aux, OutputOf i s u ∧ s.raise (some i) e = u.ended c pos aux :=
  ⟨_, e.code, e.pos, e.aux, outputOf_errorEffects i s, rfl⟩

/-- Every command replaces its own output and ends (R112). -/
theorem exec_output {i : Instr} {s t : State} (h : exec i s = .next t) :
    ∃ u c pos aux, OutputOf i s u ∧ t = u.ended c pos aux := by
  cases i with
  | nop =>
    cases h
    exact ended_of_complete (i := .nop) rfl
  | clrfreq =>
    cases h
    exact ended_of_complete (i := .clrfreq) ⟨_, rfl⟩
  | clrtree =>
    cases h
    exact ended_of_complete (i := .clrtree) ⟨_, _, rfl⟩
  | clrtbl =>
    cases h
    exact ended_of_complete (i := .clrtbl) ⟨_, rfl⟩
  | build =>
    obtain ⟨m, t', -, rfl⟩ | ⟨e, -, -, rfl⟩ := exec_build_cases h
    · exact ended_of_complete ⟨m, t', rfl⟩
    · exact ended_of_raise .build s e
  | gen =>
    obtain ⟨m, -, rfl⟩ | ⟨e, -, -, rfl⟩ := exec_gen_cases h
    · exact ended_of_complete ⟨m, rfl⟩
    · exact ended_of_raise .gen s e
  | enc =>
    obtain ⟨stream, -, rfl⟩ | ⟨e, -, -, rfl⟩ := exec_enc_cases h
    · exact ended_of_complete ⟨_, _, rfl⟩
    · exact ended_of_raise .enc s e
  | dec =>
    obtain ⟨out, -, rfl⟩ | ⟨e, -, -, rfl⟩ := exec_dec_cases h
    · exact ended_of_complete ⟨_, _, rfl⟩
    · exact ended_of_raise .dec s e
  | tbltree =>
    obtain ⟨m, t', -, rfl⟩ | ⟨e, -, -, rfl⟩ := exec_tbltree_cases h
    · exact ended_of_complete ⟨m, t', rfl⟩
    · exact ended_of_raise .tbltree s e

/-- No command's output has a part in CTRL, OVERRUN, LASTOP or the model's own fields (R93). -/
theorem OutputOf.control {i : Instr} {s u : State} (h : OutputOf i s u) :
    u.irqEn = s.irqEn ∧ u.overrun = s.overrun ∧ u.lastop = s.lastop ∧ u.resetHeld = s.resetHeld ∧ u.inputs = s.inputs ∧
      u.replies = s.replies ∧ u.draws = s.draws ∧ u.resets = s.resets := by
  cases i with
  | nop =>
    cases h
    simp
  | clrfreq | clrtbl | gen =>
    obtain ⟨m, rfl⟩ := h
    simp
  | clrtree | build | enc | dec | tbltree =>
    obtain ⟨m, n, rfl⟩ := h
    simp

/-- Each register and memory is the output of certain commands only (R93). -/
theorem OutputOf.memories {i : Instr} {s u : State} (h : OutputOf i s u) :
    (i ≠ .clrtree → i ≠ .build → i ≠ .tbltree → u.tree = s.tree ∧ u.node = s.node) ∧
      (i ≠ .dec → u.symLen = s.symLen ∧ u.symbuf = s.symbuf) ∧ (i ≠ .enc → u.bitLen = s.bitLen ∧ u.bitbuf = s.bitbuf) ∧
      (i ≠ .clrfreq → u.freq = s.freq) ∧ (i ≠ .clrtbl → i ≠ .gen → u.code = s.code) := by
  cases i with
  | nop =>
    cases h
    simp
  | clrfreq | clrtbl | gen =>
    obtain ⟨m, rfl⟩ := h
    simp
  | clrtree | build | enc | dec | tbltree =>
    obtain ⟨m, n, rfl⟩ := h
    simp

/-! The bytes of the apertures. -/

/-- The bytes a command stores to end at a whole word. -/
theorem storedBytes_aligned (i : Instr) (s : State) : (storedBytes i s).2 % 4 = 0 := by
  have aligned : ∀ {m : Nat} (n : Nat), m = n → n % 4 = 0 → m % 4 = 0 := by omega
  cases i with
  | nop => exact aligned 0 rfl (by omega)
  | clrfreq => exact aligned 0x01400 rfl (by omega)
  | clrtree | build | tbltree => exact aligned 0x06000 rfl (by omega)
  | clrtbl | gen => exact aligned 0x0C000 rfl (by omega)
  | enc =>
    rw [storedBytes]
    cases encodeStream s.symLen s.symbols s.codeAt with
    | ok stream => exact (by omega : (0x18000 + 4 * (streamWords stream).length) % 4 = 0)
    | error e => rfl
  | dec =>
    rw [storedBytes]
    cases decodeStream s.bitLen s.streamBits s.tree s.nodeAt with
    | ok out => exact (by omega : (0x10000 + 4 * out.length) % 4 = 0)
    | error e => rfl

section UnstoredWord

variable {i : Instr} {s t : State} (h : exec i s = .next t)
include h

theorem exec_control : t.irqEn = s.irqEn ∧ t.overrun = s.overrun ∧ t.lastop = s.lastop ∧ t.resetHeld = s.resetHeld ∧
    t.inputs = s.inputs ∧ t.replies = s.replies ∧ t.draws = s.draws ∧ t.resets = s.resets := by
  obtain ⟨u, c, pos, aux, hu, rfl⟩ := exec_output h
  exact hu.control

theorem exec_memories : (i ≠ .clrtree → i ≠ .build → i ≠ .tbltree → t.tree = s.tree ∧ t.node = s.node) ∧
    (i ≠ .dec → t.symLen = s.symLen ∧ t.symbuf = s.symbuf) ∧ (i ≠ .enc → t.bitLen = s.bitLen ∧ t.bitbuf = s.bitbuf) ∧
    (i ≠ .clrfreq → t.freq = s.freq) ∧ (i ≠ .clrtbl → i ≠ .gen → t.code = s.code) := by
  obtain ⟨u, c, pos, aux, hu, rfl⟩ := exec_output h
  exact hu.memories

/-- DEC leaves the SYMBUF entries above the symbols it computes, and all of them on an error (R195, R230). -/
theorem symbufAt_exec_dec (hi : i = .dec) {j : Nat}
    (hout : ¬ ((storedBytes i s).1 ≤ 0x10000 + 4 * j ∧ 0x10000 + 4 * j < (storedBytes i s).2)) :
    t.symbufAt j = s.symbufAt j := by
  subst hi
  obtain ⟨out, hd, rfl⟩ | ⟨e, -, -, rfl⟩ := exec_dec_cases h
  · simp only [storedBytes, hd] at hout
    rw [symbufAt_withSymbols, List.getD_eq_default _ _ (by omega)]
  · rfl

/-- ENC leaves the BITBUF words above those its stream fills, and all of them on an error (R172, R230). -/
theorem bitbufAt_exec_enc (hi : i = .enc) {w : Nat}
    (hout : ¬ ((storedBytes i s).1 ≤ 0x18000 + 4 * w ∧ 0x18000 + 4 * w < (storedBytes i s).2)) :
    t.bitbufAt w = s.bitbufAt w := by
  subst hi
  obtain ⟨stream, he, rfl⟩ | ⟨e, -, -, rfl⟩ := exec_enc_cases h
  · simp only [storedBytes, he, length_streamWords] at hout
    rw [bitbufAt_withStream, if_neg (by omega)]
  · rfl

/-- A word outside the bytes a command stores to reads as before: its memory is not the command's output, or it lies above
what the command wrote there (R93, R230). -/
theorem wordAt_exec_of_unstored {l : Loc} (hreg : 0x030 ≤ l.offset)
    (hout : ¬ ((storedBytes i s).1 ≤ l.offset ∧ l.offset < (storedBytes i s).2)) : t.wordAt l = s.wordAt l := by
  obtain ⟨htree, hsymbols, hstream, hfreq, hcode⟩ := exec_memories h
  obtain ⟨-, -, -, -, -, -, -, hresets⟩ := exec_control h
  cases l with
  | freq x =>
    have hx := x.isLt
    refine congrFun (State.freqAt_congr (hfreq ?_)) x
    rintro rfl
    simp only [storedBytes, Loc.offset] at hout
    omega
  | node n k =>
    have hn := n.isLt
    have hnode : t.node = s.node := (htree ?clrtree ?build ?tbltree).2
    · exact congrArg (Node.word · k) (congrFun (State.nodeAt_congr hnode) n)
    all_goals
      rintro rfl
      simp only [storedBytes, Loc.offset] at hout
      omega
  | code x k =>
    have hx := x.isLt
    refine congrArg (CodeEntry.word · k) (congrFun (State.codeAt_congr (hcode ?clrtbl ?gen)) x)
    all_goals
      rintro rfl
      simp only [storedBytes, Loc.offset] at hout
      omega
  | symbuf j =>
    refine congrArg (0#24 ++ ·) ?_
    by_cases hi : i = .dec
    · exact symbufAt_exec_dec h hi hout
    · exact congrFun (State.symbufAt_congr (hsymbols hi).2 hresets) j.val
  | bitbuf w =>
    by_cases hi : i = .enc
    · exact bitbufAt_exec_enc h hi hout
    · exact congrFun (State.bitbufAt_congr (hstream hi).2 hresets) w.val
  | reserved a => rfl
  | id | param0 | param1 | param2 | ctrl | cmd | status | errPos | errAux | tree | symLen | bitLen =>
    exact absurd hreg (by decide)

end UnstoredWord

end Sys2Proof.Machine

namespace Sys2Proof.Proofs

open Sys2Proof.Machine

/-- Settles O36: success means that the walk met a tree, and otherwise the walk ends as its descents, judged in order, say. -/
theorem genSucceedsOnlyOnTrees : Obligations.GenSucceedsOnlyOnTrees := by
  refine ⟨fun s t h hok => ?success, fun s before after e hv hn hk hd hb => ?fault⟩
  case success =>
    obtain ⟨T, hT, ha, -⟩ := exec_gen_success h hok
    exact ⟨T, hT, ha⟩
  case fault =>
    have hr : rootUsable s.nodeAt s.tree.root = true := by simp [rootUsable, hn, hk]
    have hfails : ∀ {r}, (quietDescent s.nodeAt before e = false ∧ descentReason s.nodeAt before e = r) →
        exec .gen s = .next (s.raise (some .gen) (.treeInvalid e.child r)) := fun ⟨hq, hreason⟩ =>
      exec_gen_fails_at hv hr hd hb hq hreason
    exact ⟨fun hlen => hfails (descent_tooManyVisits hlen), fun hlt hk => hfails (descent_emptyChild hlt hk),
      fun hlt hk hseen => hfails (descent_secondSentinel hlt hk hseen),
      fun hlt hk hseen => hfails (descent_duplicateSymbol hlt hk hseen),
      fun hlt hk hdeep => hfails (descent_tooDeep hlt hk hdeep)⟩

/-- Settles O38: BUILD's tree is one the generator accepts, and its leaves are the counted symbols. -/
theorem genAcceptsBuiltTree : Obligations.GenAcceptsBuiltTree := by
  rintro s ⟨x, hx⟩
  obtain ⟨m, t, T, hbuild, hT⟩ := buildTree_grown (seedOrder_ne_nil hx)
  have hholds : (s.withTree m t).complete.holdsTree T := ⟨hT.valid, hT.holds⟩
  refine ⟨_, _, exec_build_ok hbuild, exec_gen_of_holdsTree hholds hT.acceptable, rfl, fun y => ?_⟩
  rw [← mem_seedOrder, ← hT.leaves.mem_iff]
  exact ⟨fun hu => List.mem_map_of_mem (mem_codes_of_usable hT.acceptable hu), usable_of_mem hT.acceptable⟩

/-- Settles O42: the check pass reaches symbol `k` and stops there, in the order of its three checks. -/
theorem encFailsAtFirstBadSymbol : Obligations.EncFailsAtFirstBadSymbol := by
  intro s k hn hk hu before x hfit
  exact ⟨fun hv => exec_enc_fails_at hn hk hu hfit fun more => encodeCheck_unknown more _ _ hv,
    fun hv hl => exec_enc_fails_at hn hk hu hfit fun more => encodeCheck_zeroLength more _ _ hv hl,
    fun hx hfull => exec_enc_fails_at hn hk hu hfit fun more => encodeCheck_overflow more _ _ hx hfull⟩

/-- Settles O43: both commands check the length before anything else. -/
theorem lengthAboveCapacityFails : Obligations.LengthAboveCapacityFails :=
  ⟨fun s h => exec_enc_error (by rw [encodeStream, if_pos h]), fun s h => exec_dec_error (by rw [decodeStream, if_pos h])⟩

/-- Settles O56: a command that does not complete has computed one of its own errors. -/
theorem errorsByCommand : Obligations.ErrorsByCommand := by
  intro i s t h
  cases i with
  | nop | clrfreq | clrtree | clrtbl =>
    cases h
    rfl
  | build =>
    obtain ⟨m, t', -, rfl⟩ | ⟨e, -, he, rfl⟩ := exec_build_cases h
    · exact .inl rfl
    · exact .inr (congrArg CmdError.code (buildTree_error he))
  | gen =>
    obtain ⟨m, -, rfl⟩ | ⟨e, -, he, rfl⟩ := exec_gen_cases h
    · exact .inl rfl
    · exact .inr (generateTable_error he)
  | enc =>
    obtain ⟨stream, -, rfl⟩ | ⟨e, -, he, rfl⟩ := exec_enc_cases h
    · exact .inl rfl
    · exact .inr (encodeStream_error he)
  | dec =>
    obtain ⟨out, -, rfl⟩ | ⟨e, -, he, rfl⟩ := exec_dec_cases h
    · exact .inl rfl
    · exact .inr (decodeStream_error he)
  | tbltree =>
    obtain ⟨m, t', -, rfl⟩ | ⟨e, -, he, rfl⟩ := exec_tbltree_cases h
    · exact .inl rfl
    · exact .inr (rebuildTree_error he)

/-- Settles O57: a command replaces its own output and ends, and ending touches ERR_POS and ERR_AUX only with an error. -/
theorem commandsLeaveOtherRegisters : Obligations.CommandsLeaveOtherRegisters := by
  intro i s t h
  obtain ⟨hirqEn, hoverrun, hlastop, hheld, hinputs, hreplies, hdraws, hresets⟩ := exec_control h
  obtain ⟨htree, hsymbols, hstream, hfreq, hcode⟩ := exec_memories h
  exact ⟨hirqEn, hoverrun, hlastop, hheld, hinputs, hreplies, hdraws, hresets, htree, hsymbols, hstream, hfreq, hcode,
    exec_ok_errors h⟩

/-- Settles O58: a byte is part of the word at its aligned offset, and the bytes stored are whole words. -/
theorem commandsLeaveOtherBytes : Obligations.CommandsLeaveOtherBytes := by
  intro i s t a h hreg hout
  have hoff : (locOf (4 * (a / 4))).offset = 4 * (a / 4) := offset_locOf (by omega)
  have haligned := storedBytes_aligned i s
  have hword : t.wordAt (locOf (4 * (a / 4))) = s.wordAt (locOf (4 * (a / 4))) :=
    wordAt_exec_of_unstored h (by omega) (by omega)
  rw [State.windowByte, State.windowByte, hword]

end Sys2Proof.Proofs

/-! PROOFS. A command's output depends on its operands alone (R93). -/

namespace Sys2Proof.Machine

theorem sameError_complete (s s' : State) : SameError s.complete s'.complete := ⟨rfl, fun h => absurd rfl h⟩

theorem sameError_raise (s s' : State) (cmd : Option Instr) (e : CmdError) : SameError (s.raise cmd e) (s'.raise cmd e) :=
  ⟨rfl, fun _ => ⟨rfl, rfl⟩⟩

/-- ENC takes no more of the symbols than SYM_LEN of them (R170). -/
theorem encodeStream_congr {n : Word} {f g : Nat → List Symbol} (codeAt : Symbol → CodeEntry) (h : f n.toNat = g n.toNat) :
    encodeStream n f codeAt = encodeStream n g codeAt := by
  simp only [encodeStream, h]

/-- DEC takes no more of the stream than BIT_LEN bits (R191). -/
theorem decodeStream_congr {n : Word} {f g : Nat → List Bool} (t : TreeReg) (nodeAt : NodeIdx → Node)
    (h : f n.toNat = g n.toNat) : decodeStream n f t nodeAt = decodeStream n g t nodeAt := by
  simp only [decodeStream, h]

theorem State.symbols_congr {s s' : State} {n : Nat} (h : ∀ k < n, s.symbufAt k = s'.symbufAt k) :
    s.symbols n = s'.symbols n :=
  List.map_congr_left fun k hk => h k (List.mem_range.1 hk)

theorem State.streamBits_congr {s s' : State} {n : Nat} (h : ∀ k < n, s.streamBit k = s'.streamBit k) :
    s.streamBits n = s'.streamBits n :=
  List.map_congr_left fun k hk => h k (List.mem_range.1 hk)

section TwoRuns

variable {s s' t t' : State}

theorem exec_build_congr (hfreq : s.freqAt = s'.freqAt) (h : exec .build s = .next t) (h' : exec .build s' = .next t') :
    SameError t t' ∧ t.tree = t'.tree ∧ t.node = t'.node := by
  obtain ⟨m, r, hc, rfl⟩ | ⟨e, -, hc, rfl⟩ := exec_build_cases h
  · cases h'.symm.trans (exec_build_ok (hfreq ▸ hc))
    exact ⟨sameError_complete _ _, rfl, rfl⟩
  · cases h'.symm.trans (exec_build_error (hfreq ▸ hc))
    exact ⟨sameError_raise _ _ _ _, rfl, rfl⟩

theorem exec_gen_congr (htree : s.tree = s'.tree) (hnode : s.nodeAt = s'.nodeAt) (h : exec .gen s = .next t)
    (h' : exec .gen s' = .next t') : SameError t t' ∧ t.code = t'.code := by
  have hsame : generateTable s'.tree s'.nodeAt = generateTable s.tree s.nodeAt := by rw [htree, hnode]
  obtain ⟨m, hc, rfl⟩ | ⟨e, -, hc, rfl⟩ := exec_gen_cases h
  · cases h'.symm.trans (exec_gen_ok (hsame.trans hc))
    exact ⟨sameError_complete _ _, rfl⟩
  · cases h'.symm.trans (exec_gen_error (hsame.trans hc))
    exact ⟨sameError_raise _ _ _ _, rfl⟩

theorem exec_tbltree_congr (hcode : s.codeAt = s'.codeAt) (h : exec .tbltree s = .next t)
    (h' : exec .tbltree s' = .next t') : SameError t t' ∧ t.tree = t'.tree ∧ t.node = t'.node := by
  obtain ⟨m, r, hc, rfl⟩ | ⟨e, -, hc, rfl⟩ := exec_tbltree_cases h
  · cases h'.symm.trans (exec_tbltree_ok (hcode ▸ hc))
    exact ⟨sameError_complete _ _, rfl, rfl⟩
  · cases h'.symm.trans (exec_tbltree_error (hcode ▸ hc))
    exact ⟨sameError_raise _ _ _ _, rfl, rfl⟩

theorem exec_enc_congr (hlen : s.symLen = s'.symLen) (hsym : ∀ k < s.symLen.toNat, s.symbufAt k = s'.symbufAt k)
    (hcode : s.codeAt = s'.codeAt) (h : exec .enc s = .next t) (h' : exec .enc s' = .next t') :
    SameError t t' ∧ t.bitLen = t'.bitLen ∧ (t.errcode = .ok → ∀ k < t.bitLen.toNat, t.streamBit k = t'.streamBit k) := by
  have hsame : encodeStream s'.symLen s'.symbols s'.codeAt = encodeStream s.symLen s.symbols s.codeAt := by
    rw [← hlen, ← hcode]
    exact encodeStream_congr _ (State.symbols_congr hsym).symm
  obtain ⟨stream, hc, rfl⟩ | ⟨e, hcode, hc, rfl⟩ := exec_enc_cases h
  · cases h'.symm.trans (exec_enc_ok (hsame.trans hc))
    refine ⟨sameError_complete _ _, rfl, fun _ k hk => ?_⟩
    have hk : k < stream.length := hk.trans_le (Nat.mod_le _ _)
    rw [streamBit_withStream _ _ _ (by omega), streamBit_withStream _ _ _ (by omega)]
  · cases h'.symm.trans (exec_enc_error (hsame.trans hc))
    exact ⟨sameError_raise _ _ _ _, rfl, fun hok => absurd hok hcode⟩

theorem exec_dec_congr (hlen : s.bitLen = s'.bitLen) (hbit : ∀ k < s.bitLen.toNat, s.streamBit k = s'.streamBit k)
    (htree : s.tree = s'.tree) (hnode : s.nodeAt = s'.nodeAt) (h : exec .dec s = .next t) (h' : exec .dec s' = .next t') :
    SameError t t' ∧ t.symLen = t'.symLen ∧ (t.errcode = .ok → ∀ k < t.symLen.toNat, t.symbufAt k = t'.symbufAt k) := by
  have hsame : decodeStream s'.bitLen s'.streamBits s'.tree s'.nodeAt = decodeStream s.bitLen s.streamBits s.tree s.nodeAt := by
    rw [← hlen, ← htree, ← hnode]
    exact decodeStream_congr _ _ (State.streamBits_congr hbit).symm
  obtain ⟨out, hc, rfl⟩ | ⟨e, hcode, hc, rfl⟩ := exec_dec_cases h
  · cases h'.symm.trans (exec_dec_ok (hsame.trans hc))
    refine ⟨sameError_complete _ _, rfl, fun _ k hk => ?_⟩
    have hk : k < out.length := hk.trans_le (Nat.mod_le _ _)
    rw [symbufAt_withSymbols, symbufAt_withSymbols, List.getD_eq_getElem _ _ hk, List.getD_eq_getElem _ _ hk]
  · cases h'.symm.trans (exec_dec_error (hsame.trans hc))
    exact ⟨sameError_raise _ _ _ _, rfl, fun hok => absurd hok hcode⟩

end TwoRuns

end Sys2Proof.Machine

namespace Sys2Proof.Proofs

open Sys2Proof.Machine

/-- Settles O39: the two runs compute the same result, so both write it or both raise the same error. -/
theorem commandsDependOnlyOnOperands : Obligations.CommandsDependOnlyOnOperands := by
  refine ⟨?build, ?gen, ?enc, ?dec, ?tbltree⟩
  case build =>
    intro s s' t t' hfreq h h'
    obtain ⟨herr, htree, hnode⟩ := exec_build_congr (funext hfreq) h h'
    exact ⟨herr, htree, congrFun (State.nodeAt_congr hnode)⟩
  case gen =>
    intro s s' t t' htree hnode h h'
    obtain ⟨herr, hcode⟩ := exec_gen_congr htree (funext hnode) h h'
    exact ⟨herr, fun x => congrArg (codeIn · x) hcode⟩
  case enc => exact fun s s' t t' hlen hsym hcode h h' => exec_enc_congr hlen hsym (funext hcode) h h'
  case dec => exact fun s s' t t' hlen hbit htree hnode h h' => exec_dec_congr hlen hbit htree (funext hnode) h h'
  case tbltree =>
    intro s s' t t' hcode h h'
    obtain ⟨herr, htree, hnode⟩ := exec_tbltree_congr (funext hcode) h h'
    exact ⟨herr, htree, congrFun (State.nodeAt_congr hnode)⟩

end Sys2Proof.Proofs

/-! PROOFS. Nodes leave BUILD's queue in the order of their weights, so the heavier of two leaves is no deeper (R132, R139). -/

namespace Sys2Proof.Machine

/-- Node `i` is a child of node `k`. -/
def IsChild (nodeAt : NodeIdx → Node) (k i : Nat) : Prop := ∃ b, (childAt nodeAt (BitVec.ofNat 9 k) b).toNat = i

/-- The weight of node `i` as a number. -/
def weightOf (nodeAt : NodeIdx → Node) (i : Nat) : Nat := (nodeAt (BitVec.ofNat 9 i)).weight.toNat

theorem isChild_iff {nodeAt : NodeIdx → Node} {k i : Nat} :
    IsChild nodeAt k i ↔
      (nodeAt (BitVec.ofNat 9 k)).left.toNat = i ∨ (nodeAt (BitVec.ofNat 9 k)).right.toNat = i := by
  simp [IsChild, childAt]

theorem isChild_childAt (nodeAt : NodeIdx → Node) (d : NodeIdx) (b : Bool) :
    IsChild nodeAt d.toNat (childAt nodeAt d b).toNat :=
  ⟨b, by rw [BitVec.ofNat_toNat, BitVec.setWidth_eq]⟩

theorem queued_iff {nodeAt : NodeIdx → Node} {n k i : Nat} :
    Queued nodeAt n k i ↔ i < k ∧ ∀ j, n ≤ j → j < k → ¬ IsChild nodeAt j i := by
  simp only [Queued, isChild_iff, not_or, ne_eq]

theorem comesBefore_iff {nodeAt : NodeIdx → Node} {a b : Nat} :
    ComesBefore nodeAt a b ↔
      weightOf nodeAt a < weightOf nodeAt b ∨ (weightOf nodeAt a = weightOf nodeAt b ∧ a < b) := by
  rw [ComesBefore, ← BitVec.toNat_inj]
  rfl

theorem ComesBefore.weight_le {nodeAt : NodeIdx → Node} {a b : Nat} (h : ComesBefore nodeAt a b) :
    weightOf nodeAt a ≤ weightOf nodeAt b := by
  rw [comesBefore_iff] at h
  omega

theorem ComesBefore.asymm {nodeAt : NodeIdx → Node} {a b : Nat} (h : ComesBefore nodeAt a b) : ¬ ComesBefore nodeAt b a := by
  rw [comesBefore_iff] at h ⊢
  omega

theorem comesBefore_of_le {nodeAt : NodeIdx → Node} {a b : Nat} (hw : weightOf nodeAt a ≤ weightOf nodeAt b) (h : a < b) :
    ComesBefore nodeAt a b := by
  rw [comesBefore_iff]
  omega

/-! One merge. -/

theorem MergedAt.queued {nodeAt : NodeIdx → Node} {n k i : Nat} (h : MergedAt nodeAt n k) (hi : IsChild nodeAt k i) :
    Queued nodeAt n k i := by
  obtain rfl | rfl := isChild_iff.1 hi
  · exact h.left
  · exact h.right

/-- Both children come before whatever else is in the queue (R132). -/
theorem MergedAt.comesBefore {nodeAt : NodeIdx → Node} {n k i j : Nat} (h : MergedAt nodeAt n k) (hi : IsChild nodeAt k i)
    (hj : Queued nodeAt n k j) (hnot : ¬ IsChild nodeAt k j) : ComesBefore nodeAt i j := by
  rw [isChild_iff, not_or] at hnot
  obtain ⟨hl, hr⟩ := hnot
  obtain rfl | rfl := isChild_iff.1 hi
  · exact h.leftFirst j hj (Ne.symm hl)
  · exact h.rightNext j hj (Ne.symm hl) (Ne.symm hr)

theorem ExactAt.weight {nodeAt : NodeIdx → Node} {k : Nat} (h : ExactAt nodeAt k) :
    weightOf nodeAt k = weightOf nodeAt (nodeAt (BitVec.ofNat 9 k)).left.toNat +
      weightOf nodeAt (nodeAt (BitVec.ofNat 9 k)).right.toNat := by
  simpa only [ExactAt, weightOf, BitVec.ofNat_toNat, BitVec.setWidth_eq] using h

theorem ExactAt.child_le {nodeAt : NodeIdx → Node} {k i : Nat} (h : ExactAt nodeAt k) (hi : IsChild nodeAt k i) :
    weightOf nodeAt i ≤ weightOf nodeAt k := by
  rw [h.weight]
  obtain rfl | rfl := isChild_iff.1 hi <;> omega

/-! All merges, up to that of the root. -/

section AllMerges

variable {nodeAt : NodeIdx → Node} {n root : Nat} (hmerged : ∀ k, n ≤ k → k ≤ root → MergedAt nodeAt n k)
  (hexact : ∀ k, n ≤ k → k ≤ root → ExactAt nodeAt k)
include hmerged

/-- A node has one parent: it was in the queue until its parent was made. -/
theorem parent_unique {d e i : Nat} (hd : n ≤ d) (hdr : d ≤ root) (he : n ≤ e) (her : e ≤ root) (hid : IsChild nodeAt d i)
    (hie : IsChild nodeAt e i) : d = e := by
  obtain ⟨-, hbefore⟩ := queued_iff.1 ((hmerged d hd hdr).queued hid)
  obtain ⟨-, hbefore'⟩ := queued_iff.1 ((hmerged e he her).queued hie)
  rcases Nat.lt_trichotomy d e with hlt | heq | hlt
  · exact absurd hid (hbefore' d hd hlt)
  · exact heq
  · exact absurd hie (hbefore e he hlt)

include hexact

/-- A child of node `j` comes before every node that is a child of no node up to `j`, made before `j` or after it. -/
theorem comesBefore_of_child {j i : Nat} (hj : n ≤ j) (hjr : j ≤ root) (hi : IsChild nodeAt j i) (i' : Nat) (hir : i' ≤ root)
    (hnot : ∀ k, n ≤ k → k ≤ j → ¬ IsChild nodeAt k i') : ComesBefore nodeAt i i' := by
  have hij : i < j := ((hmerged j hj hjr).queued hi).1
  induction i' using Nat.strong_induction_on with
  | _ i' ih =>
    rcases Nat.lt_trichotomy i' j with hlt | rfl | hgt
    · have hq : Queued nodeAt n j i' := queued_iff.2 ⟨hlt, fun k hk hkj => hnot k hk hkj.le⟩
      exact (hmerged j hj hjr).comesBefore hi hq (hnot j hj le_rfl)
    · exact comesBefore_of_le ((hexact _ hj hjr).child_le hi) hij
    · have hc : IsChild nodeAt i' _ := ⟨false, rfl⟩
      obtain ⟨hlt, hbefore⟩ := queued_iff.1 ((hmerged i' (by omega) hir).queued hc)
      have hchild := ih _ hlt (by omega) fun k hk hkj => hbefore k hk (by omega)
      exact comesBefore_of_le (hchild.weight_le.trans ((hexact i' (by omega) hir).child_le hc)) (by omega)

/-- The node that comes first leaves the queue no later. -/
theorem parent_le {a b d : Nat} (hd : n ≤ d) (hdr : d ≤ root) (ha : IsChild nodeAt d a) (hbr : b ≤ root)
    (hab : b = a ∨ ComesBefore nodeAt b a) : ∃ e, n ≤ e ∧ e ≤ d ∧ IsChild nodeAt e b := by
  by_contra hnone
  have hnot : ∀ k, n ≤ k → k ≤ d → ¬ IsChild nodeAt k b := fun k hk hkd hc => hnone ⟨k, hk, hkd, hc⟩
  obtain rfl | hab := hab
  · exact hnot d hd le_rfl ha
  · exact hab.asymm (comesBefore_of_child hmerged hexact hd hdr ha b hbr hnot)

/-- Merged nodes come in the order they are made in: their weights do not fall. -/
theorem comesBefore_of_merged {d e : Nat} (he : n ≤ e) (hed : e < d) (hdr : d ≤ root) : ComesBefore nodeAt e d := by
  have hchild : ∀ b, weightOf nodeAt (childAt nodeAt (BitVec.ofNat 9 e) b).toNat ≤
      weightOf nodeAt (childAt nodeAt (BitVec.ofNat 9 d) b).toNat := fun b => by
    obtain ⟨hlt, hbefore⟩ := queued_iff.1 ((hmerged d (by omega) hdr).queued ⟨b, rfl⟩)
    exact (comesBefore_of_child hmerged hexact he (by omega) ⟨b, rfl⟩ _ (by omega) fun k hk hke =>
      hbefore k hk (by omega)).weight_le
  refine comesBefore_of_le ?_ hed
  rw [(hexact e he (by omega)).weight, (hexact d (by omega) hdr).weight]
  exact Nat.add_le_add (hchild false) (hchild true)

/-- Of two nodes of the tree, the one that comes first is no higher up. -/
theorem path_length_le {r : NodeIdx} (hr : r.toNat = root)
    (hinternal : ∀ d, (nodeAt d).kind = .internal → n ≤ d.toNat ∧ d.toNat ≤ root) (p : List Bool) :
    ∀ (q : List Bool) (a b : NodeIdx), IsPath nodeAt r p a → IsPath nodeAt r q b →
      b.toNat = a.toNat ∨ ComesBefore nodeAt b.toNat a.toNat → p.length ≤ q.length := by
  induction p using List.reverseRecOn with
  | nil => exact fun q a b _ _ _ => Nat.zero_le _
  | append_singleton p c ih =>
    intro q a b hp hq hab
    obtain ⟨d, hpd, hd, -, rfl⟩ := (isPath_snoc nodeAt p r a c).1 hp
    obtain ⟨hnd, hdr⟩ := hinternal d hd
    rcases List.eq_nil_or_concat q with rfl | ⟨q, c', rfl⟩
    · obtain rfl : b = r := hq
      obtain ⟨e, hne, hed, hc⟩ := parent_le hmerged hexact hnd hdr (isChild_childAt nodeAt d c) hr.le hab
      have := ((hmerged e hne (by omega)).queued hc).1
      omega
    · rw [List.concat_eq_append] at hq ⊢
      obtain ⟨e, hqe, he, -, rfl⟩ := (isPath_snoc nodeAt q r b c').1 hq
      obtain ⟨hne, her⟩ := hinternal e he
      have hc := isChild_childAt nodeAt e c'
      have hlt := ((hmerged _ hne her).queued hc).1
      obtain ⟨e', hne', hed, hc'⟩ := parent_le hmerged hexact hnd hdr (isChild_childAt nodeAt d c) (by omega) hab
      obtain rfl := parent_unique hmerged hne' (by omega) hne her hc' hc
      have hle := ih q d e hpd hqe (hed.eq_or_lt.imp_right fun h => comesBefore_of_merged hmerged hexact hne h hdr)
      simpa using hle

end AllMerges

/-! The tree of two symbols or more. -/

theorem Built.kind_internal {freq : Symbol → Count} {m : Memory Node} (hm : Built freq m) {d : NodeIdx}
    (hd : (nodeIn m d).kind = .internal) :
    (seedOrder freq).length ≤ d.toNat ∧ d.toNat ≤ 2 * (seedOrder freq).length - 2 := by
  refine ⟨Nat.le_of_not_lt fun hlt => ?_, Nat.le_of_not_lt fun hlt => ?_⟩
  · have hleaf := hm.leaves _ hlt
    rw [BitVec.ofNat_toNat, BitVec.setWidth_eq] at hleaf
    simp [hleaf, leafNode] at hd
  · simp [hm.rest d hlt, Node.blank] at hd

/-- A leaf's weight is the count of its symbol (R130). -/
theorem Built.weight_leaf {freq : Symbol → Count} {m : Memory Node} (hm : Built freq m) {d : NodeIdx}
    (hd : (nodeIn m d).kind = .leaf) : weightOf (nodeIn m) d.toNat = (freq (nodeIn m d).sym).toNat := by
  have hlt : d.toNat < (seedOrder freq).length := by
    by_contra hge
    by_cases hrest : d.toNat ≤ 2 * (seedOrder freq).length - 2
    · obtain ⟨l, r, w, hshape⟩ := (hm.merged _ (by omega) hrest).shape
      rw [BitVec.ofNat_toNat, BitVec.setWidth_eq] at hshape
      simp [hshape, internalNode] at hd
    · simp [hm.rest d (by omega), Node.blank] at hd
  have hleaf := hm.leaves _ hlt
  rw [weightOf, hleaf]
  rw [BitVec.ofNat_toNat, BitVec.setWidth_eq] at hleaf
  rw [hleaf]
  exact BitVec.toNat_setWidth_of_le (by decide)

/-- In the tree of two symbols or more the leaf of the greater count is no deeper (R139). -/
theorem Built.path_length_le {freq : Symbol → Count} {m : Memory Node} (hm : Built freq m) {p q : List Bool} {a b : NodeIdx}
    (hp : IsPath (nodeIn m) (BitVec.ofNat 9 (2 * (seedOrder freq).length - 2)) p a) (ha : (nodeIn m a).kind = .leaf)
    (hq : IsPath (nodeIn m) (BitVec.ofNat 9 (2 * (seedOrder freq).length - 2)) q b) (hb : (nodeIn m b).kind = .leaf)
    (hlt : (freq (nodeIn m b).sym).toNat < (freq (nodeIn m a).sym).toNat) : p.length ≤ q.length := by
  have h256 := length_seedOrder_le freq
  refine Machine.path_length_le hm.merged hm.exact (toNat_idx (by omega)) (fun d => hm.kind_internal) p q a b hp hq (.inr ?_)
  rw [comesBefore_iff, hm.weight_leaf ha, hm.weight_leaf hb]
  exact .inl hlt

/-- BUILD of one symbol writes one leaf (R135). -/
theorem sym_eq_of_build_one {s t : State} {x : Symbol} (hx : seedOrder s.freqAt = [x]) (h : exec .build s = .next t)
    {p : List Bool} {a : NodeIdx} (hp : IsPath t.nodeAt t.tree.root p a) (ha : (t.nodeAt a).kind = .leaf) :
    (t.nodeAt a).sym = x := by
  obtain ⟨m, hbuild, -, hgrown⟩ := exec_build_one hx
  cases h.symm.trans hbuild
  have hcode := mem_codes_of_path (by decide) hgrown.holds hp ha
  simp only [CodeTree.codes, List.map_cons, List.map_nil, List.append_nil, List.mem_singleton, Prod.mk.injEq] at hcode
  exact hcode.1

end Sys2Proof.Machine

namespace Sys2Proof.Proofs

open Sys2Proof.Machine

/-- Settles O33: nodes leave the queue in the order of their weights, and so do their parents, up to the root. A table of one
symbol has one leaf. -/
theorem buildWeightCorrectness : Obligations.BuildWeightCorrectness := by
  intro s t T h _ hT x p y q hx hy hlt
  obtain ⟨a, hp, ha, rfl⟩ := path_of_mem_codes hT.2 hx
  obtain ⟨b, hq, hb, rfl⟩ := path_of_mem_codes hT.2 hy
  cases hs : seedOrder s.freqAt with
  | nil => exact absurd hs (seedOrder_ne_nil (x := (t.nodeAt a).sym) fun hzero => by simp [hzero] at hlt)
  | cons z zs =>
    cases zs with
    | nil =>
      rw [sym_eq_of_build_one hs h hp ha, sym_eq_of_build_one hs h hq hb] at hlt
      exact absurd hlt (lt_irrefl _)
    | cons z' zs =>
      obtain ⟨m, hbuild, hm⟩ := exec_build_many (s := s) (by simp [hs])
      cases h.symm.trans hbuild
      exact hm.path_length_le hp ha hq hb hlt

end Sys2Proof.Proofs
